-- ==== Sys2Proof/Word.lean ====
section
/-! DEFINITION. The plain data the CRC32 Inversion Engine moves: Words, bytes, round counts, 4-byte
buffers (rules R9, R12, R14 of `00_scope.md`) and the pairs held in one entry of the Orbit directory
and of the Orbit Index (rule R60 of `20_memory.md`). -/

namespace Sys2Proof

/-- A Word: an unsigned 32-bit integer (R9). -/
abbrev Word := BitVec 32

/-- A byte (R12). -/
abbrev Byte := BitVec 8

/-- A round count, and every other 64-bit register value (R9, R27). -/
abbrev Count := BitVec 64

/-- The number of Words, `2^32`: the domain size, the table length and the step limit (R9, R156). -/
abbrev domainSize : Nat := 4294967296

/-- A 4-byte buffer `[b0, b1, b2, b3]`; `b0` is the first byte (R14). -/
structure Buffer where
  b0 : Byte
  b1 : Byte
  b2 : Byte
  b3 : Byte
deriving DecidableEq, Repr, Inhabited

/-- One entry of `ODIR`: where an orbit starts in `OSEQ` and how many Words it has (R60, R65). -/
structure OrbitDir where
  base : Nat
  len : Nat
deriving DecidableEq, Repr, Inhabited

/-- One assigned entry of `OIDX`: the orbit and the 0-based position of a Word in it (R60, R66). -/
structure OrbitPos where
  id : Nat
  pos : Nat
deriving DecidableEq, Repr, Inhabited

end Sys2Proof
end

