-- ==== Sys2Proof/Config.lean ====
section
/-! DEFINITION. What an implementation fixes (rule R10 of `00_scope.md`) and what the spec leaves open
(`93_implementation_defined.md`). Every definition of the machine takes a `Config` as an argument; the
machine the host reads is the one at `Config.here`, an opaque constant, so that nothing can be proved
of it that does not hold of every configuration. -/

namespace Sys2Proof

/-- The memory entries whose contents the spec leaves unspecified until they are written (R48; I6, I7):
a slot of `T`, of `REC`, of `OSEQ`, and the two halves of an entry of `ODIR` and of `OIDX`. -/
inductive OpenEntry where
  | table
  | recorded
  | orbitSeq
  | orbitBase
  | orbitLen
  | orbitId
  | orbitPos
deriving DecidableEq, Repr

/-- The parameters of rule R10 and the free values of the model. -/
structure Config where
  /-- The Checksum Primitive, a total function on Words (R10, R113, R114). -/
  H : Word → Word
  /-- The build workers beyond the first, so that `NWORKERS` is 1 to 65535 (R10). -/
  extraWorkers : Fin 65535
  /-- Whether the table memory exists (R10). -/
  tableMem : Bool
  /-- Whether the Functional-Graph Decomposer unit exists (R10). -/
  hasFgd : Bool
  /-- Whether the brute-force fallback unit exists (R10). -/
  hasBf : Bool
  /-- The free choices of R133 (which worker moves, which pending block it takes), numbered by
  `State.draws`. -/
  choice : Nat → Nat
  /-- What an entry reads as that nothing has written (R48, I6, I7): any value, the same at every read
  of one entry (R74). -/
  unwritten : OpenEntry → Nat → Word
deriving Inhabited

/-- `NWORKERS` (R10). -/
def Config.nworkers (c : Config) : Nat := c.extraWorkers.val + 1

/-- The named property `Bijective(H)` (R11, R116): a hypothesis of every contract, never a fact about
every `H`. -/
def Config.BijectiveH (c : Config) : Prop := Function.Bijective c.H

/-- The hardware at hand: parameters and free values that no proof can see (R10, R114). -/
opaque Config.here : Config

end Sys2Proof
end

