-- ==== Sys2Proof/Syntax.lean ====
section
/-! DEFINITION. The command set: one constructor per row of `spec/opcode_table.json` (rule R91 of
`30_encoding.md`). No command carries an operand: every operand is the whole value of a fixed register
(rule R92). -/

namespace Sys2Proof

/-- The eleven commands of R91. -/
inductive Instr where
  /-- Apply the Checksum Primitive once (R118). -/
  | hash
  /-- Word to 4-byte buffer (R119). -/
  | encode
  /-- 4-byte buffer to Word (R120). -/
  | decode
  /-- Fill the Preimage Table (R132). -/
  | build
  /-- Read one slot of the finished table (R139). -/
  | lookup
  /-- Apply `H` a number of times to a seed (R153). -/
  | fwd
  /-- The Word a number of applications of `H` before a target (R155). -/
  | inv
  /-- Build the Orbit set and the Orbit Index (R174). -/
  | decomp
  /-- Apply `H` a number of times by index arithmetic (R176). -/
  | orbq
  /-- Read one element of one orbit by id and position (R177). -/
  | orbrd
  /-- Search the alphabet's 4-byte buffers for a preimage (R191). -/
  | brute
deriving DecidableEq, Repr

end Sys2Proof
end

