-- ==== Sys2Proof/WellFormed.lean ====
section
/-! DEFINITION. When a command is a command of the hardware at hand: the optional unit it belongs to is
there (rules R91, R94 of `30_encoding.md`). Nothing else about a command can be ill-formed, since no
command has an operand field (rule R92). -/

namespace Sys2Proof

/-- The check (R94): DECOMP, ORBQ and ORBRD need `HAS_FGD`, BRUTE needs `HAS_BF`. BUILD is a command
whether or not `TABLE_MEM` holds (R91). -/
def Instr.wf (c : Config) : Instr → Bool
  | .hash => true
  | .encode => true
  | .decode => true
  | .build => true
  | .lookup => true
  | .fwd => true
  | .inv => true
  | .decomp => c.hasFgd
  | .orbq => c.hasFgd
  | .orbrd => c.hasFgd
  | .brute => c.hasBf

end Sys2Proof
end

