-- ==== Sys2Proof/Decode.lean ====
section
/-! DEFINITION. From command words to commands and back (rules R90 to R96 of `30_encoding.md`). The
decoder is total on 32-bit words and rejects by name; whether the unit of a decoded command is present
is the third part of the decode check (R207) and stands in `Machine/Flags.lean`. -/

namespace Sys2Proof

/-- Why a word is no command word (R93, R95). -/
inductive DecodeReject where
  /-- `MBZ`, bits 31:8, is not zero. -/
  | mbzNonZero
  /-- `OPC`, bits 7:0, is one of the 245 unassigned values. -/
  | unassignedOpcode (opc : Byte)
deriving DecidableEq, Repr

/-- What the decoder answers. -/
inductive Decoded where
  | command (i : Instr)
  | illegal (why : DecodeReject)
deriving DecidableEq, Repr

/-- Field `OPC` of a command word (R90). -/
def opcField (w : Word) : Byte := w.extractLsb' 0 8

/-- Field `MBZ` of a command word (R90). -/
def mbzField (w : Word) : BitVec 24 := w.extractLsb' 8 24

/-- The opcode map, first column of R91. -/
def decodeOpcode (opc : Byte) : Option Instr :=
  if opc = 0x01#8 then some .hash
  else if opc = 0x02#8 then some .encode
  else if opc = 0x03#8 then some .decode
  else if opc = 0x10#8 then some .build
  else if opc = 0x11#8 then some .lookup
  else if opc = 0x20#8 then some .fwd
  else if opc = 0x21#8 then some .inv
  else if opc = 0x30#8 then some .decomp
  else if opc = 0x31#8 then some .orbq
  else if opc = 0x32#8 then some .orbrd
  else if opc = 0x40#8 then some .brute
  else none

/-- The decoder: `MBZ` is tested before `OPC` matters (R95). -/
def decode (w : Word) : Decoded :=
  if mbzField w = 0#24 then
    match decodeOpcode (opcField w) with
    | some i => .command i
    | none => .illegal (.unassignedOpcode (opcField w))
  else .illegal .mbzNonZero

/-- The encoder: the full command word, second column of R91. -/
def encode : Instr → Word
  | .hash => 0x00000001#32
  | .encode => 0x00000002#32
  | .decode => 0x00000003#32
  | .build => 0x00000010#32
  | .lookup => 0x00000011#32
  | .fwd => 0x00000020#32
  | .inv => 0x00000021#32
  | .decomp => 0x00000030#32
  | .orbq => 0x00000031#32
  | .orbrd => 0x00000032#32
  | .brute => 0x00000040#32

/-- The opcode of a command: bits 7:0 of its word (R90), what `STATUS.LASTOP` shows (R29). -/
def opcodeOf (i : Instr) : Byte := opcField (encode i)

/-- The command the decoder reads from a word numbered as `spec/opcode_table.json` numbers it: one
32-bit command word, bit 0 the least significant (R90). -/
def decodeTableWord (nbits w : Nat) : Option Instr :=
  match decode (BitVec.ofNat 32 (w % 2 ^ nbits)) with
  | .command i => some i
  | .illegal _ => none

end Sys2Proof
end

