-- ==== Sys2Proof/Machine/State.lean ====
section
/-! DEFINITION. The state of the engine as plain data: the host-visible registers (rules R25 to R34 of
`10_state.md`), the six memory spaces (rule R60 of `20_memory.md`), the hidden state (rule R47), and, as
the model's own fields, the outside world (the host's coming moves, what it has read) and the counter of
free choices. -/

namespace Sys2Proof.Machine

/-- The five values of `STATUS.STATE` (R29, R30); the values 5 to 7 never occur. -/
inductive EngineState where
  | idle
  | busy
  | done
  | error
  | fatal
deriving DecidableEq, Repr

/-- The eight error causes of R201, by name; `none` in `State.err` is code 0x00. -/
inductive ErrCode where
  | illegalCmd
  | noTable
  | noIndex
  | alreadyBuilt
  | lookupFail
  | badIndex
  | resource
  | invariant
deriving DecidableEq, Repr

/-- The three kinds of `INVARIANT` (R202). -/
inductive InvariantKind where
  /-- Kind 0: a table slot written twice in one build. -/
  | slotCollision
  /-- Kind 1: an element about to be indexed is already in the Orbit Index. -/
  | indexCollision
  /-- Kind 2: a walk recorded `2^32` values without closing. -/
  | stepLimit
deriving DecidableEq, Repr

/-- What a `raise` carries: the error with its information (R201, R202). -/
inductive EngineError where
  | illegalCmd (w : Word)
  | noTable
  | noIndex
  | alreadyBuilt
  | lookupFail (tested : Nat)
  /-- `position` is `which`: false when the id was out of range, true when the position was. -/
  | badIndex (position : Bool) (id : Word)
  | resource
  | invariant (kind : InvariantKind) (w : Word)
deriving DecidableEq, Repr

/-- What a worker holds: an outer block and the low index it processes next (R47, R133). -/
structure BlockPos where
  block : BitVec 16
  low : BitVec 16
deriving DecidableEq, Repr

/-- Where DECOMP stands in the pseudocode of R171. -/
inductive DecompPhase where
  /-- About to test the candidate start Word. -/
  | scan
  /-- Walking from the start Word, recording values. -/
  | walk
  /-- Indexing the recorded values; `p` is the position to index next. -/
  | index (p : Nat)
deriving DecidableEq, Repr

/-- The four alphabet indices of BRUTE (R47, R193). -/
structure BruteIdx where
  i0 : Fin 256
  i1 : Fin 256
  i2 : Fin 256
  i3 : Fin 256
deriving DecidableEq, Repr

/-- One move of the outside world. `read`, `write` and `reset` are the host's steps (R21); `pause` says
that the host lets the engine move, `wait` that it polls `STATUS` until the engine is not `BUSY` (R97). -/
inductive HostStep where
  | read (idx : Nat)
  | write (idx : Nat) (v : Count)
  | reset
  | pause
  | wait
deriving DecidableEq, Repr

/-- A memory space: the listed entries by rising index; an unlisted index reads as
`Memory.unlisted`. -/
abbrev Memory (β : Type) := List (Nat × β)

/-- The whole state. -/
structure State where
  /-- `STATUS.STATE` (R29). -/
  state : EngineState
  /-- `STATUS.TABLE_VALID` (R29, R31). -/
  tableValid : Bool
  /-- `STATUS.INDEX_VALID` (R29, R31). -/
  indexValid : Bool
  /-- `STATUS.WDROP` (R29, R31). -/
  wdrop : Bool
  /-- `STATUS.ERR` (R29, R201). -/
  err : Option ErrCode
  /-- `STATUS.LASTOP` (R29); while `BUSY` it says which command is in flight (R24). -/
  lastop : Byte
  /-- `ERRINFO` (R32). -/
  errinfo : Count
  /-- `ARG_WORD` (R25). -/
  argWord : Word
  /-- `ARG_COUNT` (R25). -/
  argCount : Count
  /-- `ARG_BUF0..3` (R25). -/
  argBuf : Buffer
  /-- `RES_WORD` (R25). -/
  resWord : Word
  /-- `RES_LEN` (R25). -/
  resLen : Count
  /-- `RES_ORBIT` (R25). -/
  resOrbit : Word
  /-- `RES_POS` (R25). -/
  resPos : Word
  /-- `RES_BUF0..3` (R25). -/
  resBuf : Buffer
  /-- `ALEN`, legal values 0 to 256 (R34). -/
  alen : Fin 257
  /-- `ALPHA[0..255]` (R34). -/
  alpha : Vector Byte 256
  /-- The Preimage Table `T`; an unlisted slot has never been written (R60, R61). -/
  memT : Memory (Option Word)
  /-- The tags `TAG` (R60, R63). -/
  memTag : Memory Bool
  /-- The recorded list `REC`, 1-indexed (R60, R64). -/
  memRec : Memory (Option Word)
  /-- The orbit sequence store `OSEQ` (R60, R65). -/
  memOseq : Memory (Option Word)
  /-- The orbit directory `ODIR` (R60, R65). -/
  memOdir : Memory (Option OrbitDir)
  /-- The Orbit Index `OIDX`; `none` is `unassigned` (R60, R66). -/
  memOidx : Memory (Option OrbitPos)
  /-- `PENDING`, the outer blocks no worker has claimed, in rising order (R47). -/
  pending : List (BitVec 16)
  /-- `CUR[w]`, by worker number; an unlisted worker holds `none` (R47). -/
  cur : Memory (Option BlockPos)
  /-- `NREC`, the length of the recorded list (R47). -/
  nrec : Nat
  /-- `NORB`, the number of orbits (R47). -/
  norb : Nat
  /-- The entries of `OSEQ` already used, `nbase` of R171. -/
  nbase : Nat
  /-- The candidate start Word `i` of DECOMP, 0 to `2^32` (R47). -/
  start : Nat
  /-- Where DECOMP stands in R171. -/
  phase : DecompPhase
  /-- The indices `i0..i3` of BRUTE (R47); `none` once its loops are exhausted. -/
  bruteAt : Option BruteIdx
  /-- The tested count of BRUTE (R47). -/
  tested : Nat
  /-- The model's own field: the coming moves of the host, first to come first. -/
  host : List HostStep
  /-- The model's own field: what the host has read, index and value, latest first. -/
  seen : List (Nat × Count)
  /-- The model's own field: how many free choices have been drawn from `Config.choice`. -/
  draws : Nat
deriving DecidableEq, Repr

/-- Why a step may stop with a fault. -/
inductive Fault where
  /-- Raised by the engine's move (`Machine/Turn.lean`) when `STATE = BUSY` and `LASTOP` is no assigned
  opcode. No run from reset gets there (R39: a word is decoded before the engine is `BUSY`). Safe: the
  model stops where the spec describes nothing. -/
  | lastopNotACommand
deriving DecidableEq, Repr

/-- Why a step may be refused. -/
inductive Refusal where
  /-- An arm of `exec` for a command that has no meaning yet. No arm is one. Safe. -/
  | notModelled (mnemonic : String)
deriving DecidableEq, Repr

/-- The state right after `Reset` (R48, R230). A memory with nothing listed is: no tag set, no Word
indexed, and no slot of `T`, `REC`, `OSEQ`, `ODIR` written. The host has no moves to make. -/
def State.reset : State where
  state := .idle
  tableValid := false
  indexValid := false
  wdrop := false
  err := none
  lastop := 0
  errinfo := 0
  argWord := 0
  argCount := 0
  argBuf := ⟨0, 0, 0, 0⟩
  resWord := 0
  resLen := 0
  resOrbit := 0
  resPos := 0
  resBuf := ⟨0, 0, 0, 0⟩
  alen := 0
  alpha := Vector.replicate 256 0
  memT := []
  memTag := []
  memRec := []
  memOseq := []
  memOdir := []
  memOidx := []
  pending := []
  cur := []
  nrec := 0
  norb := 0
  nbase := 0
  start := 0
  phase := .scan
  bruteAt := some ⟨0, 0, 0, 0⟩
  tested := 0
  host := []
  seen := []
  draws := 0

end Sys2Proof.Machine
end

