-- ==== Sys2Proof/Machine/Operands.lean ====
section
/-! DEFINITION. The operands (rule R92 of `30_encoding.md`): every operand is the whole value of a fixed
register, unsigned and used as is; and the bits of a 64-bit host write that a register keeps
(rules R27, R34 of `10_state.md`). -/

namespace Sys2Proof.Machine

/-- The Word operand: seed, target, table index, word to encode or orbit id (R25, R92). -/
def wordOperand (s : State) : Word := s.argWord

/-- The count operand as an unsigned number: a round count or a position (R25, R92). -/
def countOperand (s : State) : Nat := s.argCount.toNat

/-- The buffer operand (R25, R92). -/
def bufferOperand (s : State) : Buffer := s.argBuf

/-- The alphabet's size `A = ALEN` (R34, R193). -/
def alphabetSize (s : State) : Nat := s.alen.val

/-- The alphabet byte `ALPHA[j]` (R34). -/
def alphabetByte (s : State) (j : Fin 256) : Byte := s.alpha.get j

/-- The low 32 bits of a host write (R27, R28). -/
def low32 (v : Count) : Word := v.extractLsb' 0 32

/-- The low 8 bits of a host write (R27). -/
def low8 (v : Count) : Byte := v.extractLsb' 0 8

/-- The low 9 bits of a host write to `ALEN`, `v[8:0]` (R34). -/
def low9 (v : Count) : BitVec 9 := v.extractLsb' 0 9

/-- Byte `j` of a buffer; `b0` is byte 0 (R14, R27). -/
def bufferByte (b : Buffer) (j : Fin 4) : Byte :=
  match j with
  | 0 => b.b0
  | 1 => b.b1
  | 2 => b.b2
  | 3 => b.b3

/-- A buffer with byte `j` replaced (R27: `ARG_BUFj` is a register of its own). -/
def setBufferByte (b : Buffer) (j : Fin 4) (v : Byte) : Buffer :=
  match j with
  | 0 => { b with b0 := v }
  | 1 => { b with b1 := v }
  | 2 => { b with b2 := v }
  | 3 => { b with b3 := v }

end Sys2Proof.Machine
end

