-- ==== Sys2Proof/Machine/Flags.lean ====
section
/-! DEFINITION. Flags, codes and the bit layouts software can read: `STATUS` (rule R29 of `10_state.md`),
`CONFIG` (R33), `ERRINFO` (R202 of `60_exceptions.md`), the error codes (R201), the level outputs (R35);
and the two tests of a command that read the flags and the parameters: the presence of its unit (R94)
and its issue check (R205). -/

namespace Sys2Proof.Machine

/-- The number of an engine state in `STATUS.STATE` (R29). -/
def stateBits : EngineState → BitVec 3
  | .idle => 0
  | .busy => 1
  | .done => 2
  | .error => 3
  | .fatal => 4

/-- The error codes of R201. -/
def errorCodeBits : ErrCode → Byte
  | .illegalCmd => 0x01
  | .noTable => 0x02
  | .noIndex => 0x03
  | .alreadyBuilt => 0x04
  | .lookupFail => 0x05
  | .badIndex => 0x06
  | .resource => 0x80
  | .invariant => 0x81

/-- `STATUS.ERR`: 0x00 when there is no error (R29, R201). -/
def errField (s : State) : Byte :=
  match s.err with
  | none => 0
  | some e => errorCodeBits e

/-- Which errors are fatal (R201). -/
def isFatalCode : ErrCode → Bool
  | .resource => true
  | .invariant => true
  | .illegalCmd => false
  | .noTable => false
  | .noIndex => false
  | .alreadyBuilt => false
  | .lookupFail => false
  | .badIndex => false

/-- The code of a raised error (R201). -/
def errorCode : EngineError → ErrCode
  | .illegalCmd _ => .illegalCmd
  | .noTable => .noTable
  | .noIndex => .noIndex
  | .alreadyBuilt => .alreadyBuilt
  | .lookupFail _ => .lookupFail
  | .badIndex _ _ => .badIndex
  | .resource => .resource
  | .invariant _ _ => .invariant

/-- The number of an `INVARIANT` kind (R202). -/
def kindBits : InvariantKind → BitVec 2
  | .slotCollision => 0
  | .indexCollision => 1
  | .stepLimit => 2

/-- `ERRINFO` as R202 lays it out for each error. -/
def errorInfo : EngineError → Count
  | .illegalCmd w => w.setWidth 64
  | .noTable => 0
  | .noIndex => 0
  | .alreadyBuilt => 0
  | .lookupFail tested => BitVec.ofNat 64 tested
  | .badIndex position id => (BitVec.ofBool position).setWidth 64 <<< 32 ||| id.setWidth 64
  | .resource => 0
  | .invariant kind w => (kindBits kind).setWidth 64 <<< 32 ||| w.setWidth 64

/-- `STATUS` (R29): `STATE` at bits 2:0, `TABLE_VALID` at 4, `INDEX_VALID` at 5, `WDROP` at 6, `ERR` at 15:8,
`LASTOP` at 23:16; the reserved bits 3, 7 and 31:24 read 0. -/
def statusWord (s : State) : Word :=
  (stateBits s.state).setWidth 32 ||| (BitVec.ofBool s.tableValid).setWidth 32 <<< 4 |||
    (BitVec.ofBool s.indexValid).setWidth 32 <<< 5 ||| (BitVec.ofBool s.wdrop).setWidth 32 <<< 6 |||
    (errField s).setWidth 32 <<< 8 ||| s.lastop.setWidth 32 <<< 16

/-- `CONFIG` (R33): `VERSION` 0x01 at bits 7:0, `TABLE_MEM` at 8, `HAS_FGD` at 9, `HAS_BF` at 10, `NWORKERS` at
31:16; the reserved bits 15:11 and 63:32 read 0. -/
def configWord (c : Config) : Count :=
  0x01#64 ||| (BitVec.ofBool c.tableMem).setWidth 64 <<< 8 ||| (BitVec.ofBool c.hasFgd).setWidth 64 <<< 9 |||
    (BitVec.ofBool c.hasBf).setWidth 64 <<< 10 ||| BitVec.ofNat 64 c.nworkers <<< 16

/-- The level output `busy` (R35). -/
def busyOutput (s : State) : Bool := s.state == .busy

/-- The level output `done` (R35). -/
def doneOutput (s : State) : Bool := s.state == .done

/-- The level output `error` (R35). -/
def errorOutput (s : State) : Bool := s.state == .error

/-- The level output `fatal` (R35). -/
def fatalOutput (s : State) : Bool := s.state == .fatal

/-- The states in which the engine takes host writes and commands (R37, R39, R209). -/
def acceptsWrites (s : State) : Bool :=
  match s.state with
  | .idle => true
  | .busy => false
  | .done => true
  | .error => true
  | .fatal => false

/-- Whether the unit of a command is there (R91, R94). -/
def unitPresent (c : Config) : Instr → Bool
  | .hash => true
  | .encode => true
  | .decode => true
  | .build => true
  | .lookup => true
  | .fwd => true
  | .inv => true
  | .decomp => c.hasFgd
  | .orbq => c.hasFgd
  | .orbrd => c.hasFgd
  | .brute => c.hasBf

/-- The issue check of a command (R205): the error that refuses it, if any. -/
def issueCheck (c : Config) (i : Instr) (s : State) : Option EngineError :=
  match i with
  | .hash => none
  | .encode => none
  | .decode => none
  | .build =>
    if c.tableMem = false then some .resource
    else if s.tableValid then some .alreadyBuilt
    else none
  | .lookup => if s.tableValid then none else some .noTable
  | .fwd => none
  | .inv => if s.tableValid then none else some .noTable
  | .decomp => if s.indexValid then some .alreadyBuilt else none
  | .orbq => if s.indexValid then none else some .noIndex
  | .orbrd => if s.indexValid then none else some .noIndex
  | .brute => none

end Sys2Proof.Machine
end

