-- ==== Sys2Proof/Machine/Ops.lean ====
section
/-! DEFINITION. The named operations every command is written over: one memory entry read and written
(rules R71 to R74 of `20_memory.md`), ending a command (`complete`, R45; `raise`, R203 and R204 of
`60_exceptions.md`), leaving an error (the acceptance of the next command, R209; `Reset`, R210, R230),
dropping a host write (R38), and accepting a command (R39, R47). -/

namespace Sys2Proof.Machine

/-! ### Memory spaces -/

/-- What an unlisted entry reads as: a clear tag, an unassigned index entry, an unwritten slot, an idle
worker. -/
def Memory.unlisted {β : Type} [Inhabited β] : β := default

/-- Read one entry whole (R71, R73); it changes nothing (R74). -/
def Memory.read {β : Type} [Inhabited β] (m : Memory β) (a : Nat) : β :=
  match m with
  | [] => Memory.unlisted
  | (b, u) :: rest => if b = a then u else Memory.read rest a

/-- Write one entry whole (R71, R73), keeping the list canonical. -/
def Memory.write {β : Type} [Inhabited β] [DecidableEq β] (m : Memory β) (a : Nat) (v : β) : Memory β :=
  match m with
  | [] => if v = Memory.unlisted then [] else [(a, v)]
  | (b, u) :: rest =>
    if a < b then (if v = Memory.unlisted then (b, u) :: rest else (a, v) :: (b, u) :: rest)
    else if a = b then (if v = Memory.unlisted then rest else (a, v) :: rest)
    else (b, u) :: Memory.write rest a v

/-- The canonical form: indices strictly rise and no entry equals what an unlisted index reads as. -/
def Memory.wf {β : Type} [Inhabited β] [DecidableEq β] : Memory β → Bool
  | [] => true
  | (a, v) :: rest => decide (v ≠ Memory.unlisted) && rest.all (fun p => decide (a < p.1)) && Memory.wf rest

/-- `MemRead(T, o)`; a slot nothing has written reads as a free value (R48, I6). -/
def readT (c : Config) (s : State) (o : Word) : Word :=
  (s.memT.read o.toNat).getD (c.unwritten .table o.toNat)

/-- `MemRead(TAG, o)` (R63). -/
def readTag (s : State) (o : Word) : Bool := s.memTag.read o.toNat

/-- `MemRead(REC, k)`; an entry nothing has written reads as a free value (R48, I7). -/
def readRec (c : Config) (s : State) (k : Nat) : Word :=
  (s.memRec.read k).getD (c.unwritten .recorded k)

/-- `MemRead(OSEQ, k)` (R65; I7). -/
def readOseq (c : Config) (s : State) (k : Nat) : Word :=
  (s.memOseq.read k).getD (c.unwritten .orbitSeq k)

/-- What an entry of `ODIR` reads as that nothing has written: any base and any length that R60 allows. -/
def unwrittenDir (c : Config) (id : Nat) : OrbitDir where
  base := (c.unwritten .orbitBase id).toNat
  len := (c.unwritten .orbitLen id).toNat + 1

/-- `MemRead(ODIR, id)` (R65; I7). -/
def readOdir (c : Config) (s : State) (id : Nat) : OrbitDir :=
  (s.memOdir.read id).getD (unwrittenDir c id)

/-- What the pair of an unassigned Word reads as where a rule reads a pair: any pair that R60 allows. -/
def unassignedPos (c : Config) (w : Word) : OrbitPos where
  id := (c.unwritten .orbitId w.toNat).toNat
  pos := (c.unwritten .orbitPos w.toNat).toNat

/-- `MemRead(OIDX, w)` where the pair is used as data (R66, R176). -/
def readOidx (c : Config) (s : State) (w : Word) : OrbitPos :=
  (s.memOidx.read w.toNat).getD (unassignedPos c w)

/-- Whether `OIDX[w]` is not `unassigned` (R66, R171). -/
def isIndexed (s : State) (w : Word) : Bool := (s.memOidx.read w.toNat).isSome

/-- What worker `w` holds, `CUR[w]` (R47). -/
def workerPos (s : State) (w : Nat) : Option BlockPos := s.cur.read w

/-! ### Ending a command -/

/-- `complete` (R45): the results listed with it are already in `s`, in the same step. -/
def complete (s : State) : State := { s with state := .done }

/-- Non-fatal error entry (R203). -/
def enterError (e : EngineError) (s : State) : State :=
  { s with state := .error, err := some (errorCode e), errinfo := errorInfo e }

/-- Fatal error entry (R204): both artifacts are discarded. -/
def enterFatal (e : EngineError) (s : State) : State :=
  { s with
    state := .fatal
    err := some (errorCode e)
    errinfo := errorInfo e
    tableValid := false
    indexValid := false
    memTag := []
    memOidx := []
    norb := 0
    pending := []
    cur := [] }

/-- `raise E(info)` (R15): the entry of R203 or of R204 by the class of R201. -/
def raise (e : EngineError) (s : State) : State :=
  if isFatalCode (errorCode e) then enterFatal e s else enterError e s

/-- `Reset` (R230): every piece of the engine's state takes its value of R48. What belongs to the outside
world (the host's coming moves, what it has read, the drawn choices) is not the engine's and stays. -/
def resetEngine (s : State) : State :=
  { State.reset with host := s.host, seen := s.seen, draws := s.draws }

/-- A dropped host write changes `WDROP` and nothing else (R38). -/
def dropWrite (s : State) : State := { s with wdrop := true }

/-! ### Accepting a command -/

/-- The outer blocks, all pending when a build starts (R47, R132). -/
def allBlocks : List (BitVec 16) := (List.range 65536).map (BitVec.ofNat 16)

/-- The hidden state initialised at acceptance (R47). -/
def initHidden (i : Instr) (s : State) : State :=
  match i with
  | .hash => s
  | .encode => s
  | .decode => s
  | .build => { s with memTag := [], pending := allBlocks, cur := [] }
  | .lookup => s
  | .fwd => { s with nrec := 0 }
  | .inv => { s with nrec := 0 }
  | .decomp => { s with memOidx := [], norb := 0, nbase := 0, start := 0, phase := .scan }
  | .orbq => s
  | .orbrd => s
  | .brute => { s with bruteAt := some ⟨0, 0, 0, 0⟩, tested := 0 }

/-- R39 step 5: the command is in flight; an earlier error is left behind (R209). -/
def startCommand (i : Instr) (s : State) : State :=
  initHidden i { s with state := .busy, err := none, errinfo := 0 }

/-- R39 step 2: the command word is accepted, whatever the checks then say. -/
def noteAccepted (opc : Byte) (s : State) : State := { s with lastop := opc }

/-- R39 steps 2 to 5 for a word that decodes to a command: the presence of its unit (the last part of the
decode check, R94, R207), then its issue check (R205), then its start. -/
def issue (c : Config) (i : Instr) (s : State) : State :=
  if unitPresent c i then
    match issueCheck c i s with
    | some e => raise e (noteAccepted (opcodeOf i) s)
    | none => startCommand i (noteAccepted (opcodeOf i) s)
  else raise (.illegalCmd (encode i)) (noteAccepted (opcodeOf i) s)

/-- R39 step 3 for a word that decodes to no command (R93). -/
def rejectWord (w : Word) (s : State) : State :=
  raise (.illegalCmd w) (noteAccepted (opcField w) s)

/-- The frame of every command. Where the engine takes commands, the command is issued (R39); where a
command is in flight, the engine takes one step of the command's pseudocode, `body` (R22); after a fatal
error the request is dropped (R38 case 2). -/
def runCommand (c : Config) (i : Instr) (body : State → State) (s : State) : State :=
  match s.state with
  | .idle => issue c i s
  | .busy => body s
  | .done => issue c i s
  | .error => issue c i s
  | .fatal => dropWrite s

end Sys2Proof.Machine
end

