-- ==== Sys2Proof/Machine/Codec.lean ====
section
/-! DEFINITION. The Word Codec and the Checksum Primitive: HASH, ENCODE, DECODE (`40_codec_hash.md`), and
the reference primitive `Href` of rule R115 with the closed form of rule R117. The machine itself uses
the parameter `H` of `Config`, never `Href`. -/

namespace Sys2Proof.Machine

/-- `encode(w)`, big-endian, most significant byte first (R110). -/
def encodeWord (w : Word) : Buffer where
  b0 := w.extractLsb' 24 8
  b1 := w.extractLsb' 16 8
  b2 := w.extractLsb' 8 8
  b3 := w.extractLsb' 0 8

/-- `decode(b) = b0 ++ b1 ++ b2 ++ b3` (R111). -/
def decodeBuffer (b : Buffer) : Word := b.b0 ++ b.b1 ++ b.b2 ++ b.b3

/-- HASH in flight (R118). -/
def hashBody (c : Config) (s : State) : State :=
  complete { s with resWord := c.H (wordOperand s) }

/-- ENCODE in flight (R119). -/
def encodeBody (s : State) : State :=
  complete { s with resBuf := encodeWord (wordOperand s) }

/-- DECODE in flight (R120). -/
def decodeBody (s : State) : State :=
  complete { s with resWord := decodeBuffer (bufferOperand s) }

/-- HASH (R118). -/
def hashOn (c : Config) (s : State) : State := runCommand c .hash (hashBody c) s

/-- ENCODE (R119). -/
def encodeOn (c : Config) (s : State) : State := runCommand c .encode encodeBody s

/-- DECODE (R120). -/
def decodeOn (c : Config) (s : State) : State := runCommand c .decode decodeBody s

/-- HASH on the hardware at hand (R118). -/
def execHash (s : State) : Host.Outcome State Fault Refusal := .next (hashOn Config.here s)

/-- ENCODE on the hardware at hand (R119). -/
def execEncode (s : State) : Host.Outcome State Fault Refusal := .next (encodeOn Config.here s)

/-- DECODE on the hardware at hand (R120). -/
def execDecode (s : State) : Host.Outcome State Fault Refusal := .next (decodeOn Config.here s)

/-! ### The reference primitive -/

/-- One shift of the bit-serial CRC, `S(c)` of R117 (R115). PRESUMED (log entry 13). -/
def crcShift (x : Word) : Word :=
  if x.getLsbD 0 then (x >>> 1) ^^^ 0xEDB88320#32 else x >>> 1

/-- A number of shifts. -/
def crcShifts (k : Nat) (x : Word) : Word :=
  match k with
  | 0 => x
  | k + 1 => crcShifts k (crcShift x)

/-- One message byte: XOR it in, then eight shifts (R115). PRESUMED (log entry 13). -/
def crcByte (x : Word) (b : Byte) : Word := crcShifts 8 (x ^^^ b.setWidth 32)

/-- `CRC32ref` on a 4-byte buffer (R115). PRESUMED (log entry 13). -/
def crc32ref (b : Buffer) : Word :=
  crcByte (crcByte (crcByte (crcByte 0xFFFFFFFF#32 b.b0) b.b1) b.b2) b.b3 ^^^ 0xFFFFFFFF#32

/-- `Href(x) = CRC32ref(encode(x))` (R115). PRESUMED (log entry 13). -/
def Href (x : Word) : Word := crc32ref (encodeWord x)

/-- `bswap32(w)` (R13). -/
def bswap32 (w : Word) : Word :=
  w.extractLsb' 0 8 ++ w.extractLsb' 8 8 ++ w.extractLsb' 16 8 ++ w.extractLsb' 24 8

/-- `S_inv(d)` (R117). PRESUMED (log entry 13). -/
def crcUnshift (x : Word) : Word :=
  if x.getLsbD 31 then ((x ^^^ 0xEDB88320#32) <<< 1) ||| 1#32 else x <<< 1

/-- A number of inverse shifts. -/
def crcUnshifts (k : Nat) (x : Word) : Word :=
  match k with
  | 0 => x
  | k + 1 => crcUnshifts k (crcUnshift x)

/-- The closed form of `Href` (R117). PRESUMED (log entry 13). -/
def hrefClosed (x : Word) : Word := ~~~ (crcShifts 32 (~~~ (bswap32 x)))

/-- The inverse of `Href` (R117). PRESUMED (log entry 13). -/
def hrefInv (o : Word) : Word := bswap32 (~~~ (crcUnshifts 32 (~~~ o)))

/-- The reference parameters of R10, with a given number of workers beyond the first and given free
values. -/
def referenceConfig (extra : Fin 65535) (choice : Nat → Nat) (unwritten : OpenEntry → Nat → Word) : Config where
  H := Href
  extraWorkers := extra
  tableMem := true
  hasFgd := true
  hasBf := true
  choice := choice
  unwritten := unwritten

end Sys2Proof.Machine
end

