-- ==== Sys2Proof/Machine/Brute.lean ====
section
/-! DEFINITION. The brute-force fallback BRUTE (`44_brute.md`). One step is one tested candidate, or the
end of the search. -/

namespace Sys2Proof.Machine

/-- The candidate buffer at an index tuple (R193). -/
def candidate (s : State) (k : BruteIdx) : Buffer where
  b0 := alphabetByte s k.i0
  b1 := alphabetByte s k.i1
  b2 := alphabetByte s k.i2
  b3 := alphabetByte s k.i3

/-- The next value of a loop index below `size`, or none when its loop is over. -/
def bumpIndex (size : Nat) (i : Fin 256) : Option (Fin 256) :=
  if h : i.val + 1 < 256 then (if i.val + 1 < size then some ⟨i.val + 1, h⟩ else none) else none

/-- The next index tuple in lexicographic order, `i3` fastest (R193); none after the last. -/
def nextTuple (size : Nat) (k : BruteIdx) : Option BruteIdx :=
  match bumpIndex size k.i3 with
  | some j => some { k with i3 := j }
  | none =>
    match bumpIndex size k.i2 with
    | some j => some { k with i2 := j, i3 := 0 }
    | none =>
      match bumpIndex size k.i1 with
      | some j => some { k with i1 := j, i2 := 0, i3 := 0 }
      | none =>
        match bumpIndex size k.i0 with
        | some j => some ⟨j, 0, 0, 0⟩
        | none => none

/-- The match: results, and the end of the command (R191). -/
def acceptCandidate (b : Buffer) (s : State) : State :=
  complete
    { s with
      resBuf := b
      resWord := decodeBuffer b
      resLen := BitVec.ofNat 64 (s.tested + 1)
      tested := s.tested + 1 }

/-- One candidate tested (R191). -/
def testCandidate (c : Config) (k : BruteIdx) (s : State) : State :=
  if c.H (decodeBuffer (candidate s k)) = wordOperand s then acceptCandidate (candidate s k) s
  else { s with tested := s.tested + 1, bruteAt := nextTuple (alphabetSize s) k }

/-- BRUTE in flight; with an empty alphabet no candidate exists (R191). -/
def bruteBody (c : Config) (s : State) : State :=
  match s.bruteAt with
  | none => raise (.lookupFail s.tested) s
  | some k => if alphabetSize s = 0 then raise (.lookupFail s.tested) s else testCandidate c k s

/-- BRUTE (R191). -/
def bruteOn (c : Config) (s : State) : State := runCommand c .brute (bruteBody c) s

/-- BRUTE on the hardware at hand (R191). -/
def execBrute (s : State) : Host.Outcome State Fault Refusal := .next (bruteOn Config.here s)

end Sys2Proof.Machine
end

