-- ==== Sys2Proof/Machine/Iterate.lean ====
section
/-! DEFINITION. The iterated evaluators FWD and INV (`42_iterate.md`). One step is one produced value: the
first recorded value, or one pass of the loop of rule R151. Both commands share the walk; FWD's next
value is `H`, INV's is the table slot (R154). -/

namespace Sys2Proof.Machine

/-- Append a value to the recorded list: `NREC <- NREC + 1; MemWrite(REC, NREC, v)` (R151). -/
def recordValue (v : Word) (s : State) : State :=
  { s with nrec := s.nrec + 1, memRec := s.memRec.write (s.nrec + 1) (some v) }

/-- The result of a closed walk: `recorded[n mod L]`, and the seed itself when that is 0 (R151, R152). -/
def walkResult (c : Config) (s : State) : Word :=
  if countOperand s % s.nrec = 0 then wordOperand s else readRec c s (countOperand s % s.nrec)

/-- The closed walk ends the command: `RES_WORD <- result; RES_LEN <- L; complete` (R153, R155). -/
def closeWalk (c : Config) (s : State) : State :=
  complete { s with resWord := walkResult c s, resLen := BitVec.ofNat 64 s.nrec }

/-- One step of a walk whose produced values come from `next` (R151, R154, R156). -/
def walkStep (c : Config) (next : Word → Word) (s : State) : State :=
  if s.nrec = 0 then recordValue (next (wordOperand s)) s
  else if next (readRec c s s.nrec) = readRec c s 1 then closeWalk c s
  else if s.nrec = domainSize then raise (.invariant .stepLimit (wordOperand s)) s
  else recordValue (next (readRec c s s.nrec)) s

/-- FWD in flight (R151, R153). -/
def fwdBody (c : Config) (s : State) : State := walkStep c c.H s

/-- INV in flight (R154, R155). -/
def invBody (c : Config) (s : State) : State := walkStep c (readT c s) s

/-- FWD (R153). -/
def fwdOn (c : Config) (s : State) : State := runCommand c .fwd (fwdBody c) s

/-- INV (R155). -/
def invOn (c : Config) (s : State) : State := runCommand c .inv (invBody c) s

/-- FWD on the hardware at hand (R153). -/
def execFwd (s : State) : Host.Outcome State Fault Refusal := .next (fwdOn Config.here s)

/-- INV on the hardware at hand (R155). -/
def execInv (s : State) : Host.Outcome State Fault Refusal := .next (invOn Config.here s)

end Sys2Proof.Machine
end

