-- ==== Sys2Proof/Machine/Orbit.lean ====
section
/-! DEFINITION. The Functional-Graph Decomposer: DECOMP, ORBQ, ORBRD (`43_decompose.md`). One step of
DECOMP is one test of a candidate start Word, one pass of the walk loop, or one pass of the indexing loop
of rule R171. -/

namespace Sys2Proof.Machine

/-- The candidate start Word `i` as a Word (R171). -/
def startWord (s : State) : Word := BitVec.ofNat 32 s.start

/-- The candidates are exhausted: `INDEX_VALID <- 1; RES_LEN <- NORB; complete` (R174). -/
def finishDecomp (s : State) : State :=
  complete { s with indexValid := true, resLen := BitVec.ofNat 64 s.norb }

/-- The next candidate. -/
def nextStart (s : State) : State := { s with start := s.start + 1, phase := .scan }

/-- Test a candidate: skip it if it is indexed, else start a walk with the candidate as its first
recorded value (R171). -/
def scanStep (s : State) : State :=
  if s.start = domainSize then finishDecomp s
  else if isIndexed s (startWord s) then nextStart s
  else { s with nrec := 1, memRec := s.memRec.write 1 (some (startWord s)), phase := .walk }

/-- One pass of the walk: it closes when the produced value is the start Word (R171), and it ends at the
step limit (R173). -/
def orbitWalkStep (c : Config) (s : State) : State :=
  if c.H (readRec c s s.nrec) = startWord s then { s with phase := .index 0 }
  else if s.nrec = domainSize then raise (.invariant .stepLimit (startWord s)) s
  else recordValue (c.H (readRec c s s.nrec)) s

/-- One element indexed at position `p`, after the check that it is not indexed yet (R171, R173). -/
def indexElement (p : Nat) (w : Word) (s : State) : State :=
  if isIndexed s w then raise (.invariant .indexCollision w) s
  else
    { s with
      memOidx := s.memOidx.write w.toNat (some ⟨s.norb, p⟩)
      memOseq := s.memOseq.write (s.nbase + p) (some w)
      phase := .index (p + 1) }

/-- The orbit is indexed: its directory entry, the next free place of `OSEQ`, the next id (R171). -/
def closeOrbit (s : State) : State :=
  nextStart
    { s with
      memOdir := s.memOdir.write s.norb (some ⟨s.nbase, s.nrec⟩)
      nbase := s.nbase + s.nrec
      norb := s.norb + 1 }

/-- One pass of the indexing loop (R171). -/
def indexStep (c : Config) (p : Nat) (s : State) : State :=
  if p < s.nrec then indexElement p (readRec c s (p + 1)) s else closeOrbit s

/-- DECOMP in flight (R171, R174). -/
def decompBody (c : Config) (s : State) : State :=
  match s.phase with
  | .scan => scanStep s
  | .walk => orbitWalkStep c s
  | .index p => indexStep c p s

/-- The place in an orbit, `(pos + (n mod len)) mod len`, every intermediate below `2^33` (R175). -/
def orbitPlace (pos n len : Nat) : Nat := (pos + n % len) % len

/-- ORBQ in flight, for the pair of the operand and the directory entry of its orbit (R176). -/
def orbitAnswer (c : Config) (e : OrbitPos) (d : OrbitDir) (s : State) : State :=
  complete
    { s with
      resWord := readOseq c s (d.base + orbitPlace e.pos (countOperand s) d.len)
      resOrbit := BitVec.ofNat 32 e.id
      resPos := BitVec.ofNat 32 e.pos
      resLen := BitVec.ofNat 64 d.len }

/-- ORBQ in flight (R176). -/
def orbqBody (c : Config) (s : State) : State :=
  orbitAnswer c (readOidx c s (wordOperand s)) (readOdir c s (readOidx c s (wordOperand s)).id) s

/-- ORBRD in flight, once the id is in range, for its directory entry (R177). -/
def readElement (c : Config) (d : OrbitDir) (s : State) : State :=
  if d.len ≤ countOperand s then raise (.badIndex true (wordOperand s)) s
  else
    complete
      { s with
        resWord := readOseq c s (d.base + countOperand s)
        resOrbit := wordOperand s
        resPos := low32 s.argCount
        resLen := BitVec.ofNat 64 d.len }

/-- ORBRD in flight: the id is tested before the position (R177). -/
def orbrdBody (c : Config) (s : State) : State :=
  if s.norb ≤ (wordOperand s).toNat then raise (.badIndex false (wordOperand s)) s
  else readElement c (readOdir c s (wordOperand s).toNat) s

/-- DECOMP (R174). -/
def decompOn (c : Config) (s : State) : State := runCommand c .decomp (decompBody c) s

/-- ORBQ (R176). -/
def orbqOn (c : Config) (s : State) : State := runCommand c .orbq (orbqBody c) s

/-- ORBRD (R177). -/
def orbrdOn (c : Config) (s : State) : State := runCommand c .orbrd (orbrdBody c) s

/-- DECOMP on the hardware at hand (R174). -/
def execDecomp (s : State) : Host.Outcome State Fault Refusal := .next (decompOn Config.here s)

/-- ORBQ on the hardware at hand (R176). -/
def execOrbq (s : State) : Host.Outcome State Fault Refusal := .next (orbqOn Config.here s)

/-- ORBRD on the hardware at hand (R177). -/
def execOrbrd (s : State) : Host.Outcome State Fault Refusal := .next (orbrdOn Config.here s)

end Sys2Proof.Machine
end

