-- ==== Sys2Proof/Machine/Table.lean ====
section
/-! DEFINITION. The Preimage Table: BUILD, run by the workers and joined by the sequencer, and LOOKUP
(`41_table.md`). One step of BUILD is one step of one agent: a worker's claim (R133), a worker's slot
update (R135), or the join (R136). Which enabled worker moves and which pending block it claims are free
choices. -/

namespace Sys2Proof.Machine

/-- The input a worker at `p` processes, `i = b * 65536 + j` (R134). -/
def blockInput (p : BlockPos) : Word := BitVec.ofNat 32 (p.block.toNat * 65536 + p.low.toNat)

/-- Where a worker goes after the input at `p` (R134, R135). -/
def nextBlockPos (p : BlockPos) : Option BlockPos :=
  if p.low = 0xFFFF#16 then none else some { p with low := p.low + 1 }

/-- Whether worker `w` has an enabled step: a claim (R133) or a slot update (R135). -/
def workerEnabled (s : State) (w : Nat) : Bool :=
  (workerPos s w).isSome || !s.pending.isEmpty

/-- The workers that have an enabled step, in order of their numbers. -/
def enabledWorkers (c : Config) (s : State) : List Nat :=
  (List.range c.nworkers).filter (workerEnabled s)

/-- The worker that moves: any enabled one (R133), drawn from the free choices. -/
def movingWorker (c : Config) (s : State) : Nat :=
  (enabledWorkers c s).getD (c.choice s.draws % (enabledWorkers c s).length) 0

/-- The place in `PENDING` of the block that is claimed: any (R133), drawn from the free choices. -/
def claimedPlace (c : Config) (s : State) : Nat := c.choice (s.draws + 1) % s.pending.length

/-- The claim step of worker `w` (R133). -/
def claimStep (c : Config) (w : Nat) (s : State) : State :=
  { s with
    pending := s.pending.eraseIdx (claimedPlace c s)
    cur := s.cur.write w (some ⟨s.pending.getD (claimedPlace c s) 0, 0⟩) }

/-- The slot update of worker `w` at `p`, one atomic step (R73, R135). -/
def slotUpdate (c : Config) (w : Nat) (p : BlockPos) (s : State) : State :=
  if readTag s (c.H (blockInput p)) then
    raise (.invariant .slotCollision (c.H (blockInput p))) s
  else
    { s with
      memT := s.memT.write (c.H (blockInput p)).toNat (some (blockInput p))
      memTag := s.memTag.write (c.H (blockInput p)).toNat true
      cur := s.cur.write w (nextBlockPos p) }

/-- The step of worker `w`. -/
def workerStep (c : Config) (w : Nat) (s : State) : State :=
  match workerPos s w with
  | none => claimStep c w s
  | some p => slotUpdate c w p s

/-- The join (R136): enabled when every block has been claimed and every worker is idle, that is, when no
worker has an enabled step. -/
def joinStep (s : State) : State := complete { s with tableValid := true }

/-- A worker's step consumes the free choices it may have used. -/
def spendDraws (s : State) : State := { s with draws := s.draws + 2 }

/-- BUILD in flight: one step of one agent (R132 to R136). -/
def buildBody (c : Config) (s : State) : State :=
  match enabledWorkers c s with
  | [] => joinStep s
  | _ :: _ => spendDraws (workerStep c (movingWorker c s) s)

/-- LOOKUP in flight (R139). -/
def lookupBody (c : Config) (s : State) : State :=
  complete { s with resWord := readT c s (wordOperand s) }

/-- BUILD (R132). -/
def buildOn (c : Config) (s : State) : State := runCommand c .build (buildBody c) s

/-- LOOKUP (R139). -/
def lookupOn (c : Config) (s : State) : State := runCommand c .lookup (lookupBody c) s

/-- BUILD on the hardware at hand (R132). -/
def execBuild (s : State) : Host.Outcome State Fault Refusal := .next (buildOn Config.here s)

/-- LOOKUP on the hardware at hand (R139). -/
def execLookup (s : State) : Host.Outcome State Fault Refusal := .next (lookupOn Config.here s)

end Sys2Proof.Machine
end

