-- ==== Sys2Proof/Machine/Dispatch.lean ====
section
/-! DEFINITION. The dispatch: one arm per command of rule R91. -/

namespace Sys2Proof.Machine

def exec (i : Instr) (s : State) : Host.Outcome State Fault Refusal :=
  match i with
  | .hash => Sys2Proof.Machine.execHash s
  | .encode => Sys2Proof.Machine.execEncode s
  | .decode => Sys2Proof.Machine.execDecode s
  | .build => Sys2Proof.Machine.execBuild s
  | .lookup => Sys2Proof.Machine.execLookup s
  | .fwd => Sys2Proof.Machine.execFwd s
  | .inv => Sys2Proof.Machine.execInv s
  | .decomp => Sys2Proof.Machine.execDecomp s
  | .orbq => Sys2Proof.Machine.execOrbq s
  | .orbrd => Sys2Proof.Machine.execOrbrd s
  | .brute => Sys2Proof.Machine.execBrute s

end Sys2Proof.Machine
end

