-- ==== Sys2Proof/Machine/HostPort.lean ====
section
/-! DEFINITION. The register interface (rules R27 and R36 to R39 of `10_state.md`): the index map,
`HostRead`, `HostWrite`. A write to `CMD` that decodes to a command hands over to `run`, the dispatch of
commands, which is an argument here. -/

namespace Sys2Proof.Machine

/-- The host-visible registers (R27). -/
inductive Reg where
  | cmd
  | status
  | errinfo
  | config
  | argWord
  | argCount
  | argBuf (j : Fin 4)
  | resWord
  | resLen
  | resOrbit
  | resPos
  | resBuf (j : Fin 4)
  | alen
  | alpha (j : Fin 256)
deriving DecidableEq, Repr

/-- The index of a register (R27). -/
def regIndex : Reg → Nat
  | .cmd => 0x000
  | .status => 0x001
  | .errinfo => 0x002
  | .config => 0x003
  | .argWord => 0x004
  | .argCount => 0x005
  | .argBuf j => 0x008 + j.val
  | .resWord => 0x010
  | .resLen => 0x011
  | .resOrbit => 0x012
  | .resPos => 0x013
  | .resBuf j => 0x018 + j.val
  | .alen => 0x020
  | .alpha j => 0x100 + j.val

/-- Whether a register is there: `ALEN` and `ALPHA[j]` need `HAS_BF` (R27, R34). -/
def regPresent (c : Config) : Reg → Bool
  | .alen => c.hasBf
  | .alpha _ => c.hasBf
  | _ => true

/-- The register at an index of the map of R27, whether or not it is present. -/
def mappedReg (idx : Nat) : Option Reg :=
  if idx = 0x000 then some .cmd
  else if idx = 0x001 then some .status
  else if idx = 0x002 then some .errinfo
  else if idx = 0x003 then some .config
  else if idx = 0x004 then some .argWord
  else if idx = 0x005 then some .argCount
  else if idx = 0x010 then some .resWord
  else if idx = 0x011 then some .resLen
  else if idx = 0x012 then some .resOrbit
  else if idx = 0x013 then some .resPos
  else if idx = 0x020 then some .alen
  else if h : 0x008 ≤ idx ∧ idx < 0x00C then some (.argBuf ⟨idx - 0x008, by omega⟩)
  else if h : 0x018 ≤ idx ∧ idx < 0x01C then some (.resBuf ⟨idx - 0x018, by omega⟩)
  else if h : 0x100 ≤ idx ∧ idx < 0x200 then some (.alpha ⟨idx - 0x100, by omega⟩)
  else none

/-- The register assigned to an index on this hardware; none for an unassigned index (R27, R38 case 4). -/
def regAt (c : Config) (idx : Nat) : Option Reg :=
  match mappedReg idx with
  | none => none
  | some r => if regPresent c r then some r else none

/-- The value of a register, zero-extended to 64 bits; `CMD` reads 0 (R27, R28, R36). -/
def regValue (c : Config) (s : State) : Reg → Count
  | .cmd => 0
  | .status => (statusWord s).setWidth 64
  | .errinfo => s.errinfo
  | .config => configWord c
  | .argWord => s.argWord.setWidth 64
  | .argCount => s.argCount
  | .argBuf j => (bufferByte s.argBuf j).setWidth 64
  | .resWord => s.resWord.setWidth 64
  | .resLen => s.resLen
  | .resOrbit => s.resOrbit.setWidth 64
  | .resPos => s.resPos.setWidth 64
  | .resBuf j => (bufferByte s.resBuf j).setWidth 64
  | .alen => BitVec.ofNat 64 s.alen.val
  | .alpha j => (alphabetByte s j).setWidth 64

/-- `HostRead(idx)` (R36); an unassigned index reads 0. -/
def hostRead (c : Config) (s : State) (idx : Nat) : Count :=
  match regAt c idx with
  | none => 0
  | some r => regValue c s r

/-- A write to `ALEN`: the low 9 bits if they are at most 256, else the write is dropped (R34, R38 case
5). -/
def writeAlen (v : Count) (s : State) : State :=
  if h : (low9 v).toNat < 257 then { s with alen := ⟨(low9 v).toNat, h⟩ } else dropWrite s

/-- A write to a register other than `CMD` in a state that accepts writes: a read/write register keeps
the low bits (R37), a read-only one drops the write (R38 case 3). -/
def storeReg (r : Reg) (v : Count) (s : State) : State :=
  match r with
  | .cmd => s
  | .status => dropWrite s
  | .errinfo => dropWrite s
  | .config => dropWrite s
  | .argWord => { s with argWord := low32 v }
  | .argCount => { s with argCount := v }
  | .argBuf j => { s with argBuf := setBufferByte s.argBuf j (low8 v) }
  | .resWord => dropWrite s
  | .resLen => dropWrite s
  | .resOrbit => dropWrite s
  | .resPos => dropWrite s
  | .resBuf _ => dropWrite s
  | .alen => writeAlen v s
  | .alpha j => { s with alpha := s.alpha.set j.val (low8 v) j.isLt }

/-- A write to `CMD` in a state that accepts commands (R39); bits 63:32 are ignored. -/
def writeCmd (run : Instr → State → Host.Outcome State Fault Refusal) (v : Count) (s : State) :
    Host.Outcome State Fault Refusal :=
  match decode (low32 v) with
  | .illegal _ => .next (rejectWord (low32 v) s)
  | .command i => run i s

/-- `HostWrite(idx, v)` (R37 to R39). -/
def hostWrite (run : Instr → State → Host.Outcome State Fault Refusal) (c : Config) (idx : Nat) (v : Count)
    (s : State) : Host.Outcome State Fault Refusal :=
  if acceptsWrites s then
    match regAt c idx with
    | none => .next (dropWrite s)
    | some .cmd => writeCmd run v s
    | some r => .next (storeReg r v s)
  else .next (dropWrite s)

end Sys2Proof.Machine
end

