-- ==== Sys2Proof/Machine/Turn.lean ====
section
/-! DEFINITION. Whose move it is (rules R16, R20 to R24): the host's moves come in the order of
`State.host`, the engine moves while the host pauses, waits or has no moves left. Both the commands'
dispatch and the configuration are arguments, so that the same text gives the machine at hand and the
machine at any configuration. -/

namespace Sys2Proof.Machine

/-- The commands at any configuration: what `exec` answers at `Config.here` (R91). -/
def execOn (c : Config) (i : Instr) (s : State) : State :=
  match i with
  | .hash => hashOn c s
  | .encode => encodeOn c s
  | .decode => decodeOn c s
  | .build => buildOn c s
  | .lookup => lookupOn c s
  | .fwd => fwdOn c s
  | .inv => invOn c s
  | .decomp => decompOn c s
  | .orbq => orbqOn c s
  | .orbrd => orbrdOn c s
  | .brute => bruteOn c s

/-- The command in flight: `LASTOP` says which (R24, R29). -/
def commandInFlight (s : State) : Decoded := decode (s.lastop.setWidth 32)

/-- The engine's move. It has an enabled step exactly while `BUSY` (R22, R23, R220); else nothing
happens. -/
def engineMove (run : Instr → State → Host.Outcome State Fault Refusal) (s : State) :
    Host.Outcome State Fault Refusal :=
  if s.state = .busy then
    match commandInFlight s with
    | .command i => run i s
    | .illegal _ => .fault .lastopNotACommand
  else .next s

/-- One move of the outside world, or of the engine when the host pauses or waits; `rest` is what the
host has left to do (R21, R97). -/
def hostMove (run : Instr → State → Host.Outcome State Fault Refusal) (c : Config) (m : HostStep)
    (rest : List HostStep) (s : State) : Host.Outcome State Fault Refusal :=
  match m with
  | .read idx => .next { s with host := rest, seen := (idx, hostRead c s idx) :: s.seen }
  | .write idx v => hostWrite run c idx v { s with host := rest }
  | .reset => .next (resetEngine { s with host := rest })
  | .pause => engineMove run { s with host := rest }
  | .wait => if s.state = .busy then engineMove run s else .next { s with host := rest }

/-- One step of the whole: one move of one agent (R16, R20). -/
def turn (run : Instr → State → Host.Outcome State Fault Refusal) (c : Config) (s : State) :
    Host.Outcome State Fault Refusal :=
  match s.host with
  | [] => engineMove run s
  | m :: rest => hostMove run c m rest s

/-- One step at any configuration. -/
def stepOn (c : Config) (s : State) : Host.Outcome State Fault Refusal :=
  turn (fun i u => .next (execOn c i u)) c s

/-- A number of steps at any configuration, stopping at the first fault. -/
def runOn (c : Config) (k : Nat) (s : State) : Host.Outcome State Fault Refusal :=
  match k with
  | 0 => .next s
  | k + 1 =>
    match stepOn c s with
    | .next t => runOn c k t
    | .fault r => .fault r
    | .refused r => .refused r

end Sys2Proof.Machine
end

