-- ==== Sys2Proof/Machine/Step.lean ====
section
/-! DEFINITION. One step of the hardware at hand, and how a command word is put before it. -/

namespace Sys2Proof.Machine

/-- One step: one move of one agent (R16, R20) at `Config.here`. -/
def step (s : State) : Host.Outcome State Fault Refusal := turn exec Config.here s

/-- The host's next move is the write of the command word `w` to `CMD`. The engine takes a command only
in `IDLE`, `DONE` and `ERROR` (R39): where a command is in flight, or after a fatal error, `STATE` is set
to `IDLE`, so that the very next step runs the command. -/
def State.withFetchWord (s : State) (nbits w : Nat) : State :=
  { s with
    host := .write (regIndex .cmd) (BitVec.ofNat 64 (w % 2 ^ nbits)) :: s.host
    state := if acceptsWrites s then s.state else .idle }

end Sys2Proof.Machine
end

