-- ==== Sys2Proof/Machine/Script.lean ====
section
/-! DEFINITION. Host scripts (rules R46, R97, R98): the lines of R97 as moves of the host, the
pseudo-instructions of R98 as the lines they expand to, and the encoding of a script as its list of
writes. -/

namespace Sys2Proof.Machine

/-- `wr REG, value` (R97). -/
def scriptWr (r : Reg) (v : Count) : HostStep := .write (regIndex r) v

/-- `rd REG` (R97). -/
def scriptRd (r : Reg) : HostStep := .read (regIndex r)

/-- `cmdw value` (R97). -/
def scriptCmdw (v : Count) : HostStep := .write (regIndex .cmd) v

/-- `cmd MNEMONIC` (R97). -/
def scriptCmd (i : Instr) : HostStep := scriptCmdw ((encode i).setWidth 64)

/-- `run M` (R46, R98). -/
def scriptRun (i : Instr) : List HostStep := [scriptCmd i, .wait]

/-- `hash x` (R98). -/
def scriptHash (x : Word) : List HostStep := scriptWr .argWord (x.setWidth 64) :: scriptRun .hash

/-- `encode w` (R98). -/
def scriptEncode (w : Word) : List HostStep := scriptWr .argWord (w.setWidth 64) :: scriptRun .encode

/-- `decode b0, b1, b2, b3` (R98). -/
def scriptDecode (b : Buffer) : List HostStep :=
  scriptWr (.argBuf 0) (b.b0.setWidth 64) :: scriptWr (.argBuf 1) (b.b1.setWidth 64) ::
    scriptWr (.argBuf 2) (b.b2.setWidth 64) :: scriptWr (.argBuf 3) (b.b3.setWidth 64) :: scriptRun .decode

/-- `build` (R98). -/
def scriptBuild : List HostStep := scriptRun .build

/-- `lookup o` (R98). -/
def scriptLookup (o : Word) : List HostStep := scriptWr .argWord (o.setWidth 64) :: scriptRun .lookup

/-- A command on a Word and a count. -/
def scriptCounted (i : Instr) (w : Word) (n : Count) : List HostStep :=
  scriptWr .argWord (w.setWidth 64) :: scriptWr .argCount n :: scriptRun i

/-- `fwd s, n` (R98). -/
def scriptFwd (w : Word) (n : Count) : List HostStep := scriptCounted .fwd w n

/-- `inv o, n` (R98). -/
def scriptInv (w : Word) (n : Count) : List HostStep := scriptCounted .inv w n

/-- `decomp` (R98). -/
def scriptDecomp : List HostStep := scriptRun .decomp

/-- `orbq v, n` (R98). -/
def scriptOrbq (w : Word) (n : Count) : List HostStep := scriptCounted .orbq w n

/-- `orbrd id, k` (R98). -/
def scriptOrbrd (id : Word) (k : Count) : List HostStep := scriptCounted .orbrd id k

/-- `brute t` (R98). -/
def scriptBrute (t : Word) : List HostStep := scriptWr .argWord (t.setWidth 64) :: scriptRun .brute

/-- The writes of alphabet bytes from place `j` on (R98). -/
def scriptAlphaFrom (j : Nat) : List Byte → List HostStep
  | [] => []
  | b :: bs => .write (0x100 + j) (b.setWidth 64) :: scriptAlphaFrom (j + 1) bs

/-- `alpha c0, c1, …` (R98). -/
def scriptAlpha (bs : List Byte) : List HostStep :=
  scriptAlphaFrom 0 bs ++ [scriptWr .alen (BitVec.ofNat 64 bs.length)]

/-- The encoding of a script: its writes, each as the pair of index and value (R97). -/
def scriptWrites : List HostStep → List (Nat × Count)
  | [] => []
  | .write idx v :: rest => (idx, v) :: scriptWrites rest
  | .read _ :: rest => scriptWrites rest
  | .reset :: rest => scriptWrites rest
  | .pause :: rest => scriptWrites rest
  | .wait :: rest => scriptWrites rest

end Sys2Proof.Machine
end

