-- ==== Sys2Proof/Safety.lean ====
section
/-! DEFINITION. What the claims speak of: the invariants of the engine, correct tables and indexes, the
candidates of a brute-force search, and runs. -/

namespace Sys2Proof.Machine

/-! ### Runs -/

/-- Some number of steps at configuration `c` leads from `s` to `t`. -/
def ReachesOn (c : Config) (s t : State) : Prop := ∃ k, runOn c k s = .next t

/-! ### Memory -/

/-- Every memory space and the worker list have their canonical form, and the pending blocks rise
strictly. -/
def MemoriesCanonical (s : State) : Prop :=
  Memory.wf s.memT = true ∧ Memory.wf s.memTag = true ∧ Memory.wf s.memRec = true ∧
    Memory.wf s.memOseq = true ∧ Memory.wf s.memOdir = true ∧ Memory.wf s.memOidx = true ∧
    Memory.wf s.cur = true ∧ s.pending.Pairwise (fun a b => a.toNat < b.toNat)

/-! ### Status -/

/-- The `RES_*` registers hold their reset values (R30, R48). -/
def ResultsZero (s : State) : Prop :=
  s.resWord = 0 ∧ s.resLen = 0 ∧ s.resOrbit = 0 ∧ s.resPos = 0 ∧ s.resBuf = ⟨0, 0, 0, 0⟩

/-- `ERR` and `ERRINFO` report no error (R29, R32). -/
def NoError (s : State) : Prop := s.err = none ∧ s.errinfo = 0

/-- `ERR` and `ERRINFO` report an error of the given class as R201 and R202 say. -/
def ReportsError (fatal : Bool) (s : State) : Prop :=
  ∃ e : EngineError, isFatalCode (errorCode e) = fatal ∧ s.err = some (errorCode e) ∧ s.errinfo = errorInfo e

/-- The command in flight passed its decode check and its issue check (R39). -/
def InFlightAccepted (c : Config) (s : State) : Prop :=
  ∃ i, s.lastop = opcodeOf i ∧ unitPresent c i = true ∧ issueCheck c i s = none

/-- What `STATE` says of the other registers (R29, R30, R32, R204). -/
def StateMeaning (c : Config) (s : State) : Prop :=
  match s.state with
  | .idle => NoError s ∧ s.lastop = 0 ∧ ResultsZero s ∧ s.tableValid = false ∧ s.indexValid = false
  | .busy => NoError s ∧ InFlightAccepted c s
  | .done => NoError s
  | .error => ReportsError false s
  | .fatal => ReportsError true s ∧ s.tableValid = false ∧ s.indexValid = false

/-- What an absent unit or memory leaves untouched (R10, R27, R34, R207). -/
def AbsentUnitsUntouched (c : Config) (s : State) : Prop :=
  (c.tableMem = false → s.tableValid = false) ∧
    (c.hasFgd = false → s.indexValid = false ∧ s.resOrbit = 0 ∧ s.resPos = 0) ∧
    (c.hasBf = false → s.alen = 0 ∧ ∀ j, alphabetByte s j = 0)

/-- The status registers tell the truth. -/
def StatusConsistent (c : Config) (s : State) : Prop := StateMeaning c s ∧ AbsentUnitsUntouched c s

/-- The two counters that a walk runs on: the length of the recorded list and DECOMP's start Word, each 0 to
`2^32`, the latter below `2^32` while a start Word is being worked on (R47, R156, R171, R173). -/
def WalkCountersInRange (s : State) : Prop :=
  s.nrec ≤ domainSize ∧ s.start ≤ domainSize ∧ (s.phase ≠ .scan → s.start < domainSize)

/-- The indices of a tuple are those of alphabet bytes (R193). -/
def InAlphabet (size : Nat) (k : BruteIdx) : Prop :=
  k.i0.val < size ∧ k.i1.val < size ∧ k.i2.val < size ∧ k.i3.val < size

/-- How many candidates come before an index tuple over an alphabet of a given size (R193). -/
def tupleRank (size : Nat) (k : BruteIdx) : Nat :=
  ((k.i0.val * size + k.i1.val) * size + k.i2.val) * size + k.i3.val

/-- The tested count of a search in flight is the number of candidates before the one it stands at, and
`ALEN^4` once its loops are exhausted; the indices are those of alphabet bytes, or all 0 (R47, R191, R193). -/
def TestedCountsCandidates (s : State) : Prop :=
  match s.bruteAt with
  | none => s.tested = alphabetSize s ^ 4
  | some k =>
    s.tested = tupleRank (alphabetSize s) k ∧ (k = ⟨0, 0, 0, 0⟩ ∨ InAlphabet (alphabetSize s) k)

/-- The ranges of the hidden counters (R47, R121): `NREC`, the start Word, `NORB` and the tested count are 0 to
`2^32`. `NORB` is bounded by the start Words already worked on, the tested count by the candidates of the
search. -/
structure HiddenInRange (s : State) : Prop where
  walk : WalkCountersInRange s
  orbits : s.norb ≤ s.start
  tested : s.tested ≤ domainSize
  search : s.state = .busy → s.lastop = opcodeOf .brute → TestedCountsCandidates s

/-! ### The Preimage Table -/

/-- Input `i` has been processed in the current build: its block has been claimed and the worker that
holds the block, if one does, is past it (R133, R134). -/
def Processed (s : State) (i : Word) : Prop :=
  i.extractLsb' 16 16 ∉ s.pending ∧
    ∀ w p, workerPos s w = some p → p.block = i.extractLsb' 16 16 → (i.extractLsb' 0 16).toNat < p.low.toNat

/-- What holds between the steps of a build, for any `H` and any schedule. -/
structure BuildSound (c : Config) (s : State) : Prop where
  workerExists : ∀ w p, workerPos s w = some p → w < c.nworkers
  blockOfOneWorker : ∀ w w' p p', workerPos s w = some p → workerPos s w' = some p' → p.block = p'.block → w = w'
  claimedBlock : ∀ w p, workerPos s w = some p → p.block ∉ s.pending
  pendingOnce : s.pending.Nodup
  tagged : ∀ o, readTag s o = true ↔ ∃ i, Processed s i ∧ c.H i = o
  slotHolds : ∀ o, readTag s o = true → c.H (readT c s o) = o
  noCollision : ∀ i j, Processed s i → Processed s j → c.H i = c.H j → i = j

/-- Every slot of the table holds a preimage of its index (R61, R130). -/
def TableCorrect (c : Config) (s : State) : Prop := ∀ o, c.H (readT c s o) = o

/-- A build in flight is sound, and a valid table is whole and correct (R61, R63, R131). -/
def TableInvariant (c : Config) (s : State) : Prop :=
  (s.state = .busy → s.lastop = opcodeOf .build → BuildSound c s) ∧
    (s.tableValid = true → (∀ o, readTag s o = true) ∧ TableCorrect c s)

/-! ### The Orbit set and the Orbit Index -/

/-- The Orbit Index gives every Word an orbit and a place in it where the Word stands, and consecutive
elements of an orbit are related by `H`, the last to the first (R65, R66, R172). -/
def IndexCorrect (c : Config) (s : State) : Prop :=
  ∀ w,
    (readOidx c s w).id < s.norb ∧
      (readOidx c s w).pos < (readOdir c s (readOidx c s w).id).len ∧
      readOseq c s ((readOdir c s (readOidx c s w).id).base + (readOidx c s w).pos) = w ∧
      ∀ p, p < (readOdir c s (readOidx c s w).id).len →
        readOseq c s ((readOdir c s (readOidx c s w).id).base + (p + 1) % (readOdir c s (readOidx c s w).id).len) =
          c.H (readOseq c s ((readOdir c s (readOidx c s w).id).base + p))

/-- The sum of the lengths of the first `k` orbits (R65). -/
def orbitLengthsBelow (c : Config) (s : State) (k : Nat) : Nat :=
  ((List.range k).map fun id => (readOdir c s id).len).sum

/-- The sum of all orbit lengths (R65). -/
def orbitLengthSum (c : Config) (s : State) : Nat := orbitLengthsBelow c s s.norb

/-- `orbit[id][p]` (R65). -/
def orbitElement (c : Config) (s : State) (id p : Nat) : Word := readOseq c s ((readOdir c s id).base + p)

/-- What holds of the orbits already indexed, for any `H` (R60, R65, R66, R172): each has a directory entry
with a length from 1 to `2^32`, they lie end to end, every element is written and indexed at its place, and
each element's successor is its image, the last one's the first. -/
structure OrbitsSound (c : Config) (s : State) : Prop where
  listed : ∀ id, id < s.norb → s.memOdir.read id ≠ none
  length : ∀ id, id < s.norb → 1 ≤ (readOdir c s id).len ∧ (readOdir c s id).len ≤ domainSize
  base : ∀ id, id < s.norb → (readOdir c s id).base = orbitLengthsBelow c s id
  written : ∀ id p, id < s.norb → p < (readOdir c s id).len → s.memOseq.read ((readOdir c s id).base + p) ≠ none
  place : ∀ id p, id < s.norb → p < (readOdir c s id).len →
    s.memOidx.read (orbitElement c s id p).toNat = some ⟨id, p⟩
  successor : ∀ id p, id < s.norb → p < (readOdir c s id).len →
    orbitElement c s id ((p + 1) % (readOdir c s id).len) = c.H (orbitElement c s id p)

/-- The walk in progress, while a start Word is being worked on: `REC` begins with the start Word and each
value is the image of the one before it (R171). -/
structure OrbitWalkSound (c : Config) (s : State) : Prop where
  nonempty : 1 ≤ s.nrec
  first : s.memRec.read 1 = some (startWord s)
  written : ∀ k, 1 ≤ k → k ≤ s.nrec → s.memRec.read k ≠ none
  image : ∀ k, 1 ≤ k → k < s.nrec → readRec c s (k + 1) = c.H (readRec c s k)

/-- A closed walk of which the first `p` values are indexed (R171). -/
structure OrbitIndexing (c : Config) (s : State) (p : Nat) : Prop where
  within : p ≤ s.nrec
  closed : c.H (readRec c s s.nrec) = startWord s
  stored : ∀ k, k < p → s.memOseq.read (s.nbase + k) = some (readRec c s (k + 1))
  place : ∀ k, k < p → s.memOidx.read (readRec c s (k + 1)).toNat = some ⟨s.norb, k⟩

/-- What holds between the steps of a decomposition, for any `H`. -/
structure DecompSound (c : Config) (s : State) : Prop where
  orbits : OrbitsSound c s
  used : s.nbase = orbitLengthSum c s
  covered : ∀ w : Word, w.toNat < s.start → isIndexed s w = true
  placed : ∀ (w : Word) e, s.memOidx.read w.toNat = some e →
    (e.id < s.norb ∧ e.pos < (readOdir c s e.id).len ∧ orbitElement c s e.id e.pos = w) ∨
      (e.id = s.norb ∧ ∃ p, s.phase = .index p ∧ e.pos < p ∧ readRec c s (e.pos + 1) = w)
  walk : s.phase ≠ .scan → OrbitWalkSound c s
  indexing : ∀ p, s.phase = .index p → OrbitIndexing c s p

/-- A decomposition in flight is sound, and a valid index is whole and correct (R65, R66, R77, R174). -/
def IndexInvariant (c : Config) (s : State) : Prop :=
  (s.state = .busy → s.lastop = opcodeOf .decomp → DecompSound c s) ∧
    (s.indexValid = true → (∀ w, isIndexed s w = true) ∧ OrbitsSound c s ∧ IndexCorrect c s)

/-! ### Brute force -/

/-- The alphabet byte at a place given as a number. -/
def alphabetAt (s : State) (j : Nat) : Byte := if h : j < 256 then alphabetByte s ⟨j, h⟩ else 0

/-- Candidate number `k`, counted from 0, in the order of R193: with `A = ALEN`, the digits of `k` to the
base `A`, the first byte's the most significant. -/
def candidateNumber (s : State) (k : Nat) : Buffer where
  b0 := alphabetAt s (k / alphabetSize s ^ 3)
  b1 := alphabetAt s (k / alphabetSize s ^ 2 % alphabetSize s)
  b2 := alphabetAt s (k / alphabetSize s % alphabetSize s)
  b3 := alphabetAt s (k % alphabetSize s)

/-- Every byte of a buffer is a byte of the alphabet `ALPHA[0..ALEN-1]` (R190, R193). -/
def OverAlphabet (s : State) (b : Buffer) : Prop :=
  ∀ j, ∃ k : Fin 256, k.val < alphabetSize s ∧ alphabetByte s k = bufferByte b j

end Sys2Proof.Machine
end

