-- ==== Sys2Proof/Certificates/Slice0/Obligations.lean ====
section
/-! DEFINITION. The statements for the provers. A statement that begins "for every configuration" speaks
of `execOn c`, `stepOn c` and `runOn c` for every value of the parameters and of the free values;
`MachineAtHandIsOneConfiguration` says that `exec` and `step` are the case `c = Config.here`. -/

open Sys2Proof Sys2Proof.Machine

/-! ### Encoding -/

/-- R91, R90: the eleven command words, written out, decode to their commands (a sanity statement). -/
def Obligations.CommandWordsDecode : Prop :=
  decode 0x00000001#32 = .command .hash ∧ decode 0x00000002#32 = .command .encode ∧
    decode 0x00000003#32 = .command .decode ∧ decode 0x00000010#32 = .command .build ∧
    decode 0x00000011#32 = .command .lookup ∧ decode 0x00000020#32 = .command .fwd ∧
    decode 0x00000021#32 = .command .inv ∧ decode 0x00000030#32 = .command .decomp ∧
    decode 0x00000031#32 = .command .orbq ∧ decode 0x00000032#32 = .command .orbrd ∧
    decode 0x00000040#32 = .command .brute

/-- R91: a word is a command's word exactly when the decoder reads that command from it, so the decoder
matches the whole 32-bit word (mask 0xFFFFFFFF), and the decoder's other answer is given for exactly the
words of R93: `MBZ` not zero, or `OPC` in one of the six unassigned ranges. -/
def Obligations.DecoderMatchesWholeWord : Prop :=
  (∀ w i, decode w = .command i ↔ w = encode i) ∧
    ∀ w : Word, (∃ why, decode w = .illegal why) ↔
      256 ≤ w.toNat ∨ w.toNat % 256 = 0 ∨ (0x04 ≤ w.toNat % 256 ∧ w.toNat % 256 ≤ 0x0F) ∨
        (0x12 ≤ w.toNat % 256 ∧ w.toNat % 256 ≤ 0x1F) ∨ (0x22 ≤ w.toNat % 256 ∧ w.toNat % 256 ≤ 0x2F) ∨
        (0x33 ≤ w.toNat % 256 ∧ w.toNat % 256 ≤ 0x3F) ∨ 0x41 ≤ w.toNat % 256

/-! ### Steps -/

/-- The model's own bridge: the machine at hand is the machine at the configuration `Config.here`. -/
def Obligations.MachineAtHandIsOneConfiguration : Prop :=
  (∀ i s, exec i s = .next (execOn Config.here i s)) ∧ ∀ s, step s = stepOn Config.here s

/-- R39: when the host's next move writes to `CMD` a value whose low 32 bits are the word of a command and
the engine takes commands, the step is `exec` of that command; bits 63:32 do not matter. R22, R24: while
`BUSY`, when the engine moves, the step is `exec` of the command whose opcode `LASTOP` shows. That it moves
where the host has no move, pauses or waits is the model's choice (log entry 2, a DESIGN CHOICE). The last
clause is the model's choice too (log entry 9, a DESIGN CHOICE): a command word put before the machine by
`withFetchWord`, which sets `STATE` to `IDLE` where it is `BUSY` or `FATAL`, is run by the very next step. -/
def Obligations.StepRunsDecodedCommand : Prop :=
  (∀ s i v rest, s.host = .write 0 v :: rest → acceptsWrites s = true → low32 v = encode i →
      step s = exec i { s with host := rest }) ∧
    (∀ s i, s.host = [] → s.state = .busy → s.lastop = opcodeOf i → step s = exec i s) ∧
    (∀ s i rest, s.host = .pause :: rest → s.state = .busy → s.lastop = opcodeOf i →
      step s = exec i { s with host := rest }) ∧
    (∀ s i rest, s.host = .wait :: rest → s.state = .busy → s.lastop = opcodeOf i → step s = exec i s) ∧
    ∀ (s : State) i, step (s.withFetchWord 32 (encode i).toNat) =
      exec i { s with state := if acceptsWrites s then s.state else .idle }

/-- R40: for every configuration, a step changes `STATE` only as the table of R40 allows: by a reset, to
`IDLE`; by a write to `CMD` in `IDLE`, `DONE` or `ERROR`, to `ERROR`, to `BUSY`, or, for BUILD without table
memory, to `FATAL`; by the engine's own step while `BUSY`, to `DONE`, to `ERROR` with `LOOKUP_FAIL` or
`BAD_INDEX`, or to `FATAL` with `INVARIANT`. That the engine moves where the host has no move, pauses or waits is
the model's choice (log entry 2). -/
def Obligations.StateChangesOnlyAsListed : Prop :=
  ∀ c s t, stepOn c s = .next t → t.state ≠ s.state →
    (∃ rest, s.host = .reset :: rest ∧ t.state = .idle) ∨
      (∃ v rest, s.host = .write 0 v :: rest ∧ acceptsWrites s = true ∧
        (t.state = .error ∨ t.state = .busy ∨
          (t.state = .fatal ∧ low32 v = encode .build ∧ c.tableMem = false))) ∨
      (s.state = .busy ∧ (s.host = [] ∨ s.host.head? = some .pause ∨ s.host.head? = some .wait) ∧
        (t.state = .done ∨ (t.state = .error ∧ (t.err = some .lookupFail ∨ t.err = some .badIndex)) ∨
          (t.state = .fatal ∧ t.err = some .invariant)))

/-- R31: for every configuration, a step sets `TABLE_VALID` only by completing BUILD and `INDEX_VALID` only
by completing DECOMP, clears either only by a reset or a fatal error, sets `WDROP` only by a host write and
clears it only by a reset. -/
def Obligations.FlagsChangeOnlyAsListed : Prop :=
  ∀ c s t, stepOn c s = .next t →
    (s.tableValid = false → t.tableValid = true →
      s.state = .busy ∧ s.lastop = opcodeOf .build ∧ t.state = .done) ∧
    (s.indexValid = false → t.indexValid = true →
      s.state = .busy ∧ s.lastop = opcodeOf .decomp ∧ t.state = .done) ∧
    ((s.tableValid = true ∧ t.tableValid = false) ∨ (s.indexValid = true ∧ t.indexValid = false) →
      (∃ rest, s.host = .reset :: rest) ∨ t.state = .fatal) ∧
    (s.wdrop = false → t.wdrop = true → ∃ idx v rest, s.host = .write idx v :: rest) ∧
    (s.wdrop = true → t.wdrop = false → ∃ rest, s.host = .reset :: rest)

/-- R43: for every configuration, a step that changes a `RES_*` register is the `complete` step of a command
(from `BUSY` to `DONE`) or a reset. -/
def Obligations.ResultsChangeOnlyAtComplete : Prop :=
  ∀ c s t, stepOn c s = .next t →
    (t.resWord ≠ s.resWord ∨ t.resLen ≠ s.resLen ∨ t.resOrbit ≠ s.resOrbit ∨ t.resPos ≠ s.resPos ∨
      t.resBuf ≠ s.resBuf) →
    (s.state = .busy ∧ t.state = .done) ∨ ∃ rest, s.host = .reset :: rest

/-- R44: for every configuration, an engine step that leaves the engine `BUSY` changes no value that any
`HostRead` can return. -/
def Obligations.NothingIntermediateIsObservable : Prop :=
  ∀ c i s, s.state = .busy → (execOn c i s).state = .busy → ∀ idx, hostRead c (execOn c i s) idx = hostRead c s idx

/-- R42: for every configuration, no step from `BUSY` but a reset changes an operand register or the
alphabet. -/
def Obligations.OperandsAreStableWhileBusy : Prop :=
  ∀ c s t, s.state = .busy → (∀ rest, s.host ≠ .reset :: rest) → stepOn c s = .next t →
    t.argWord = s.argWord ∧ t.argCount = s.argCount ∧ t.argBuf = s.argBuf ∧ t.alen = s.alen ∧ t.alpha = s.alpha

/-- R77, R138: for every configuration, while `TABLE_VALID` is 0 the contents of `T` affect nothing but the
contents of `T`: replacing them changes nothing else in the next state. -/
def Obligations.InvalidTableIsUnobservable : Prop :=
  ∀ c s m t, StatusConsistent c s → s.tableValid = false → stepOn c s = .next t →
    ∃ m', stepOn c { s with memT := m } = .next { t with memT := m' }

/-! ### The register interface -/

/-- R36 with the index map of R27: for every configuration, a host read is possible in every state and
changes nothing of the engine; it returns the register's value, zero-extended; `CMD`, unassigned indices,
and the alphabet's indices without `HAS_BF`, read 0. -/
def Obligations.HostReadsReturnRegisters : Prop :=
  (∀ c s idx rest, s.host = .read idx :: rest →
      stepOn c s = .next { s with host := rest, seen := (idx, hostRead c s idx) :: s.seen }) ∧
    ∀ c s,
      hostRead c s 0x000 = 0 ∧ hostRead c s 0x001 = (statusWord s).setWidth 64 ∧ hostRead c s 0x002 = s.errinfo ∧
      hostRead c s 0x003 = configWord c ∧ hostRead c s 0x004 = s.argWord.setWidth 64 ∧
      hostRead c s 0x005 = s.argCount ∧ (∀ j : Fin 4, hostRead c s (0x008 + j.val) = (bufferByte s.argBuf j).setWidth 64) ∧
      hostRead c s 0x010 = s.resWord.setWidth 64 ∧ hostRead c s 0x011 = s.resLen ∧
      hostRead c s 0x012 = s.resOrbit.setWidth 64 ∧ hostRead c s 0x013 = s.resPos.setWidth 64 ∧
      (∀ j : Fin 4, hostRead c s (0x018 + j.val) = (bufferByte s.resBuf j).setWidth 64) ∧
      hostRead c s 0x020 = (if c.hasBf then BitVec.ofNat 64 s.alen.val else 0) ∧
      (∀ j : Fin 256, hostRead c s (0x100 + j.val) = (if c.hasBf then (alphabetByte s j).setWidth 64 else 0)) ∧
      ∀ idx, (idx = 6 ∨ idx = 7 ∨ (0x00C ≤ idx ∧ idx < 0x010) ∨ (0x014 ≤ idx ∧ idx < 0x018) ∨
        (0x01C ≤ idx ∧ idx < 0x020) ∨ (0x021 ≤ idx ∧ idx < 0x100) ∨ 0x200 ≤ idx) → hostRead c s idx = 0

/-- R29, R33 and R35: the fields of `STATUS` and `CONFIG` stand at their bits, the reserved bits read 0, and
each level output is 1 exactly in its state. -/
def Obligations.StatusAndConfigLayout : Prop :=
  (∀ s, (statusWord s).extractLsb' 0 3 = stateBits s.state ∧ (statusWord s).getLsbD 3 = false ∧
      (statusWord s).getLsbD 4 = s.tableValid ∧ (statusWord s).getLsbD 5 = s.indexValid ∧
      (statusWord s).getLsbD 6 = s.wdrop ∧ (statusWord s).getLsbD 7 = false ∧
      (statusWord s).extractLsb' 8 8 = errField s ∧ (statusWord s).extractLsb' 16 8 = s.lastop ∧
      (statusWord s).extractLsb' 24 8 = 0) ∧
    (stateBits .idle = 0 ∧ stateBits .busy = 1 ∧ stateBits .done = 2 ∧ stateBits .error = 3 ∧ stateBits .fatal = 4) ∧
    (∀ s, (busyOutput s = true ↔ s.state = .busy) ∧ (doneOutput s = true ↔ s.state = .done) ∧
      (errorOutput s = true ↔ s.state = .error) ∧ (fatalOutput s = true ↔ s.state = .fatal)) ∧
    ∀ c, (configWord c).extractLsb' 0 8 = 0x01 ∧ (configWord c).getLsbD 8 = c.tableMem ∧
      (configWord c).getLsbD 9 = c.hasFgd ∧ (configWord c).getLsbD 10 = c.hasBf ∧
      (configWord c).extractLsb' 11 5 = 0 ∧ ((configWord c).extractLsb' 16 16).toNat = c.nworkers ∧
      (configWord c).extractLsb' 32 32 = 0

/-- R201 and R202: the error codes, their classes (bit 7 set exactly for the fatal ones) and the content of
`ERRINFO` for each. -/
def Obligations.ErrorCodesAndInformation : Prop :=
  (errorCodeBits .illegalCmd = 0x01 ∧ errorCodeBits .noTable = 0x02 ∧ errorCodeBits .noIndex = 0x03 ∧
    errorCodeBits .alreadyBuilt = 0x04 ∧ errorCodeBits .lookupFail = 0x05 ∧ errorCodeBits .badIndex = 0x06 ∧
    errorCodeBits .resource = 0x80 ∧ errorCodeBits .invariant = 0x81) ∧
    (∀ e, (errorCodeBits e).getLsbD 7 = isFatalCode e) ∧
    (∀ w, (errorInfo (.illegalCmd w)).toNat = w.toNat) ∧
    (errorInfo .noTable = 0 ∧ errorInfo .noIndex = 0 ∧ errorInfo .alreadyBuilt = 0 ∧ errorInfo .resource = 0) ∧
    (∀ n, n ≤ 2 ^ 32 → (errorInfo (.lookupFail n)).toNat = n) ∧
    (∀ id, (errorInfo (.badIndex false id)).toNat = id.toNat ∧
      (errorInfo (.badIndex true id)).toNat = 2 ^ 32 + id.toNat) ∧
    ∀ w, (errorInfo (.invariant .slotCollision w)).toNat = w.toNat ∧
      (errorInfo (.invariant .indexCollision w)).toNat = 2 ^ 32 + w.toNat ∧
      (errorInfo (.invariant .stepLimit w)).toNat = 2 ^ 33 + w.toNat

/-- R37: for every configuration, in `IDLE`, `DONE` and `ERROR` a host write to a read/write register stores
the low bits of the value and changes nothing else. -/
def Obligations.OperandWritesStore : Prop :=
  ∀ c s v rest, acceptsWrites s = true →
    stepOn c { s with host := .write 0x004 v :: rest } = .next { s with host := rest, argWord := v.setWidth 32 } ∧
    stepOn c { s with host := .write 0x005 v :: rest } = .next { s with host := rest, argCount := v } ∧
    stepOn c { s with host := .write 0x008 v :: rest } =
      .next { s with host := rest, argBuf := { s.argBuf with b0 := v.setWidth 8 } } ∧
    stepOn c { s with host := .write 0x009 v :: rest } =
      .next { s with host := rest, argBuf := { s.argBuf with b1 := v.setWidth 8 } } ∧
    stepOn c { s with host := .write 0x00A v :: rest } =
      .next { s with host := rest, argBuf := { s.argBuf with b2 := v.setWidth 8 } } ∧
    stepOn c { s with host := .write 0x00B v :: rest } =
      .next { s with host := rest, argBuf := { s.argBuf with b3 := v.setWidth 8 } } ∧
    (c.hasBf = true → ∀ h : v.toNat % 512 < 257,
      stepOn c { s with host := .write 0x020 v :: rest } = .next { s with host := rest, alen := ⟨v.toNat % 512, h⟩ }) ∧
    (c.hasBf = true → ∀ j : Fin 256,
      stepOn c { s with host := .write (0x100 + j.val) v :: rest } =
        .next { s with host := rest, alpha := s.alpha.set j.val (v.setWidth 8) })

/-- R38: for every configuration, a host write is dropped, changing `WDROP` and nothing else, in each of the
five cases: while `BUSY`; while `FATAL`; to a read-only register; to an unassigned index (`ALEN` and `ALPHA`
without `HAS_BF` among them); to `ALEN` with `v[8:0] > 256`. -/
def Obligations.DroppedWritesSetOnlyWdrop : Prop :=
  ∀ c s idx v rest, s.host = .write idx v :: rest →
    (s.state = .busy ∨ s.state = .fatal ∨
      (idx = 1 ∨ idx = 2 ∨ idx = 3 ∨ (0x010 ≤ idx ∧ idx < 0x014) ∨ (0x018 ≤ idx ∧ idx < 0x01C)) ∨
      (idx = 6 ∨ idx = 7 ∨ (0x00C ≤ idx ∧ idx < 0x010) ∨ (0x014 ≤ idx ∧ idx < 0x018) ∨
        (0x01C ≤ idx ∧ idx < 0x020) ∨ (0x021 ≤ idx ∧ idx < 0x100) ∨ 0x200 ≤ idx ∨
        (c.hasBf = false ∧ (idx = 0x020 ∨ (0x100 ≤ idx ∧ idx < 0x200)))) ∨
      (idx = 0x020 ∧ 256 < v.toNat % 512)) →
    stepOn c s = .next { s with host := rest, wdrop := true }

/-! ### Accepting a command, errors, reset -/

/-- R39 step 3 with R93, R95 and R94: for every configuration, writing to `CMD` a word that decodes to no
command, or, where `HAS_FGD` is false, one of the words of DECOMP, ORBQ and ORBRD, or, where `HAS_BF` is false,
the word of BRUTE, in a state that accepts commands raises `ILLEGAL_CMD` with the word in `ERRINFO`; `LASTOP` is
the word's opcode field, bits 63:32 are ignored, and nothing else changes. No other command belongs to an
absent unit, and a command of an absent unit is refused the same way however it is issued. -/
def Obligations.IllegalWordsAreRefused : Prop :=
  (∀ c s v rest, acceptsWrites s = true → s.host = .write 0 v :: rest →
      ((∃ why, decode (v.setWidth 32) = .illegal why) ∨
        (c.hasFgd = false ∧ (v.toNat % 2 ^ 32 = 0x30 ∨ v.toNat % 2 ^ 32 = 0x31 ∨ v.toNat % 2 ^ 32 = 0x32)) ∨
        (c.hasBf = false ∧ v.toNat % 2 ^ 32 = 0x40)) →
      stepOn c s = .next { s with host := rest, lastop := v.setWidth 8, state := .error, err := some .illegalCmd,
                                  errinfo := (v.setWidth 32).setWidth 64 }) ∧
    (∀ c i, unitPresent c i = false ↔
      (c.hasFgd = false ∧ (i = .decomp ∨ i = .orbq ∨ i = .orbrd)) ∨ (c.hasBf = false ∧ i = .brute)) ∧
    ∀ c s, acceptsWrites s = true →
      (c.hasFgd = false →
        execOn c .decomp s = { s with lastop := 0x30, state := .error, err := some .illegalCmd, errinfo := 0x30 } ∧
        execOn c .orbq s = { s with lastop := 0x31, state := .error, err := some .illegalCmd, errinfo := 0x31 } ∧
        execOn c .orbrd s = { s with lastop := 0x32, state := .error, err := some .illegalCmd, errinfo := 0x32 }) ∧
      (c.hasBf = false →
        execOn c .brute s = { s with lastop := 0x40, state := .error, err := some .illegalCmd, errinfo := 0x40 })

/-- R205: for every configuration, the issue checks. In a state that accepts commands, a failed check ends
the command at once with its error: non-fatal errors change `STATE`, `ERR`, `ERRINFO` and `LASTOP` only, and
`RESOURCE` discards both artifacts as R204 says; the five commands without a check are never refused. -/
def Obligations.IssueChecksRefuse : Prop :=
  ∀ c s, acceptsWrites s = true →
    (c.tableMem = false →
      execOn c .build s = { s with lastop := 0x10, state := .fatal, err := some .resource, errinfo := 0,
                                   tableValid := false, indexValid := false, memTag := [], memOidx := [],
                                   norb := 0, pending := [], cur := [] }) ∧
    (c.tableMem = true → s.tableValid = true →
      execOn c .build s = { s with lastop := 0x10, state := .error, err := some .alreadyBuilt, errinfo := 0 }) ∧
    (s.tableValid = false →
      execOn c .lookup s = { s with lastop := 0x11, state := .error, err := some .noTable, errinfo := 0 } ∧
      execOn c .inv s = { s with lastop := 0x21, state := .error, err := some .noTable, errinfo := 0 }) ∧
    (c.hasFgd = true → s.indexValid = true →
      execOn c .decomp s = { s with lastop := 0x30, state := .error, err := some .alreadyBuilt, errinfo := 0 }) ∧
    (c.hasFgd = true → s.indexValid = false →
      execOn c .orbq s = { s with lastop := 0x31, state := .error, err := some .noIndex, errinfo := 0 } ∧
      execOn c .orbrd s = { s with lastop := 0x32, state := .error, err := some .noIndex, errinfo := 0 }) ∧
    ∀ i ∈ [Instr.hash, .encode, .decode, .fwd, .brute], unitPresent c i = true → (execOn c i s).state = .busy

/-- R39 step 5 and R47: for every configuration, a command that passes its checks is in flight: `STATE` is
`BUSY`, `ERR` and `ERRINFO` are 0, `LASTOP` is its opcode, its hidden state is initialised, and nothing else
changes. -/
def Obligations.AcceptedCommandsStart : Prop :=
  ∀ c s, acceptsWrites s = true →
    execOn c .hash s = { s with lastop := 0x01, state := .busy, err := none, errinfo := 0 } ∧
    execOn c .encode s = { s with lastop := 0x02, state := .busy, err := none, errinfo := 0 } ∧
    execOn c .decode s = { s with lastop := 0x03, state := .busy, err := none, errinfo := 0 } ∧
    execOn c .fwd s = { s with lastop := 0x20, state := .busy, err := none, errinfo := 0, nrec := 0 } ∧
    (c.tableMem = true → s.tableValid = false →
      execOn c .build s = { s with lastop := 0x10, state := .busy, err := none, errinfo := 0, memTag := [],
                                   pending := (List.range 65536).map (BitVec.ofNat 16), cur := [] }) ∧
    (s.tableValid = true →
      execOn c .lookup s = { s with lastop := 0x11, state := .busy, err := none, errinfo := 0 } ∧
      execOn c .inv s = { s with lastop := 0x21, state := .busy, err := none, errinfo := 0, nrec := 0 }) ∧
    (c.hasFgd = true → s.indexValid = false →
      execOn c .decomp s = { s with lastop := 0x30, state := .busy, err := none, errinfo := 0, memOidx := [],
                                    norb := 0, nbase := 0, start := 0, phase := .scan }) ∧
    (c.hasFgd = true → s.indexValid = true →
      execOn c .orbq s = { s with lastop := 0x31, state := .busy, err := none, errinfo := 0 } ∧
      execOn c .orbrd s = { s with lastop := 0x32, state := .busy, err := none, errinfo := 0 }) ∧
    (c.hasBf = true →
      execOn c .brute s = { s with lastop := 0x40, state := .busy, err := none, errinfo := 0,
                                   bruteAt := some ⟨0, 0, 0, 0⟩, tested := 0 })

/-- R203: non-fatal error entry changes `STATE`, `ERR` and `ERRINFO` and nothing else. R204: fatal error entry
does so and discards both artifacts; `RES_*`, `ARG_*`, `ALEN`, `ALPHA`, `WDROP` and `LASTOP` keep their
values. -/
def Obligations.ErrorEntry : Prop :=
  (∀ e s, isFatalCode (errorCode e) = false →
      raise e s = { s with state := .error, err := some (errorCode e), errinfo := errorInfo e }) ∧
    ∀ e s, isFatalCode (errorCode e) = true →
      raise e s = { s with state := .fatal, err := some (errorCode e), errinfo := errorInfo e, tableValid := false,
                           indexValid := false, norb := 0, pending := [], memTag := [], memOidx := [], cur := [] } ∧
      (∀ o, readTag (raise e s) o = false ∧ isIndexed (raise e s) o = false) ∧
      ∀ w, workerPos (raise e s) w = none

/-- R48, R230, R232: for every configuration and in every state, `BUSY` and `FATAL` among them, the reset
step gives every register, flag and counter its value of R48 and leaves no tag set, no Word indexed and no
worker busy; `CONFIG` reads its constant value. -/
def Obligations.ResetGivesResetValues : Prop :=
  ∀ c s rest, s.host = .reset :: rest → ∃ t, stepOn c s = .next t ∧
    (t.state = .idle ∧ t.tableValid = false ∧ t.indexValid = false ∧ t.wdrop = false ∧ t.err = none ∧ t.lastop = 0 ∧
      statusWord t = 0 ∧ t.errinfo = 0) ∧
    (t.argWord = 0 ∧ t.argCount = 0 ∧ t.argBuf = ⟨0, 0, 0, 0⟩) ∧
    (t.resWord = 0 ∧ t.resLen = 0 ∧ t.resOrbit = 0 ∧ t.resPos = 0 ∧ t.resBuf = ⟨0, 0, 0, 0⟩) ∧
    (t.alen = 0 ∧ ∀ j, alphabetByte t j = 0) ∧
    ((∀ o, readTag t o = false) ∧ (∀ w, isIndexed t w = false) ∧ t.pending = [] ∧ ∀ w, workerPos t w = none) ∧
    (t.nrec = 0 ∧ t.norb = 0 ∧ t.start = 0 ∧ t.bruteAt = some ⟨0, 0, 0, 0⟩ ∧ t.tested = 0) ∧
    (busyOutput t = false ∧ doneOutput t = false ∧ errorOutput t = false ∧ fatalOutput t = false) ∧
    hostRead c t 0x003 = configWord c

/-! ### Commands: what one leaves alone -/

/-- R26: for every configuration and every command in flight, a `RES_*` register that R26 does not list
under the command's writes keeps its value; so do all operand registers, the alphabet, `WDROP`, `LASTOP` and
what is the host's own. -/
def Obligations.CommandsWriteOnlyTheirResults : Prop :=
  ∀ c i s, s.state = .busy →
    let t := execOn c i s
    (i ∉ [Instr.hash, .decode, .lookup, .fwd, .inv, .orbq, .orbrd, .brute] → t.resWord = s.resWord) ∧
    (i ∉ [Instr.fwd, .inv, .decomp, .orbq, .orbrd, .brute] → t.resLen = s.resLen) ∧
    (i ∉ [Instr.orbq, .orbrd] → t.resOrbit = s.resOrbit ∧ t.resPos = s.resPos) ∧
    (i ∉ [Instr.encode, .brute] → t.resBuf = s.resBuf) ∧
    t.argWord = s.argWord ∧ t.argCount = s.argCount ∧ t.argBuf = s.argBuf ∧ t.alen = s.alen ∧ t.alpha = s.alpha ∧
    t.wdrop = s.wdrop ∧ t.lastop = s.lastop ∧ t.host = s.host ∧ t.seen = s.seen

/-- R87: for every configuration and every command in flight, the memory a command does not write is
unchanged, entry by entry: `T` but for BUILD's slot `H(i)` of an input `i` that some worker holds; `TAG` but
for BUILD and fatal errors; `REC` but for entry `NREC + 1` of FWD and INV and for the walks of DECOMP (entry 1
at a new start, entry `NREC + 1` in a walk); `OSEQ` but for entry `nbase + p` and `ODIR` but for entry `NORB` of
DECOMP; `OIDX` but for DECOMP and fatal errors. -/
def Obligations.MemoryFrame : Prop :=
  ∀ c i s, s.state = .busy →
    let t := execOn c i s
    (∀ o : Nat, (i = .build → ∀ w p, workerPos s w = some p → (c.H (blockInput p)).toNat ≠ o) →
      t.memT.read o = s.memT.read o) ∧
    (t.state ≠ .fatal → ∀ o : Nat, (i = .build → ∀ w p, workerPos s w = some p → (c.H (blockInput p)).toNat ≠ o) →
      t.memTag.read o = s.memTag.read o) ∧
    (∀ k : Nat, (i = .fwd ∨ i = .inv → k ≠ s.nrec + 1) →
      (i = .decomp → (s.phase = .scan → k ≠ 1) ∧ (s.phase = .walk → k ≠ s.nrec + 1)) →
      t.memRec.read k = s.memRec.read k) ∧
    (∀ k : Nat, (i = .decomp → ∀ p, s.phase = .index p → k ≠ s.nbase + p) → t.memOseq.read k = s.memOseq.read k) ∧
    (∀ k : Nat, (i = .decomp → k ≠ s.norb) → t.memOdir.read k = s.memOdir.read k) ∧
    (t.state ≠ .fatal → ∀ w : Nat,
      (i = .decomp → ∀ p, s.phase = .index p → (readRec c s (p + 1)).toNat ≠ w) →
      t.memOidx.read w = s.memOidx.read w)

/-! ### Word Codec and Checksum Primitive -/

/-- R110, R111, R112: `encode` is big-endian, `decode` is `b0 * 2^24 + b1 * 2^16 + b2 * 2^8 + b3`, and each undoes
the other. -/
def Obligations.CodecIsBigEndianAndInverse : Prop :=
  (∀ w : Word, (encodeWord w).b0.toNat = w.toNat / 2 ^ 24 ∧ (encodeWord w).b1.toNat = w.toNat / 2 ^ 16 % 256 ∧
      (encodeWord w).b2.toNat = w.toNat / 2 ^ 8 % 256 ∧ (encodeWord w).b3.toNat = w.toNat % 256) ∧
    (∀ b : Buffer, (decodeBuffer b).toNat =
      b.b0.toNat * 2 ^ 24 + b.b1.toNat * 2 ^ 16 + b.b2.toNat * 2 ^ 8 + b.b3.toNat) ∧
    (∀ w, decodeBuffer (encodeWord w) = w) ∧ ∀ b, encodeWord (decodeBuffer b) = b

/-- R118: HASH is accepted in every state that takes commands, and in flight it completes with
`RES_WORD = H(ARG_WORD)`, whatever the operand; nothing else changes.
With `Href` (log entry 13), 0xFFFFFFFF and 0xCC4FBB6A are fixed points and 0 gives 0x2144DF1C. -/
def Obligations.HashCompletes : Prop :=
  (∀ s, acceptsWrites s = true →
      exec .hash s = .next { s with lastop := 0x01, state := .busy, err := none, errinfo := 0 }) ∧
    (∀ s, s.state = .busy → exec .hash s = .next { s with resWord := Config.here.H s.argWord, state := .done }) ∧
    encode .hash = 0x00000001#32 ∧
    Href 0xFFFFFFFF#32 = 0xFFFFFFFF#32 ∧ Href 0xCC4FBB6A#32 = 0xCC4FBB6A#32 ∧ Href 0x00000000#32 = 0x2144DF1C#32

/-- R119: ENCODE is accepted in every state that takes commands, and in flight it completes with
`RES_BUF0..3 = encode(ARG_WORD)`; nothing else changes. -/
def Obligations.EncodeCompletes : Prop :=
  (∀ s, acceptsWrites s = true →
      exec .encode s = .next { s with lastop := 0x02, state := .busy, err := none, errinfo := 0 }) ∧
    (∀ s, s.state = .busy →
      exec .encode s =
        .next { s with resBuf := ⟨s.argWord.extractLsb' 24 8, s.argWord.extractLsb' 16 8, s.argWord.extractLsb' 8 8,
                                  s.argWord.extractLsb' 0 8⟩, state := .done }) ∧
    encode .encode = 0x00000002#32 ∧ encodeWord 0x12345678#32 = ⟨0x12#8, 0x34#8, 0x56#8, 0x78#8⟩

/-- R120: DECODE is accepted in every state that takes commands, and in flight it completes with
`RES_WORD = decode(ARG_BUF0..3)`; nothing else changes. -/
def Obligations.DecodeCompletes : Prop :=
  (∀ s, acceptsWrites s = true →
      exec .decode s = .next { s with lastop := 0x03, state := .busy, err := none, errinfo := 0 }) ∧
    (∀ s, s.state = .busy →
      exec .decode s =
        .next { s with resWord := s.argBuf.b0 ++ s.argBuf.b1 ++ s.argBuf.b2 ++ s.argBuf.b3, state := .done }) ∧
    encode .decode = 0x00000003#32 ∧ decodeBuffer ⟨0x61#8, 0x62#8, 0x63#8, 0x64#8⟩ = 0x61626364#32

/-- The reference primitive (log entry 13; R117 is the spec's own derivation): `Href` is a bijection, has the
closed form of R117, has the inverse given there, and is affine over GF(2). -/
def Obligations.ReferencePrimitiveIsBijective : Prop :=
  Function.Bijective Href ∧ (∀ x, Href x = hrefClosed x) ∧ (∀ o, Href (hrefInv o) = o) ∧ (∀ x, hrefInv (Href x) = x) ∧
    ∀ x y, Href (x ^^^ y) = Href x ^^^ Href y ^^^ Href 0

/-! ### The Preimage Table -/

/-- R133 and R135: while a worker has an enabled step, a step of BUILD is one step of one worker `w`, number
below `NWORKERS`. If `w` is idle it claims some pending block `b`, which leaves `PENDING`, and holds `(b, 0)`. If
`w` holds `(b, j)` and the tag of slot `H(b * 65536 + j)` is clear, the slot gets the input, its tag is set, and
`w` moves to `(b, j + 1)`, or to `none` after 65535; if the tag is set, `INVARIANT` kind 0 with that slot is
raised, fatally. Nothing else changes but the model's own counter of free choices (log entry 4). -/
def Obligations.BuildTakesOneWorkerStep : Prop :=
  ∀ s, s.state = .busy →
    (∃ w, w < Config.here.nworkers ∧ (s.pending ≠ [] ∨ workerPos s w ≠ none)) →
    ∃ w, w < Config.here.nworkers ∧
      ((workerPos s w = none ∧ ∃ k, ∃ h : k < s.pending.length,
          exec .build s = .next { s with pending := s.pending.eraseIdx k, cur := s.cur.write w (some ⟨s.pending[k], 0⟩),
                                         draws := s.draws + 2 }) ∨
        ∃ b j, workerPos s w = some ⟨b, j⟩ ∧ ∃ i o : Word, i.toNat = b.toNat * 65536 + j.toNat ∧
          o = Config.here.H i ∧
          ((readTag s o = false ∧
              exec .build s =
                .next { s with memT := s.memT.write o.toNat (some i), memTag := s.memTag.write o.toNat true,
                               cur := s.cur.write w (if j.toNat = 65535 then none else some ⟨b, j + 1⟩),
                               draws := s.draws + 2 }) ∨
            (readTag s o = true ∧
              exec .build s =
                .next { s with state := .fatal, err := some .invariant, errinfo := o.setWidth 64, tableValid := false,
                               indexValid := false, memTag := [], memOidx := [], norb := 0, pending := [], cur := [],
                               draws := s.draws + 2 })))

/-- R136: when every block has been claimed and every worker is idle, BUILD in flight completes:
`TABLE_VALID` is 1, `STATE` is `DONE`, and nothing else changes. -/
def Obligations.BuildJoinCompletes : Prop :=
  ∀ s, s.state = .busy → s.pending = [] → (∀ w, w < Config.here.nworkers → workerPos s w = none) →
    exec .build s = .next { s with tableValid := true, state := .done }

/-- R139: LOOKUP in flight completes with `RES_WORD = T[ARG_WORD]` for every index whose slot is written (0 and
0xFFFFFFFF are ordinary indices); nothing else changes. -/
def Obligations.LookupCompletes : Prop :=
  ∀ s x, s.state = .busy → s.memT.read s.argWord.toNat = some x →
    exec .lookup s = .next { s with resWord := x, state := .done }

/-- R61, R63, R131: for every configuration, every step keeps the table invariant: between the steps of a
build, under every schedule, the tagged slots are exactly those of the processed inputs, each holds a preimage
of its index and no two processed inputs share a slot; and once `TABLE_VALID` is 1, every slot is tagged and
`H(T[o]) = o` for every `o`. The premises rule out states that no run reaches; that every step keeps them is
`StepKeepsStatusConsistent` and `StepKeepsMemoriesCanonical`. -/
def Obligations.StepKeepsTableInvariant : Prop :=
  (∀ c s t, StatusConsistent c s → MemoriesCanonical s → TableInvariant c s → stepOn c s = .next t →
      TableInvariant c t) ∧
    ∀ s t, StatusConsistent Config.here s → MemoriesCanonical s → TableInvariant Config.here s → step s = .next t →
      TableInvariant Config.here t

/-- R131: for every configuration, a state with a valid table that satisfies the table invariant has a
bijective `H`, and `T[H(i)] = i` for every input `i`. -/
def Obligations.ValidTableInvertsH : Prop :=
  ∀ c s, TableInvariant c s → s.tableValid = true → c.BijectiveH ∧ ∀ i, readT c s (c.H i) = i

/-- R137: for every configuration with a bijective `H`, every number of workers and every schedule, an accepted
BUILD ends, after exactly 65536 claims, `2^32` slot updates and the join, in `DONE` with `TABLE_VALID`, every
slot tagged and `T[H(i)] = i` for every input; no register but the status changes. -/
def Obligations.BuildEndsWithInverseTable : Prop :=
  ∀ c s, c.BijectiveH → c.tableMem = true → s.tableValid = false → acceptsWrites s = true → s.host = [] →
    ∃ t, runOn c (65536 + 2 ^ 32 + 1) (execOn c .build s) = .next t ∧
      t = { s with state := .done, lastop := 0x10, err := none, errinfo := 0, tableValid := true, memT := t.memT,
                   memTag := t.memTag, pending := [], cur := t.cur, draws := t.draws } ∧
      (∀ o, readTag t o = true) ∧ (∀ i, t.memT.read (c.H i).toNat = some i) ∧ ∀ w, workerPos t w = none

/-- R137 and R214: for every configuration whose `H` is not a bijection, under every schedule, an accepted
BUILD ends in `FATAL` with `INVARIANT` kind 0, and the slot reported is the checksum of two distinct inputs. -/
def Obligations.BuildWithoutBijectionIsFatal : Prop :=
  ∀ c s, ¬ c.BijectiveH → c.tableMem = true → s.tableValid = false → acceptsWrites s = true → s.host = [] →
    ∃ t o, ReachesOn c (execOn c .build s) t ∧ t.state = .fatal ∧ t.err = some .invariant ∧
      t.errinfo = errorInfo (.invariant .slotCollision o) ∧ t.tableValid = false ∧
      ∃ i j, i ≠ j ∧ c.H i = o ∧ c.H j = o

/-! ### The iterated evaluators -/

/-- R151: FWD in flight. With an empty list the first recorded value is `H(ARG_WORD)`; a produced value that
differs from the first recorded one is recorded while fewer than `2^32` are; the value that repeats it completes
the command with `RES_LEN = L = NREC` and `RES_WORD = REC[n mod L]`, or the seed when `n mod L` is 0 (R152). Nothing
else changes. -/
def Obligations.ForwardWalk : Prop :=
  (∀ s, s.state = .busy → s.nrec = 0 →
      exec .fwd s =
        .next { s with nrec := 1, memRec := s.memRec.write 1 (some (Config.here.H s.argWord)) }) ∧
    (∀ s v a, s.state = .busy → 1 ≤ s.nrec → s.nrec < 2 ^ 32 → s.memRec.read s.nrec = some v →
      s.memRec.read 1 = some a → Config.here.H v ≠ a →
      exec .fwd s =
        .next { s with nrec := s.nrec + 1, memRec := s.memRec.write (s.nrec + 1) (some (Config.here.H v)) }) ∧
    (∀ s v, s.state = .busy → 1 ≤ s.nrec → s.memRec.read s.nrec = some v →
      s.memRec.read 1 = some (Config.here.H v) → s.argCount.toNat % s.nrec = 0 →
      exec .fwd s = .next { s with resWord := s.argWord, resLen := BitVec.ofNat 64 s.nrec, state := .done }) ∧
    ∀ s v x, s.state = .busy → 1 ≤ s.nrec → s.memRec.read s.nrec = some v →
      s.memRec.read 1 = some (Config.here.H v) → s.argCount.toNat % s.nrec ≠ 0 →
      s.memRec.read (s.argCount.toNat % s.nrec) = some x →
      exec .fwd s = .next { s with resWord := x, resLen := BitVec.ofNat 64 s.nrec, state := .done }

/-- R154: INV in flight is the same walk over the table: `T[o]` in place of `H`. Nothing else changes. -/
def Obligations.InverseWalk : Prop :=
  (∀ s v, s.state = .busy → s.nrec = 0 → s.memT.read s.argWord.toNat = some v →
      exec .inv s = .next { s with nrec := 1, memRec := s.memRec.write 1 (some v) }) ∧
    (∀ s v a x, s.state = .busy → 1 ≤ s.nrec → s.nrec < 2 ^ 32 → s.memRec.read s.nrec = some v →
      s.memRec.read 1 = some a → s.memT.read v.toNat = some x → x ≠ a →
      exec .inv s = .next { s with nrec := s.nrec + 1, memRec := s.memRec.write (s.nrec + 1) (some x) }) ∧
    (∀ s v a, s.state = .busy → 1 ≤ s.nrec → s.memRec.read s.nrec = some v → s.memRec.read 1 = some a →
      s.memT.read v.toNat = some a → s.argCount.toNat % s.nrec = 0 →
      exec .inv s = .next { s with resWord := s.argWord, resLen := BitVec.ofNat 64 s.nrec, state := .done }) ∧
    ∀ s v a x, s.state = .busy → 1 ≤ s.nrec → s.memRec.read s.nrec = some v → s.memRec.read 1 = some a →
      s.memT.read v.toNat = some a → s.argCount.toNat % s.nrec ≠ 0 →
      s.memRec.read (s.argCount.toNat % s.nrec) = some x →
      exec .inv s = .next { s with resWord := x, resLen := BitVec.ofNat 64 s.nrec, state := .done }

/-- R156: with `2^32` values recorded and a produced value that still differs from the first, FWD and INV end
in a fatal `INVARIANT` of kind 2 with the seed or target in `ERRINFO`, entered as R204 says. -/
def Obligations.StepLimitIsFatal : Prop :=
  ∀ s v a, s.state = .busy → s.nrec = 2 ^ 32 → s.memRec.read s.nrec = some v → s.memRec.read 1 = some a →
    (Config.here.H v ≠ a →
      exec .fwd s =
        .next { s with state := .fatal, err := some .invariant, errinfo := BitVec.ofNat 64 (2 * 2 ^ 32 + s.argWord.toNat), tableValid := false,
                       indexValid := false, memTag := [], memOidx := [], norb := 0, pending := [], cur := [] }) ∧
    ∀ x, s.memT.read v.toNat = some x → x ≠ a →
      exec .inv s =
        .next { s with state := .fatal, err := some .invariant, errinfo := BitVec.ofNat 64 (2 * 2 ^ 32 + s.argWord.toNat), tableValid := false,
                       indexValid := false, memTag := [], memOidx := [], norb := 0, pending := [], cur := [] }

/-- R150, R153, R161: for every configuration with a bijective `H`, an accepted FWD ends after `L + 1` engine
steps, each one evaluation of `H`, in `DONE` with `RES_WORD = H^n(s)` and `RES_LEN = L`, the least `L >= 1` with
`H^L(s) = s`; no other register changes. -/
def Obligations.ForwardContract : Prop :=
  ∀ c s, c.BijectiveH → acceptsWrites s = true → s.host = [] →
    ∃ t, runOn c (Function.minimalPeriod c.H s.argWord + 1) (execOn c .fwd s) = .next t ∧
      0 < Function.minimalPeriod c.H s.argWord ∧ Function.minimalPeriod c.H s.argWord ≤ 2 ^ 32 ∧
      t = { s with state := .done, lastop := 0x20, err := none, errinfo := 0,
                   resWord := c.H^[s.argCount.toNat] s.argWord,
                   resLen := BitVec.ofNat 64 (Function.minimalPeriod c.H s.argWord), nrec := t.nrec, memRec := t.memRec }

/-- R158 cases 1 and 2, R151: for every configuration, whatever `H` is, if `L` is the least number from 1 to
`2^32` with `H^(L+1)(s) = H(s)`, an accepted FWD ends after `L + 1` engine steps in `DONE` with `RES_LEN = L` and
`RES_WORD = H^(n mod L)(s)`, which is the seed when `n mod L` is 0, also where `H^n(s)` is another Word. -/
def Obligations.ForwardClosesAtFirstRepeat : Prop :=
  ∀ c s L, 1 ≤ L → L ≤ 2 ^ 32 → c.H^[L + 1] s.argWord = c.H s.argWord →
    (∀ k, 1 ≤ k → k < L → c.H^[k + 1] s.argWord ≠ c.H s.argWord) → acceptsWrites s = true → s.host = [] →
    ∃ t, runOn c (L + 1) (execOn c .fwd s) = .next t ∧
      t = { s with state := .done, lastop := 0x20, err := none, errinfo := 0,
                   resWord := c.H^[s.argCount.toNat % L] s.argWord, resLen := BitVec.ofNat 64 L, nrec := t.nrec,
                   memRec := t.memRec }

/-- R158 case 3: for every configuration, if the successor of the seed never recurs (then neither the seed nor
its successor lies on a cycle of `H`), an
accepted FWD ends in `FATAL` with `INVARIANT` kind 2 and the seed, after `2^32 + 1` evaluations of `H`; both
artifacts are discarded and no `RES_*` or `ARG_*` register changes. -/
def Obligations.ForwardOffCycleIsFatal : Prop :=
  ∀ c s, (∀ k, 1 ≤ k → c.H^[k + 1] s.argWord ≠ c.H s.argWord) →
    acceptsWrites s = true → s.host = [] →
    ∃ t, runOn c (2 ^ 32 + 1) (execOn c .fwd s) = .next t ∧
      t = { s with state := .fatal, lastop := 0x20, err := some .invariant,
                   errinfo := errorInfo (.invariant .stepLimit s.argWord), tableValid := false, indexValid := false,
                   memTag := [], memOidx := [], norb := 0, pending := [], cur := [], nrec := t.nrec, memRec := t.memRec }

/-- R154, R155: for every configuration, with a valid and correct table, an accepted INV ends after `L + 1`
engine steps in `DONE` with an `x` in `RES_WORD` for which `H^n(x) = o`, and with the orbit length that FWD reports
for the same Word in `RES_LEN`; no other register changes. -/
def Obligations.InverseContract : Prop :=
  ∀ c s, s.tableValid = true → TableCorrect c s → acceptsWrites s = true → s.host = [] →
    ∃ t, runOn c (Function.minimalPeriod c.H s.argWord + 1) (execOn c .inv s) = .next t ∧
      c.H^[s.argCount.toNat] t.resWord = s.argWord ∧
      t = { s with state := .done, lastop := 0x21, err := none, errinfo := 0, resWord := t.resWord,
                   resLen := BitVec.ofNat 64 (Function.minimalPeriod c.H s.argWord), nrec := t.nrec, memRec := t.memRec }

/-- R157: for every configuration with a valid and correct table, `fwd s, n` and then `inv RES_WORD, n` gives back
`s`, and `inv o, n` and then `fwd RES_WORD, n` gives back `o`. -/
def Obligations.ForwardAndInverseAgree : Prop :=
  ∀ c s, s.tableValid = true → TableCorrect c s → acceptsWrites s = true → s.host = [] →
    (∃ t u, ReachesOn c (execOn c .fwd s) t ∧ t.state = .done ∧
      ReachesOn c (execOn c .inv { t with argWord := t.resWord }) u ∧ u.state = .done ∧ u.resWord = s.argWord) ∧
    ∃ t u, ReachesOn c (execOn c .inv s) t ∧ t.state = .done ∧
      ReachesOn c (execOn c .fwd { t with argWord := t.resWord }) u ∧ u.state = .done ∧ u.resWord = s.argWord

/-! ### The Functional-Graph Decomposer -/

/-- R171, R173, R174: DECOMP in flight, one arm of the pseudocode at a time. A candidate that is indexed is
skipped; one that is not starts a walk with itself as first recorded value; a produced value other than the
start Word is recorded while fewer than `2^32` are, and is fatal (`INVARIANT` kind 2 with the start Word) after
that; the start Word ends the walk; an element not yet indexed gets its pair and its place in `OSEQ`, and one that
is indexed is fatal (kind 1 with the element); after the last one the orbit gets its directory entry; after the
last candidate the command completes with `INDEX_VALID = 1` and `RES_LEN = NORB`. Nothing else changes. -/
def Obligations.DecomposerSteps : Prop :=
  (∀ s, s.state = .busy → s.phase = .scan → s.start = 2 ^ 32 →
      exec .decomp s = .next { s with indexValid := true, resLen := BitVec.ofNat 64 s.norb, state := .done }) ∧
    (∀ s, s.state = .busy → s.phase = .scan → s.start < 2 ^ 32 → s.memOidx.read s.start ≠ none →
      exec .decomp s = .next { s with start := s.start + 1 }) ∧
    (∀ s, s.state = .busy → s.phase = .scan → s.start < 2 ^ 32 → s.memOidx.read s.start = none →
      exec .decomp s = .next { s with nrec := 1, memRec := s.memRec.write 1 (some (BitVec.ofNat 32 s.start)),
                                      phase := .walk }) ∧
    (∀ s v, s.state = .busy → s.phase = .walk → s.start < 2 ^ 32 → s.memRec.read s.nrec = some v →
      (Config.here.H v = BitVec.ofNat 32 s.start → exec .decomp s = .next { s with phase := .index 0 }) ∧
      (Config.here.H v ≠ BitVec.ofNat 32 s.start → s.nrec ≠ 2 ^ 32 →
        exec .decomp s =
          .next { s with nrec := s.nrec + 1, memRec := s.memRec.write (s.nrec + 1) (some (Config.here.H v)) }) ∧
      (Config.here.H v ≠ BitVec.ofNat 32 s.start → s.nrec = 2 ^ 32 →
        exec .decomp s =
          .next { s with state := .fatal, err := some .invariant, errinfo := BitVec.ofNat 64 (2 * 2 ^ 32 + s.start),
                         tableValid := false, indexValid := false, memTag := [], memOidx := [], norb := 0, pending := [],
                         cur := [] })) ∧
    (∀ s p w, s.state = .busy → s.phase = .index p → p < s.nrec → s.memRec.read (p + 1) = some w →
      (s.memOidx.read w.toNat = none →
        exec .decomp s = .next { s with memOidx := s.memOidx.write w.toNat (some ⟨s.norb, p⟩),
                                        memOseq := s.memOseq.write (s.nbase + p) (some w), phase := .index (p + 1) }) ∧
      (s.memOidx.read w.toNat ≠ none →
        exec .decomp s =
          .next { s with state := .fatal, err := some .invariant, errinfo := BitVec.ofNat 64 (2 ^ 32 + w.toNat), tableValid := false,
                         indexValid := false, memTag := [], memOidx := [], norb := 0, pending := [], cur := [] })) ∧
    ∀ s p, s.state = .busy → s.phase = .index p → s.nrec ≤ p →
      exec .decomp s = .next { s with memOdir := s.memOdir.write s.norb (some ⟨s.nbase, s.nrec⟩),
                                      nbase := s.nbase + s.nrec, norb := s.norb + 1, start := s.start + 1,
                                      phase := .scan }

/-- R170, R174: for every configuration with a bijective `H`, an accepted DECOMP ends in `DONE` with
`INDEX_VALID`, every Word indexed, a correct index, `RES_LEN = NORB`, and orbit lengths that sum to `2^32`. -/
def Obligations.DecomposerContract : Prop :=
  ∀ c s, c.BijectiveH → c.hasFgd = true → s.indexValid = false → acceptsWrites s = true → s.host = [] →
    ∃ t, ReachesOn c (execOn c .decomp s) t ∧ t.state = .done ∧ t.indexValid = true ∧
      (∀ w, isIndexed t w = true) ∧ IndexCorrect c t ∧ t.norb ≤ 2 ^ 32 ∧ t.resLen = BitVec.ofNat 64 t.norb ∧
      orbitLengthSum c t = 2 ^ 32

/-- R65, R66, R171, R174: for every configuration, whatever `H` is, every step keeps the index invariant:
between the steps of a decomposition the orbits indexed so far lie end to end, their elements follow `H` and
stand in the index at their places, no Word has another entry, and every candidate passed is indexed (where in
the pseudocode a step ends is the model's: log entries 8 and 14); and once `INDEX_VALID` is 1, every Word is
indexed and the index is correct. The premises rule out states that no run reaches; that every step keeps
them is `StepKeepsStatusConsistent` and `StepKeepsHiddenInRange`. -/
def Obligations.StepKeepsIndexInvariant : Prop :=
  (∀ c s t, StatusConsistent c s → WalkCountersInRange s → IndexInvariant c s → stepOn c s = .next t →
      IndexInvariant c t) ∧
    ∀ s t, StatusConsistent Config.here s → WalkCountersInRange s → IndexInvariant Config.here s → step s = .next t →
      IndexInvariant Config.here t

/-- R174: for every configuration whose `H` is not a bijection, an accepted DECOMP ends in `FATAL` with
`INVARIANT` of kind 2 at some start Word, and `INDEX_VALID` is 0. -/
def Obligations.DecomposerWithoutBijectionIsFatal : Prop :=
  ∀ c s, ¬ c.BijectiveH → c.hasFgd = true → s.indexValid = false → acceptsWrites s = true → s.host = [] →
    ∃ t i, ReachesOn c (execOn c .decomp s) t ∧ t.state = .fatal ∧ t.err = some .invariant ∧
      t.errinfo = errorInfo (.invariant .stepLimit i) ∧ t.indexValid = false

/-- R173, R206: for every configuration, every host script and every number of steps from reset, `INVARIANT` of
kind 1 is never reported: the branch is dead for every total `H`. -/
def Obligations.IndexCollisionNeverReported : Prop :=
  ∀ c script k t w, runOn c k { State.reset with host := script } = .next t →
    ¬ (t.err = some .invariant ∧ t.errinfo = errorInfo (.invariant .indexCollision w))

/-- R175: the place the engine computes is the place of the mathematical sum, and its intermediates are below
`2^33`. -/
def Obligations.OrbitPlaceIsOverflowFree : Prop :=
  ∀ pos n len, 0 < len → len ≤ 2 ^ 32 → pos < len →
    orbitPlace pos n len = (pos + n) % len ∧ orbitPlace pos n len < len ∧ pos + n % len < 2 ^ 33

/-- R176: ORBQ in flight completes for every Word with an index entry, a directory entry and a written element:
`RES_WORD` is the element at `(pos + n) mod len`, `RES_ORBIT`, `RES_POS` and `RES_LEN` are the operand's orbit, its
position and the orbit's length. Nothing else changes. -/
def Obligations.OrbitQueryCompletes : Prop :=
  ∀ s id pos base len x, s.state = .busy → s.memOidx.read s.argWord.toNat = some ⟨id, pos⟩ →
    s.memOdir.read id = some ⟨base, len⟩ → s.memOseq.read (base + (pos + s.argCount.toNat) % len) = some x →
    exec .orbq s = .next { s with resWord := x, resOrbit := BitVec.ofNat 32 id, resPos := BitVec.ofNat 32 pos,
                                  resLen := BitVec.ofNat 64 len, state := .done }

/-- R176, R170: for every configuration, with a correct index, ORBQ in flight completes with
`RES_WORD = H^n(ARG_WORD)`: what FWD returns under a bijection; and with a valid index that satisfies the index
invariant (which every step keeps: `StepKeepsIndexInvariant`) it completes so, with the least `L >= 1` for which
`H^L(ARG_WORD) = ARG_WORD` in `RES_LEN`: the length that FWD reports. -/
def Obligations.OrbitQueryContract : Prop :=
  (∀ c s, IndexCorrect c s → s.state = .busy →
      (execOn c .orbq s).state = .done ∧ (execOn c .orbq s).resWord = c.H^[s.argCount.toNat] s.argWord) ∧
    ∀ c s, IndexInvariant c s → s.indexValid = true → s.state = .busy →
      (execOn c .orbq s).state = .done ∧ (execOn c .orbq s).resWord = c.H^[s.argCount.toNat] s.argWord ∧
        0 < Function.minimalPeriod c.H s.argWord ∧
        (execOn c .orbq s).resLen = BitVec.ofNat 64 (Function.minimalPeriod c.H s.argWord)

/-- R177: ORBRD in flight. An id at or above `NORB` raises `BAD_INDEX` with `which` 0 and the id, whatever the
position is; else a position at or above the orbit's length raises it with `which` 1 and the id; else the
command completes with the element, the id, the position and the length. Nothing else changes. And, for every
configuration, with a valid index that satisfies the index invariant no stored length is above `2^32`, so every
position of `2^32` or more is refused so. -/
def Obligations.OrbitReadCompletes : Prop :=
  (∀ s, s.state = .busy → s.norb ≤ s.argWord.toNat →
      exec .orbrd s = .next { s with state := .error, err := some .badIndex, errinfo := BitVec.ofNat 64 s.argWord.toNat }) ∧
    (∀ s base len, s.state = .busy → s.argWord.toNat < s.norb → s.memOdir.read s.argWord.toNat = some ⟨base, len⟩ →
      len ≤ s.argCount.toNat →
      exec .orbrd s = .next { s with state := .error, err := some .badIndex, errinfo := BitVec.ofNat 64 (2 ^ 32 + s.argWord.toNat) }) ∧
    (∀ s base len x, s.state = .busy → s.argWord.toNat < s.norb → s.memOdir.read s.argWord.toNat = some ⟨base, len⟩ →
      s.argCount.toNat < len → s.memOseq.read (base + s.argCount.toNat) = some x →
      exec .orbrd s = .next { s with resWord := x, resOrbit := s.argWord, resPos := s.argCount.setWidth 32,
                                     resLen := BitVec.ofNat 64 len, state := .done }) ∧
    ∀ c s, IndexInvariant c s → s.indexValid = true → s.state = .busy → s.argWord.toNat < s.norb →
      (∃ base len, s.memOdir.read s.argWord.toNat = some ⟨base, len⟩ ∧ 1 ≤ len ∧ len ≤ 2 ^ 32) ∧
        (2 ^ 32 ≤ s.argCount.toNat →
          execOn c .orbrd s =
            { s with state := .error, err := some .badIndex, errinfo := BitVec.ofNat 64 (2 ^ 32 + s.argWord.toNat) })

/-! ### Brute force -/

/-- R191: BRUTE in flight at a candidate. A candidate whose checksum is the target completes the command with
its bytes, its Word and the number of candidates tested, itself among them; any other is counted and the search
goes on. With an empty alphabet, or after the last candidate, `LOOKUP_FAIL` reports the number tested. Nothing
else changes. -/
def Obligations.BruteForceSteps : Prop :=
  (∀ s k, s.state = .busy → 0 < s.alen.val → s.bruteAt = some k →
      Config.here.H (decodeBuffer (candidate s k)) = s.argWord →
      exec .brute s = .next { s with resBuf := candidate s k, resWord := decodeBuffer (candidate s k),
                                     resLen := BitVec.ofNat 64 (s.tested + 1), tested := s.tested + 1, state := .done }) ∧
    (∀ s k, s.state = .busy → 0 < s.alen.val → s.bruteAt = some k →
      Config.here.H (decodeBuffer (candidate s k)) ≠ s.argWord →
      exec .brute s = .next { s with tested := s.tested + 1, bruteAt := nextTuple s.alen.val k }) ∧
    ∀ s, s.state = .busy → (s.alen.val = 0 ∨ s.bruteAt = none) →
      exec .brute s = .next { s with state := .error, err := some .lookupFail, errinfo := BitVec.ofNat 64 s.tested }

/-- R190, R191, R193: for every configuration with the unit, whatever `H` is, an accepted BRUTE ends. If
candidate number `k` (from 0, in the order of R193) is the first whose checksum is the target, it ends in `DONE`
after `k + 1` evaluations with that candidate in `RES_BUF0..3` and `RES_WORD` and `RES_LEN = k + 1`; if none of the
`ALEN^4` candidates has the target's checksum it ends in `ERROR` with `LOOKUP_FAIL` and `ALEN^4` in `ERRINFO`. -/
def Obligations.BruteForceContract : Prop :=
  ∀ c s, c.hasBf = true → acceptsWrites s = true → s.host = [] →
    (∀ k, k < s.alen.val ^ 4 → c.H (decodeBuffer (candidateNumber s k)) = s.argWord →
      (∀ m, m < k → c.H (decodeBuffer (candidateNumber s m)) ≠ s.argWord) →
      ∃ t, runOn c (k + 1) (execOn c .brute s) = .next t ∧
        t = { s with state := .done, lastop := 0x40, err := none, errinfo := 0, resBuf := candidateNumber s k,
                     resWord := decodeBuffer (candidateNumber s k), resLen := BitVec.ofNat 64 (k + 1),
                     bruteAt := t.bruteAt, tested := t.tested }) ∧
    ((∀ k, k < s.alen.val ^ 4 → c.H (decodeBuffer (candidateNumber s k)) ≠ s.argWord) →
      ∃ t, runOn c (s.alen.val ^ 4 + 1) (execOn c .brute s) = .next t ∧
        t = { s with state := .error, lastop := 0x40, err := some .lookupFail,
                     errinfo := BitVec.ofNat 64 (s.alen.val ^ 4), bruteAt := t.bruteAt, tested := t.tested })

/-- R190, R193: the candidates that BRUTE enumerates are exactly the buffers all of whose bytes are alphabet
bytes, so an exhausted search means that no such buffer has the target's checksum (R192). -/
def Obligations.CandidatesAreTheSearchSpace : Prop :=
  ∀ s b, (∃ k, k < s.alen.val ^ 4 ∧ candidateNumber s k = b) ↔ OverAlphabet s b

/-! ### Invariants and termination -/

/-- The five invariants hold after reset: canonical memories, hidden counters in range, and, for every
configuration, consistent status registers, the table invariant and the index invariant. -/
def Obligations.InvariantsHoldAtReset : Prop :=
  MemoriesCanonical State.reset ∧ HiddenInRange State.reset ∧
    ∀ c, StatusConsistent c State.reset ∧ TableInvariant c State.reset ∧ IndexInvariant c State.reset

/-- Every step keeps every memory space in its canonical form, so that equal memories are equal data, and the
pending blocks strictly rising (the model's representation: log entries 6 and 7). -/
def Obligations.StepKeepsMemoriesCanonical : Prop :=
  (∀ c s t, MemoriesCanonical s → stepOn c s = .next t → MemoriesCanonical t) ∧
    ∀ s t, MemoriesCanonical s → step s = .next t → MemoriesCanonical t

/-- R29, R30, R32, R202: every step keeps the status registers consistent: `ERR` and `ERRINFO` report an error of
the right class exactly in `ERROR` and `FATAL`; in `IDLE` nothing has been accepted and the results are 0; in
`BUSY` the command in flight passed its checks; in `FATAL` both valid flags are 0; absent units are untouched. -/
def Obligations.StepKeepsStatusConsistent : Prop :=
  (∀ c s t, StatusConsistent c s → stepOn c s = .next t → StatusConsistent c t) ∧
    ∀ s t, StatusConsistent Config.here s → step s = .next t → StatusConsistent Config.here t

/-- R47, R121: every step keeps the four hidden counters from 0 to `2^32`: `NREC`; DECOMP's start Word, below
`2^32` while it is being worked on; `NORB`, never above the start Word; and BRUTE's tested count, which in flight
is the number of candidates before the one the search stands at, and `ALEN^4` once none is left (the position
"none left" is the model's: log entry 14). -/
def Obligations.StepKeepsHiddenInRange : Prop :=
  (∀ c s t, HiddenInRange s → stepOn c s = .next t → HiddenInRange t) ∧
    ∀ s t, HiddenInRange s → step s = .next t → HiddenInRange t

/-- With consistent status registers, no step of the machine faults or is refused. -/
def Obligations.ConsistentStateNeverStops : Prop :=
  ∀ s, StatusConsistent Config.here s → ∃ t, step s = .next t

/-- R247: for every configuration, every `H`, every operand and every schedule, a command in flight ends: with the
host silent the engine leaves `BUSY` for `DONE`, `ERROR` or `FATAL` after finitely many steps. -/
def Obligations.EveryCommandEnds : Prop :=
  ∀ c s, s.state = .busy → s.host = [] → StatusConsistent c s → WalkCountersInRange s →
    ∃ t, ReachesOn c s t ∧ (t.state = .done ∨ t.state = .error ∨ t.state = .fatal)
end

