-- ==== Sys2Proof/Laws/Bits.lean ====
section
/-! SUPPORT. The bit layouts as numbers: what the packed values are, said once in arithmetic. -/

namespace Sys2Proof.Machine

theorem blockInput_toNat (p : BlockPos) : (blockInput p).toNat = p.block.toNat * 65536 + p.low.toNat := by
  have := p.block.isLt
  have := p.low.isLt
  simp only [blockInput, BitVec.toNat_ofNat]
  omega

/-- The block of an input is its high half, its low index the low half. -/
theorem blockInput_high (p : BlockPos) : (blockInput p).extractLsb' 16 16 = p.block := by
  apply BitVec.eq_of_toNat_eq
  have := p.block.isLt
  have := p.low.isLt
  simp only [BitVec.extractLsb'_toNat, blockInput_toNat, Nat.shiftRight_eq_div_pow]
  omega

theorem blockInput_low (p : BlockPos) : (blockInput p).extractLsb' 0 16 = p.low := by
  apply BitVec.eq_of_toNat_eq
  have := p.block.isLt
  have := p.low.isLt
  simp only [BitVec.extractLsb'_toNat, blockInput_toNat, Nat.shiftRight_zero]
  omega

/-- An input is the one its block and its low index give. -/
theorem blockInput_of_halves (i : Word) : blockInput ⟨i.extractLsb' 16 16, i.extractLsb' 0 16⟩ = i := by
  apply BitVec.eq_of_toNat_eq
  have := i.isLt
  rw [blockInput_toNat]
  simp only [BitVec.extractLsb'_toNat, Nat.shiftRight_eq_div_pow]
  omega

theorem low32_toNat (v : Count) : (low32 v).toNat = v.toNat % 2 ^ 32 := by
  simp [low32, BitVec.extractLsb'_toNat]

theorem low8_toNat (v : Count) : (low8 v).toNat = v.toNat % 256 := by
  simp [low8, BitVec.extractLsb'_toNat]

theorem low9_toNat (v : Count) : (low9 v).toNat = v.toNat % 512 := by
  simp [low9, BitVec.extractLsb'_toNat]

/-- A field above a Word, as a number. -/
theorem field_over_word_toNat (k : Nat) (f : BitVec k) (w : Word) (hk : k ≤ 32) :
    (f.setWidth 64 <<< 32 ||| w.setWidth 64).toNat = f.toNat * 2 ^ 32 + w.toNat := by
  have hf := f.isLt
  have hw := w.isLt
  have hp : 2 ^ k ≤ 2 ^ 32 := Nat.pow_le_pow_right (by omega) hk
  have h1 : f.toNat % 2 ^ 64 = f.toNat := Nat.mod_eq_of_lt (by omega)
  have h2 : w.toNat % 2 ^ 64 = w.toNat := Nat.mod_eq_of_lt (by omega)
  rw [BitVec.toNat_or, BitVec.toNat_shiftLeft, BitVec.toNat_setWidth, BitVec.toNat_setWidth, h1, h2,
    Nat.shiftLeft_eq, Nat.mod_eq_of_lt (by omega), ← Nat.shiftLeft_eq, ← Nat.shiftLeft_add_eq_or_of_lt (by omega),
    Nat.shiftLeft_eq]

/-- The codec's number (R111). -/
theorem decodeBuffer_toNat (b : Buffer) :
    (decodeBuffer b).toNat = b.b0.toNat * 2 ^ 24 + b.b1.toNat * 2 ^ 16 + b.b2.toNat * 2 ^ 8 + b.b3.toNat := by
  have e : (decodeBuffer b).toNat =
      ((((b.b0.toNat <<< 8) ||| b.b1.toNat) <<< 8 ||| b.b2.toNat) <<< 8) ||| b.b3.toNat := by
    unfold decodeBuffer
    rw [BitVec.toNat_append, BitVec.toNat_append, BitVec.toNat_append]
  have := b.b1.isLt
  have := b.b2.isLt
  have := b.b3.isLt
  rw [e, ← Nat.shiftLeft_add_eq_or_of_lt (by omega), ← Nat.shiftLeft_add_eq_or_of_lt (by omega),
    ← Nat.shiftLeft_add_eq_or_of_lt (by omega)]
  simp only [Nat.shiftLeft_eq]
  omega

end Sys2Proof.Machine
end

