-- ==== Sys2Proof/Laws/Decode.lean ====
section
/-! SUPPORT. Small facts about the decoder and the encoder. -/

namespace Sys2Proof

/-- The opcodes of the eleven commands (R91). -/
@[simp] theorem opcodeOf_hash : opcodeOf .hash = 0x01#8 := by decide
@[simp] theorem opcodeOf_encode : opcodeOf .encode = 0x02#8 := by decide
@[simp] theorem opcodeOf_decode : opcodeOf .decode = 0x03#8 := by decide
@[simp] theorem opcodeOf_build : opcodeOf .build = 0x10#8 := by decide
@[simp] theorem opcodeOf_lookup : opcodeOf .lookup = 0x11#8 := by decide
@[simp] theorem opcodeOf_fwd : opcodeOf .fwd = 0x20#8 := by decide
@[simp] theorem opcodeOf_inv : opcodeOf .inv = 0x21#8 := by decide
@[simp] theorem opcodeOf_decomp : opcodeOf .decomp = 0x30#8 := by decide
@[simp] theorem opcodeOf_orbq : opcodeOf .orbq = 0x31#8 := by decide
@[simp] theorem opcodeOf_orbrd : opcodeOf .orbrd = 0x32#8 := by decide
@[simp] theorem opcodeOf_brute : opcodeOf .brute = 0x40#8 := by decide

/-- Two commands with one opcode are one command. -/
theorem opcodeOf_inj (i j : Instr) (h : opcodeOf i = opcodeOf j) : i = j := by
  cases i <;> cases j <;> first | rfl | exact absurd h (by decide)

/-- `LASTOP`, extended to a command word, is the word of the command it shows. -/
theorem extend_opcodeOf (i : Instr) : (opcodeOf i).setWidth 32 = encode i := by
  cases i <;> decide

/-- A command word is the extension of its opcode field when its `MBZ` field is zero. -/
theorem word_of_fields (w : Word) (h : mbzField w = 0#24) : w = (opcField w).setWidth 32 := by
  apply BitVec.eq_of_toNat_eq
  have h2 : (mbzField w).toNat = 0 := by rw [h]; rfl
  simp only [mbzField, opcField, BitVec.extractLsb'_toNat, BitVec.toNat_setWidth, Nat.shiftRight_eq_div_pow] at *
  have := w.isLt
  omega

/-- One row of the opcode map. -/
theorem opcode_row (o a : Byte) (i j : Instr) (e : Option Instr) (ha : a = opcodeOf j)
    (he : e = some i → o = opcodeOf i) (h : (if o = a then some j else e) = some i) : o = opcodeOf i := by
  split at h
  · next ho => cases h; rw [ho, ha]
  · exact he h

/-- What the opcode map reads is a command with that opcode. -/
theorem opcode_of_decodeOpcode (o : Byte) (i : Instr) (h : decodeOpcode o = some i) : o = opcodeOf i := by
  unfold decodeOpcode at h
  iterate 11
    revert h
    refine fun h => opcode_row _ _ _ _ _ ?_ ?_ h
    · decide
    clear h
    intro h
  cases h

/-- The unit test of the machine is the well-formedness check of the syntax. -/
theorem Machine.unitPresent_eq_wf (c : Config) (i : Instr) : Machine.unitPresent c i = i.wf c := by
  cases i <;> rfl

end Sys2Proof
end

