-- ==== Sys2Proof/Laws/Memory.lean ====
section
/-! SUPPORT. The laws of one memory space: a read after a write, and the canonical form. -/

namespace Sys2Proof.Machine

variable {β : Type} [Inhabited β]

@[simp] theorem Memory.read_nil (a : Nat) : Memory.read ([] : Memory β) a = Memory.unlisted := rfl

theorem Memory.read_cons (b : Nat) (u : β) (m : Memory β) (a : Nat) :
    Memory.read ((b, u) :: m) a = if b = a then u else Memory.read m a := rfl

@[simp] theorem Memory.wf_nil [DecidableEq β] : Memory.wf ([] : Memory β) = true := rfl

theorem Memory.wf_cons [DecidableEq β] (a : Nat) (v : β) (m : Memory β) :
    Memory.wf ((a, v) :: m) = true ↔
      v ≠ Memory.unlisted ∧ (∀ p ∈ m, a < p.1) ∧ Memory.wf m = true := by
  simp [Memory.wf, and_assoc]

/-- An index below every listed one reads as unlisted. -/
theorem Memory.read_below (m : Memory β) (a : Nat) (h : ∀ p ∈ m, a < p.1) :
    Memory.read m a = Memory.unlisted := by
  induction m with
  | nil => rfl
  | cons p m ih =>
    obtain ⟨b, u⟩ := p
    have hb : a < b := h (b, u) (by simp)
    rw [Memory.read_cons, if_neg (by omega), ih fun q hq => h q (by simp [hq])]

/-- A write leaves every other entry alone. -/
theorem Memory.read_write_other [DecidableEq β] (m : Memory β) (a b : Nat) (v : β) (h : b ≠ a) :
    Memory.read (Memory.write m a v) b = Memory.read m b := by
  induction m with
  | nil =>
    unfold Memory.write
    split
    · rfl
    · simp [Memory.read_cons, h.symm]
  | cons p m ih =>
    obtain ⟨x, u⟩ := p
    unfold Memory.write
    split_ifs with h1 h2 h3 h4
    · rfl
    · simp [Memory.read_cons, h.symm]
    · subst h3; simp [Memory.read_cons, h.symm]
    · subst h3; simp [Memory.read_cons, h.symm]
    · simp only [Memory.read_cons, ih]

/-- A read after a write of a value other than the unlisted one gives that value. -/
theorem Memory.read_write_same [DecidableEq β] (m : Memory β) (a : Nat) (v : β) (hv : v ≠ Memory.unlisted) :
    Memory.read (Memory.write m a v) a = v := by
  induction m with
  | nil => simp [Memory.write, hv, Memory.read_cons]
  | cons p m ih =>
    obtain ⟨x, u⟩ := p
    unfold Memory.write
    split_ifs with h1 h2
    · simp [Memory.read_cons]
    · simp [Memory.read_cons]
    · rw [Memory.read_cons, if_neg fun e => h2 e.symm, ih]

/-- In a canonical memory, a read after a write gives the value written, whatever it is. -/
theorem Memory.read_write_same_of_wf [DecidableEq β] (m : Memory β) (a : Nat) (v : β)
    (hm : Memory.wf m = true) : Memory.read (Memory.write m a v) a = v := by
  by_cases hv : v = Memory.unlisted
  · subst hv
    induction m with
    | nil => simp [Memory.write]
    | cons p m ih =>
      obtain ⟨x, u⟩ := p
      obtain ⟨_, hlt, hw⟩ := (Memory.wf_cons x u m).1 hm
      simp only [Memory.write, if_true]
      split_ifs with h1 h2
      · exact Memory.read_below _ _ fun p hp => by
          rcases List.mem_cons.1 hp with rfl | hp
          · exact h1
          · exact h1.trans (hlt p hp)
      · subst h2; exact Memory.read_below _ _ hlt
      · rw [Memory.read_cons, if_neg fun e => h2 e.symm, ih hw]
  · exact Memory.read_write_same m a v hv

/-- A write of a value other than the unlisted one, at any place. -/
theorem Memory.read_write [DecidableEq β] (m : Memory β) (a b : Nat) (v : β) (hv : v ≠ Memory.unlisted) :
    Memory.read (Memory.write m a v) b = if b = a then v else Memory.read m b := by
  split
  · next h => subst h; exact Memory.read_write_same m b v hv
  · next h => exact Memory.read_write_other m a b v h

theorem Memory.mem_write [DecidableEq β] (m : Memory β) (a : Nat) (v : β) (p : Nat × β)
    (hp : p ∈ Memory.write m a v) : p.1 = a ∨ p ∈ m := by
  induction m with
  | nil =>
    unfold Memory.write at hp
    split at hp
    · simp at hp
    · left; simp_all
  | cons q m ih =>
    obtain ⟨x, u⟩ := q
    unfold Memory.write at hp
    split_ifs at hp with h1 h2 h3 h4
    · exact .inr hp
    · rcases List.mem_cons.1 hp with rfl | hp
      · exact .inl rfl
      · exact .inr hp
    · exact .inr (by simp [hp])
    · rcases List.mem_cons.1 hp with rfl | hp
      · exact .inl rfl
      · exact .inr (by simp [hp])
    · rcases List.mem_cons.1 hp with rfl | hp
      · exact .inr (by simp)
      · exact (ih hp).imp_right fun h => by simp [h]

/-- Every write keeps the canonical form. -/
theorem Memory.wf_write [DecidableEq β] (m : Memory β) (a : Nat) (v : β) (hm : Memory.wf m = true) :
    Memory.wf (Memory.write m a v) = true := by
  induction m with
  | nil =>
    unfold Memory.write
    split
    · rfl
    · next h => simp [Memory.wf_cons, h]
  | cons p m ih =>
    obtain ⟨x, u⟩ := p
    obtain ⟨hu, hlt, hw⟩ := (Memory.wf_cons x u m).1 hm
    unfold Memory.write
    split_ifs with h1 h2 h3 h4
    · exact hm
    · refine (Memory.wf_cons ..).2 ⟨h2, fun p hp => ?_, hm⟩
      rcases List.mem_cons.1 hp with rfl | hp
      · exact h1
      · exact h1.trans (hlt p hp)
    · exact hw
    · subst h3; exact (Memory.wf_cons ..).2 ⟨h4, hlt, hw⟩
    · refine (Memory.wf_cons ..).2 ⟨hu, fun p hp => ?_, ih hw⟩
      rcases Memory.mem_write m a v p hp with h | h
      · omega
      · exact hlt p h

end Sys2Proof.Machine
end

