-- ==== Sys2Proof/Laws/State.lean ====
section
/-! SUPPORT. One lemma per field per named update of the state: what each update does to each field. -/

namespace Sys2Proof.Machine

/-! ### `complete` -/

@[simp] theorem complete_state (s : State) : (complete s).state = .done := rfl
@[simp] theorem complete_tableValid (s : State) : (complete s).tableValid = s.tableValid := rfl
@[simp] theorem complete_indexValid (s : State) : (complete s).indexValid = s.indexValid := rfl
@[simp] theorem complete_wdrop (s : State) : (complete s).wdrop = s.wdrop := rfl
@[simp] theorem complete_err (s : State) : (complete s).err = s.err := rfl
@[simp] theorem complete_lastop (s : State) : (complete s).lastop = s.lastop := rfl
@[simp] theorem complete_errinfo (s : State) : (complete s).errinfo = s.errinfo := rfl
@[simp] theorem complete_argWord (s : State) : (complete s).argWord = s.argWord := rfl
@[simp] theorem complete_argCount (s : State) : (complete s).argCount = s.argCount := rfl
@[simp] theorem complete_argBuf (s : State) : (complete s).argBuf = s.argBuf := rfl
@[simp] theorem complete_resWord (s : State) : (complete s).resWord = s.resWord := rfl
@[simp] theorem complete_resLen (s : State) : (complete s).resLen = s.resLen := rfl
@[simp] theorem complete_resOrbit (s : State) : (complete s).resOrbit = s.resOrbit := rfl
@[simp] theorem complete_resPos (s : State) : (complete s).resPos = s.resPos := rfl
@[simp] theorem complete_resBuf (s : State) : (complete s).resBuf = s.resBuf := rfl
@[simp] theorem complete_alen (s : State) : (complete s).alen = s.alen := rfl
@[simp] theorem complete_alpha (s : State) : (complete s).alpha = s.alpha := rfl
@[simp] theorem complete_memT (s : State) : (complete s).memT = s.memT := rfl
@[simp] theorem complete_memTag (s : State) : (complete s).memTag = s.memTag := rfl
@[simp] theorem complete_memRec (s : State) : (complete s).memRec = s.memRec := rfl
@[simp] theorem complete_memOseq (s : State) : (complete s).memOseq = s.memOseq := rfl
@[simp] theorem complete_memOdir (s : State) : (complete s).memOdir = s.memOdir := rfl
@[simp] theorem complete_memOidx (s : State) : (complete s).memOidx = s.memOidx := rfl
@[simp] theorem complete_pending (s : State) : (complete s).pending = s.pending := rfl
@[simp] theorem complete_cur (s : State) : (complete s).cur = s.cur := rfl
@[simp] theorem complete_nrec (s : State) : (complete s).nrec = s.nrec := rfl
@[simp] theorem complete_norb (s : State) : (complete s).norb = s.norb := rfl
@[simp] theorem complete_nbase (s : State) : (complete s).nbase = s.nbase := rfl
@[simp] theorem complete_start (s : State) : (complete s).start = s.start := rfl
@[simp] theorem complete_phase (s : State) : (complete s).phase = s.phase := rfl
@[simp] theorem complete_bruteAt (s : State) : (complete s).bruteAt = s.bruteAt := rfl
@[simp] theorem complete_tested (s : State) : (complete s).tested = s.tested := rfl
@[simp] theorem complete_host (s : State) : (complete s).host = s.host := rfl
@[simp] theorem complete_seen (s : State) : (complete s).seen = s.seen := rfl
@[simp] theorem complete_draws (s : State) : (complete s).draws = s.draws := rfl

/-! ### `enterError` -/

@[simp] theorem enterError_state (e : EngineError) (s : State) : (enterError e s).state = .error := rfl
@[simp] theorem enterError_tableValid (e : EngineError) (s : State) : (enterError e s).tableValid = s.tableValid := rfl
@[simp] theorem enterError_indexValid (e : EngineError) (s : State) : (enterError e s).indexValid = s.indexValid := rfl
@[simp] theorem enterError_wdrop (e : EngineError) (s : State) : (enterError e s).wdrop = s.wdrop := rfl
@[simp] theorem enterError_err (e : EngineError) (s : State) : (enterError e s).err = some (errorCode e) := rfl
@[simp] theorem enterError_lastop (e : EngineError) (s : State) : (enterError e s).lastop = s.lastop := rfl
@[simp] theorem enterError_errinfo (e : EngineError) (s : State) : (enterError e s).errinfo = errorInfo e := rfl
@[simp] theorem enterError_argWord (e : EngineError) (s : State) : (enterError e s).argWord = s.argWord := rfl
@[simp] theorem enterError_argCount (e : EngineError) (s : State) : (enterError e s).argCount = s.argCount := rfl
@[simp] theorem enterError_argBuf (e : EngineError) (s : State) : (enterError e s).argBuf = s.argBuf := rfl
@[simp] theorem enterError_resWord (e : EngineError) (s : State) : (enterError e s).resWord = s.resWord := rfl
@[simp] theorem enterError_resLen (e : EngineError) (s : State) : (enterError e s).resLen = s.resLen := rfl
@[simp] theorem enterError_resOrbit (e : EngineError) (s : State) : (enterError e s).resOrbit = s.resOrbit := rfl
@[simp] theorem enterError_resPos (e : EngineError) (s : State) : (enterError e s).resPos = s.resPos := rfl
@[simp] theorem enterError_resBuf (e : EngineError) (s : State) : (enterError e s).resBuf = s.resBuf := rfl
@[simp] theorem enterError_alen (e : EngineError) (s : State) : (enterError e s).alen = s.alen := rfl
@[simp] theorem enterError_alpha (e : EngineError) (s : State) : (enterError e s).alpha = s.alpha := rfl
@[simp] theorem enterError_memT (e : EngineError) (s : State) : (enterError e s).memT = s.memT := rfl
@[simp] theorem enterError_memTag (e : EngineError) (s : State) : (enterError e s).memTag = s.memTag := rfl
@[simp] theorem enterError_memRec (e : EngineError) (s : State) : (enterError e s).memRec = s.memRec := rfl
@[simp] theorem enterError_memOseq (e : EngineError) (s : State) : (enterError e s).memOseq = s.memOseq := rfl
@[simp] theorem enterError_memOdir (e : EngineError) (s : State) : (enterError e s).memOdir = s.memOdir := rfl
@[simp] theorem enterError_memOidx (e : EngineError) (s : State) : (enterError e s).memOidx = s.memOidx := rfl
@[simp] theorem enterError_pending (e : EngineError) (s : State) : (enterError e s).pending = s.pending := rfl
@[simp] theorem enterError_cur (e : EngineError) (s : State) : (enterError e s).cur = s.cur := rfl
@[simp] theorem enterError_nrec (e : EngineError) (s : State) : (enterError e s).nrec = s.nrec := rfl
@[simp] theorem enterError_norb (e : EngineError) (s : State) : (enterError e s).norb = s.norb := rfl
@[simp] theorem enterError_nbase (e : EngineError) (s : State) : (enterError e s).nbase = s.nbase := rfl
@[simp] theorem enterError_start (e : EngineError) (s : State) : (enterError e s).start = s.start := rfl
@[simp] theorem enterError_phase (e : EngineError) (s : State) : (enterError e s).phase = s.phase := rfl
@[simp] theorem enterError_bruteAt (e : EngineError) (s : State) : (enterError e s).bruteAt = s.bruteAt := rfl
@[simp] theorem enterError_tested (e : EngineError) (s : State) : (enterError e s).tested = s.tested := rfl
@[simp] theorem enterError_host (e : EngineError) (s : State) : (enterError e s).host = s.host := rfl
@[simp] theorem enterError_seen (e : EngineError) (s : State) : (enterError e s).seen = s.seen := rfl
@[simp] theorem enterError_draws (e : EngineError) (s : State) : (enterError e s).draws = s.draws := rfl

/-! ### `enterFatal` -/

@[simp] theorem enterFatal_state (e : EngineError) (s : State) : (enterFatal e s).state = .fatal := rfl
@[simp] theorem enterFatal_tableValid (e : EngineError) (s : State) : (enterFatal e s).tableValid = false := rfl
@[simp] theorem enterFatal_indexValid (e : EngineError) (s : State) : (enterFatal e s).indexValid = false := rfl
@[simp] theorem enterFatal_wdrop (e : EngineError) (s : State) : (enterFatal e s).wdrop = s.wdrop := rfl
@[simp] theorem enterFatal_err (e : EngineError) (s : State) : (enterFatal e s).err = some (errorCode e) := rfl
@[simp] theorem enterFatal_lastop (e : EngineError) (s : State) : (enterFatal e s).lastop = s.lastop := rfl
@[simp] theorem enterFatal_errinfo (e : EngineError) (s : State) : (enterFatal e s).errinfo = errorInfo e := rfl
@[simp] theorem enterFatal_argWord (e : EngineError) (s : State) : (enterFatal e s).argWord = s.argWord := rfl
@[simp] theorem enterFatal_argCount (e : EngineError) (s : State) : (enterFatal e s).argCount = s.argCount := rfl
@[simp] theorem enterFatal_argBuf (e : EngineError) (s : State) : (enterFatal e s).argBuf = s.argBuf := rfl
@[simp] theorem enterFatal_resWord (e : EngineError) (s : State) : (enterFatal e s).resWord = s.resWord := rfl
@[simp] theorem enterFatal_resLen (e : EngineError) (s : State) : (enterFatal e s).resLen = s.resLen := rfl
@[simp] theorem enterFatal_resOrbit (e : EngineError) (s : State) : (enterFatal e s).resOrbit = s.resOrbit := rfl
@[simp] theorem enterFatal_resPos (e : EngineError) (s : State) : (enterFatal e s).resPos = s.resPos := rfl
@[simp] theorem enterFatal_resBuf (e : EngineError) (s : State) : (enterFatal e s).resBuf = s.resBuf := rfl
@[simp] theorem enterFatal_alen (e : EngineError) (s : State) : (enterFatal e s).alen = s.alen := rfl
@[simp] theorem enterFatal_alpha (e : EngineError) (s : State) : (enterFatal e s).alpha = s.alpha := rfl
@[simp] theorem enterFatal_memT (e : EngineError) (s : State) : (enterFatal e s).memT = s.memT := rfl
@[simp] theorem enterFatal_memTag (e : EngineError) (s : State) : (enterFatal e s).memTag = [] := rfl
@[simp] theorem enterFatal_memRec (e : EngineError) (s : State) : (enterFatal e s).memRec = s.memRec := rfl
@[simp] theorem enterFatal_memOseq (e : EngineError) (s : State) : (enterFatal e s).memOseq = s.memOseq := rfl
@[simp] theorem enterFatal_memOdir (e : EngineError) (s : State) : (enterFatal e s).memOdir = s.memOdir := rfl
@[simp] theorem enterFatal_memOidx (e : EngineError) (s : State) : (enterFatal e s).memOidx = [] := rfl
@[simp] theorem enterFatal_pending (e : EngineError) (s : State) : (enterFatal e s).pending = [] := rfl
@[simp] theorem enterFatal_cur (e : EngineError) (s : State) : (enterFatal e s).cur = [] := rfl
@[simp] theorem enterFatal_nrec (e : EngineError) (s : State) : (enterFatal e s).nrec = s.nrec := rfl
@[simp] theorem enterFatal_norb (e : EngineError) (s : State) : (enterFatal e s).norb = 0 := rfl
@[simp] theorem enterFatal_nbase (e : EngineError) (s : State) : (enterFatal e s).nbase = s.nbase := rfl
@[simp] theorem enterFatal_start (e : EngineError) (s : State) : (enterFatal e s).start = s.start := rfl
@[simp] theorem enterFatal_phase (e : EngineError) (s : State) : (enterFatal e s).phase = s.phase := rfl
@[simp] theorem enterFatal_bruteAt (e : EngineError) (s : State) : (enterFatal e s).bruteAt = s.bruteAt := rfl
@[simp] theorem enterFatal_tested (e : EngineError) (s : State) : (enterFatal e s).tested = s.tested := rfl
@[simp] theorem enterFatal_host (e : EngineError) (s : State) : (enterFatal e s).host = s.host := rfl
@[simp] theorem enterFatal_seen (e : EngineError) (s : State) : (enterFatal e s).seen = s.seen := rfl
@[simp] theorem enterFatal_draws (e : EngineError) (s : State) : (enterFatal e s).draws = s.draws := rfl

/-! ### `dropWrite` -/

@[simp] theorem dropWrite_state (s : State) : (dropWrite s).state = s.state := rfl
@[simp] theorem dropWrite_tableValid (s : State) : (dropWrite s).tableValid = s.tableValid := rfl
@[simp] theorem dropWrite_indexValid (s : State) : (dropWrite s).indexValid = s.indexValid := rfl
@[simp] theorem dropWrite_wdrop (s : State) : (dropWrite s).wdrop = true := rfl
@[simp] theorem dropWrite_err (s : State) : (dropWrite s).err = s.err := rfl
@[simp] theorem dropWrite_lastop (s : State) : (dropWrite s).lastop = s.lastop := rfl
@[simp] theorem dropWrite_errinfo (s : State) : (dropWrite s).errinfo = s.errinfo := rfl
@[simp] theorem dropWrite_argWord (s : State) : (dropWrite s).argWord = s.argWord := rfl
@[simp] theorem dropWrite_argCount (s : State) : (dropWrite s).argCount = s.argCount := rfl
@[simp] theorem dropWrite_argBuf (s : State) : (dropWrite s).argBuf = s.argBuf := rfl
@[simp] theorem dropWrite_resWord (s : State) : (dropWrite s).resWord = s.resWord := rfl
@[simp] theorem dropWrite_resLen (s : State) : (dropWrite s).resLen = s.resLen := rfl
@[simp] theorem dropWrite_resOrbit (s : State) : (dropWrite s).resOrbit = s.resOrbit := rfl
@[simp] theorem dropWrite_resPos (s : State) : (dropWrite s).resPos = s.resPos := rfl
@[simp] theorem dropWrite_resBuf (s : State) : (dropWrite s).resBuf = s.resBuf := rfl
@[simp] theorem dropWrite_alen (s : State) : (dropWrite s).alen = s.alen := rfl
@[simp] theorem dropWrite_alpha (s : State) : (dropWrite s).alpha = s.alpha := rfl
@[simp] theorem dropWrite_memT (s : State) : (dropWrite s).memT = s.memT := rfl
@[simp] theorem dropWrite_memTag (s : State) : (dropWrite s).memTag = s.memTag := rfl
@[simp] theorem dropWrite_memRec (s : State) : (dropWrite s).memRec = s.memRec := rfl
@[simp] theorem dropWrite_memOseq (s : State) : (dropWrite s).memOseq = s.memOseq := rfl
@[simp] theorem dropWrite_memOdir (s : State) : (dropWrite s).memOdir = s.memOdir := rfl
@[simp] theorem dropWrite_memOidx (s : State) : (dropWrite s).memOidx = s.memOidx := rfl
@[simp] theorem dropWrite_pending (s : State) : (dropWrite s).pending = s.pending := rfl
@[simp] theorem dropWrite_cur (s : State) : (dropWrite s).cur = s.cur := rfl
@[simp] theorem dropWrite_nrec (s : State) : (dropWrite s).nrec = s.nrec := rfl
@[simp] theorem dropWrite_norb (s : State) : (dropWrite s).norb = s.norb := rfl
@[simp] theorem dropWrite_nbase (s : State) : (dropWrite s).nbase = s.nbase := rfl
@[simp] theorem dropWrite_start (s : State) : (dropWrite s).start = s.start := rfl
@[simp] theorem dropWrite_phase (s : State) : (dropWrite s).phase = s.phase := rfl
@[simp] theorem dropWrite_bruteAt (s : State) : (dropWrite s).bruteAt = s.bruteAt := rfl
@[simp] theorem dropWrite_tested (s : State) : (dropWrite s).tested = s.tested := rfl
@[simp] theorem dropWrite_host (s : State) : (dropWrite s).host = s.host := rfl
@[simp] theorem dropWrite_seen (s : State) : (dropWrite s).seen = s.seen := rfl
@[simp] theorem dropWrite_draws (s : State) : (dropWrite s).draws = s.draws := rfl

/-! ### `noteAccepted` -/

@[simp] theorem noteAccepted_state (opc : Byte) (s : State) : (noteAccepted opc s).state = s.state := rfl
@[simp] theorem noteAccepted_tableValid (opc : Byte) (s : State) : (noteAccepted opc s).tableValid = s.tableValid := rfl
@[simp] theorem noteAccepted_indexValid (opc : Byte) (s : State) : (noteAccepted opc s).indexValid = s.indexValid := rfl
@[simp] theorem noteAccepted_wdrop (opc : Byte) (s : State) : (noteAccepted opc s).wdrop = s.wdrop := rfl
@[simp] theorem noteAccepted_err (opc : Byte) (s : State) : (noteAccepted opc s).err = s.err := rfl
@[simp] theorem noteAccepted_lastop (opc : Byte) (s : State) : (noteAccepted opc s).lastop = opc := rfl
@[simp] theorem noteAccepted_errinfo (opc : Byte) (s : State) : (noteAccepted opc s).errinfo = s.errinfo := rfl
@[simp] theorem noteAccepted_argWord (opc : Byte) (s : State) : (noteAccepted opc s).argWord = s.argWord := rfl
@[simp] theorem noteAccepted_argCount (opc : Byte) (s : State) : (noteAccepted opc s).argCount = s.argCount := rfl
@[simp] theorem noteAccepted_argBuf (opc : Byte) (s : State) : (noteAccepted opc s).argBuf = s.argBuf := rfl
@[simp] theorem noteAccepted_resWord (opc : Byte) (s : State) : (noteAccepted opc s).resWord = s.resWord := rfl
@[simp] theorem noteAccepted_resLen (opc : Byte) (s : State) : (noteAccepted opc s).resLen = s.resLen := rfl
@[simp] theorem noteAccepted_resOrbit (opc : Byte) (s : State) : (noteAccepted opc s).resOrbit = s.resOrbit := rfl
@[simp] theorem noteAccepted_resPos (opc : Byte) (s : State) : (noteAccepted opc s).resPos = s.resPos := rfl
@[simp] theorem noteAccepted_resBuf (opc : Byte) (s : State) : (noteAccepted opc s).resBuf = s.resBuf := rfl
@[simp] theorem noteAccepted_alen (opc : Byte) (s : State) : (noteAccepted opc s).alen = s.alen := rfl
@[simp] theorem noteAccepted_alpha (opc : Byte) (s : State) : (noteAccepted opc s).alpha = s.alpha := rfl
@[simp] theorem noteAccepted_memT (opc : Byte) (s : State) : (noteAccepted opc s).memT = s.memT := rfl
@[simp] theorem noteAccepted_memTag (opc : Byte) (s : State) : (noteAccepted opc s).memTag = s.memTag := rfl
@[simp] theorem noteAccepted_memRec (opc : Byte) (s : State) : (noteAccepted opc s).memRec = s.memRec := rfl
@[simp] theorem noteAccepted_memOseq (opc : Byte) (s : State) : (noteAccepted opc s).memOseq = s.memOseq := rfl
@[simp] theorem noteAccepted_memOdir (opc : Byte) (s : State) : (noteAccepted opc s).memOdir = s.memOdir := rfl
@[simp] theorem noteAccepted_memOidx (opc : Byte) (s : State) : (noteAccepted opc s).memOidx = s.memOidx := rfl
@[simp] theorem noteAccepted_pending (opc : Byte) (s : State) : (noteAccepted opc s).pending = s.pending := rfl
@[simp] theorem noteAccepted_cur (opc : Byte) (s : State) : (noteAccepted opc s).cur = s.cur := rfl
@[simp] theorem noteAccepted_nrec (opc : Byte) (s : State) : (noteAccepted opc s).nrec = s.nrec := rfl
@[simp] theorem noteAccepted_norb (opc : Byte) (s : State) : (noteAccepted opc s).norb = s.norb := rfl
@[simp] theorem noteAccepted_nbase (opc : Byte) (s : State) : (noteAccepted opc s).nbase = s.nbase := rfl
@[simp] theorem noteAccepted_start (opc : Byte) (s : State) : (noteAccepted opc s).start = s.start := rfl
@[simp] theorem noteAccepted_phase (opc : Byte) (s : State) : (noteAccepted opc s).phase = s.phase := rfl
@[simp] theorem noteAccepted_bruteAt (opc : Byte) (s : State) : (noteAccepted opc s).bruteAt = s.bruteAt := rfl
@[simp] theorem noteAccepted_tested (opc : Byte) (s : State) : (noteAccepted opc s).tested = s.tested := rfl
@[simp] theorem noteAccepted_host (opc : Byte) (s : State) : (noteAccepted opc s).host = s.host := rfl
@[simp] theorem noteAccepted_seen (opc : Byte) (s : State) : (noteAccepted opc s).seen = s.seen := rfl
@[simp] theorem noteAccepted_draws (opc : Byte) (s : State) : (noteAccepted opc s).draws = s.draws := rfl

/-! ### `recordValue` -/

@[simp] theorem recordValue_state (v : Word) (s : State) : (recordValue v s).state = s.state := rfl
@[simp] theorem recordValue_tableValid (v : Word) (s : State) : (recordValue v s).tableValid = s.tableValid := rfl
@[simp] theorem recordValue_indexValid (v : Word) (s : State) : (recordValue v s).indexValid = s.indexValid := rfl
@[simp] theorem recordValue_wdrop (v : Word) (s : State) : (recordValue v s).wdrop = s.wdrop := rfl
@[simp] theorem recordValue_err (v : Word) (s : State) : (recordValue v s).err = s.err := rfl
@[simp] theorem recordValue_lastop (v : Word) (s : State) : (recordValue v s).lastop = s.lastop := rfl
@[simp] theorem recordValue_errinfo (v : Word) (s : State) : (recordValue v s).errinfo = s.errinfo := rfl
@[simp] theorem recordValue_argWord (v : Word) (s : State) : (recordValue v s).argWord = s.argWord := rfl
@[simp] theorem recordValue_argCount (v : Word) (s : State) : (recordValue v s).argCount = s.argCount := rfl
@[simp] theorem recordValue_argBuf (v : Word) (s : State) : (recordValue v s).argBuf = s.argBuf := rfl
@[simp] theorem recordValue_resWord (v : Word) (s : State) : (recordValue v s).resWord = s.resWord := rfl
@[simp] theorem recordValue_resLen (v : Word) (s : State) : (recordValue v s).resLen = s.resLen := rfl
@[simp] theorem recordValue_resOrbit (v : Word) (s : State) : (recordValue v s).resOrbit = s.resOrbit := rfl
@[simp] theorem recordValue_resPos (v : Word) (s : State) : (recordValue v s).resPos = s.resPos := rfl
@[simp] theorem recordValue_resBuf (v : Word) (s : State) : (recordValue v s).resBuf = s.resBuf := rfl
@[simp] theorem recordValue_alen (v : Word) (s : State) : (recordValue v s).alen = s.alen := rfl
@[simp] theorem recordValue_alpha (v : Word) (s : State) : (recordValue v s).alpha = s.alpha := rfl
@[simp] theorem recordValue_memT (v : Word) (s : State) : (recordValue v s).memT = s.memT := rfl
@[simp] theorem recordValue_memTag (v : Word) (s : State) : (recordValue v s).memTag = s.memTag := rfl
@[simp] theorem recordValue_memRec (v : Word) (s : State) : (recordValue v s).memRec = s.memRec.write (s.nrec + 1) (some v) := rfl
@[simp] theorem recordValue_memOseq (v : Word) (s : State) : (recordValue v s).memOseq = s.memOseq := rfl
@[simp] theorem recordValue_memOdir (v : Word) (s : State) : (recordValue v s).memOdir = s.memOdir := rfl
@[simp] theorem recordValue_memOidx (v : Word) (s : State) : (recordValue v s).memOidx = s.memOidx := rfl
@[simp] theorem recordValue_pending (v : Word) (s : State) : (recordValue v s).pending = s.pending := rfl
@[simp] theorem recordValue_cur (v : Word) (s : State) : (recordValue v s).cur = s.cur := rfl
@[simp] theorem recordValue_nrec (v : Word) (s : State) : (recordValue v s).nrec = s.nrec + 1 := rfl
@[simp] theorem recordValue_norb (v : Word) (s : State) : (recordValue v s).norb = s.norb := rfl
@[simp] theorem recordValue_nbase (v : Word) (s : State) : (recordValue v s).nbase = s.nbase := rfl
@[simp] theorem recordValue_start (v : Word) (s : State) : (recordValue v s).start = s.start := rfl
@[simp] theorem recordValue_phase (v : Word) (s : State) : (recordValue v s).phase = s.phase := rfl
@[simp] theorem recordValue_bruteAt (v : Word) (s : State) : (recordValue v s).bruteAt = s.bruteAt := rfl
@[simp] theorem recordValue_tested (v : Word) (s : State) : (recordValue v s).tested = s.tested := rfl
@[simp] theorem recordValue_host (v : Word) (s : State) : (recordValue v s).host = s.host := rfl
@[simp] theorem recordValue_seen (v : Word) (s : State) : (recordValue v s).seen = s.seen := rfl
@[simp] theorem recordValue_draws (v : Word) (s : State) : (recordValue v s).draws = s.draws := rfl

/-! ### `nextStart` -/

@[simp] theorem nextStart_state (s : State) : (nextStart s).state = s.state := rfl
@[simp] theorem nextStart_tableValid (s : State) : (nextStart s).tableValid = s.tableValid := rfl
@[simp] theorem nextStart_indexValid (s : State) : (nextStart s).indexValid = s.indexValid := rfl
@[simp] theorem nextStart_wdrop (s : State) : (nextStart s).wdrop = s.wdrop := rfl
@[simp] theorem nextStart_err (s : State) : (nextStart s).err = s.err := rfl
@[simp] theorem nextStart_lastop (s : State) : (nextStart s).lastop = s.lastop := rfl
@[simp] theorem nextStart_errinfo (s : State) : (nextStart s).errinfo = s.errinfo := rfl
@[simp] theorem nextStart_argWord (s : State) : (nextStart s).argWord = s.argWord := rfl
@[simp] theorem nextStart_argCount (s : State) : (nextStart s).argCount = s.argCount := rfl
@[simp] theorem nextStart_argBuf (s : State) : (nextStart s).argBuf = s.argBuf := rfl
@[simp] theorem nextStart_resWord (s : State) : (nextStart s).resWord = s.resWord := rfl
@[simp] theorem nextStart_resLen (s : State) : (nextStart s).resLen = s.resLen := rfl
@[simp] theorem nextStart_resOrbit (s : State) : (nextStart s).resOrbit = s.resOrbit := rfl
@[simp] theorem nextStart_resPos (s : State) : (nextStart s).resPos = s.resPos := rfl
@[simp] theorem nextStart_resBuf (s : State) : (nextStart s).resBuf = s.resBuf := rfl
@[simp] theorem nextStart_alen (s : State) : (nextStart s).alen = s.alen := rfl
@[simp] theorem nextStart_alpha (s : State) : (nextStart s).alpha = s.alpha := rfl
@[simp] theorem nextStart_memT (s : State) : (nextStart s).memT = s.memT := rfl
@[simp] theorem nextStart_memTag (s : State) : (nextStart s).memTag = s.memTag := rfl
@[simp] theorem nextStart_memRec (s : State) : (nextStart s).memRec = s.memRec := rfl
@[simp] theorem nextStart_memOseq (s : State) : (nextStart s).memOseq = s.memOseq := rfl
@[simp] theorem nextStart_memOdir (s : State) : (nextStart s).memOdir = s.memOdir := rfl
@[simp] theorem nextStart_memOidx (s : State) : (nextStart s).memOidx = s.memOidx := rfl
@[simp] theorem nextStart_pending (s : State) : (nextStart s).pending = s.pending := rfl
@[simp] theorem nextStart_cur (s : State) : (nextStart s).cur = s.cur := rfl
@[simp] theorem nextStart_nrec (s : State) : (nextStart s).nrec = s.nrec := rfl
@[simp] theorem nextStart_norb (s : State) : (nextStart s).norb = s.norb := rfl
@[simp] theorem nextStart_nbase (s : State) : (nextStart s).nbase = s.nbase := rfl
@[simp] theorem nextStart_start (s : State) : (nextStart s).start = s.start + 1 := rfl
@[simp] theorem nextStart_phase (s : State) : (nextStart s).phase = .scan := rfl
@[simp] theorem nextStart_bruteAt (s : State) : (nextStart s).bruteAt = s.bruteAt := rfl
@[simp] theorem nextStart_tested (s : State) : (nextStart s).tested = s.tested := rfl
@[simp] theorem nextStart_host (s : State) : (nextStart s).host = s.host := rfl
@[simp] theorem nextStart_seen (s : State) : (nextStart s).seen = s.seen := rfl
@[simp] theorem nextStart_draws (s : State) : (nextStart s).draws = s.draws := rfl

/-! ### `spendDraws` -/

@[simp] theorem spendDraws_state (s : State) : (spendDraws s).state = s.state := rfl
@[simp] theorem spendDraws_tableValid (s : State) : (spendDraws s).tableValid = s.tableValid := rfl
@[simp] theorem spendDraws_indexValid (s : State) : (spendDraws s).indexValid = s.indexValid := rfl
@[simp] theorem spendDraws_wdrop (s : State) : (spendDraws s).wdrop = s.wdrop := rfl
@[simp] theorem spendDraws_err (s : State) : (spendDraws s).err = s.err := rfl
@[simp] theorem spendDraws_lastop (s : State) : (spendDraws s).lastop = s.lastop := rfl
@[simp] theorem spendDraws_errinfo (s : State) : (spendDraws s).errinfo = s.errinfo := rfl
@[simp] theorem spendDraws_argWord (s : State) : (spendDraws s).argWord = s.argWord := rfl
@[simp] theorem spendDraws_argCount (s : State) : (spendDraws s).argCount = s.argCount := rfl
@[simp] theorem spendDraws_argBuf (s : State) : (spendDraws s).argBuf = s.argBuf := rfl
@[simp] theorem spendDraws_resWord (s : State) : (spendDraws s).resWord = s.resWord := rfl
@[simp] theorem spendDraws_resLen (s : State) : (spendDraws s).resLen = s.resLen := rfl
@[simp] theorem spendDraws_resOrbit (s : State) : (spendDraws s).resOrbit = s.resOrbit := rfl
@[simp] theorem spendDraws_resPos (s : State) : (spendDraws s).resPos = s.resPos := rfl
@[simp] theorem spendDraws_resBuf (s : State) : (spendDraws s).resBuf = s.resBuf := rfl
@[simp] theorem spendDraws_alen (s : State) : (spendDraws s).alen = s.alen := rfl
@[simp] theorem spendDraws_alpha (s : State) : (spendDraws s).alpha = s.alpha := rfl
@[simp] theorem spendDraws_memT (s : State) : (spendDraws s).memT = s.memT := rfl
@[simp] theorem spendDraws_memTag (s : State) : (spendDraws s).memTag = s.memTag := rfl
@[simp] theorem spendDraws_memRec (s : State) : (spendDraws s).memRec = s.memRec := rfl
@[simp] theorem spendDraws_memOseq (s : State) : (spendDraws s).memOseq = s.memOseq := rfl
@[simp] theorem spendDraws_memOdir (s : State) : (spendDraws s).memOdir = s.memOdir := rfl
@[simp] theorem spendDraws_memOidx (s : State) : (spendDraws s).memOidx = s.memOidx := rfl
@[simp] theorem spendDraws_pending (s : State) : (spendDraws s).pending = s.pending := rfl
@[simp] theorem spendDraws_cur (s : State) : (spendDraws s).cur = s.cur := rfl
@[simp] theorem spendDraws_nrec (s : State) : (spendDraws s).nrec = s.nrec := rfl
@[simp] theorem spendDraws_norb (s : State) : (spendDraws s).norb = s.norb := rfl
@[simp] theorem spendDraws_nbase (s : State) : (spendDraws s).nbase = s.nbase := rfl
@[simp] theorem spendDraws_start (s : State) : (spendDraws s).start = s.start := rfl
@[simp] theorem spendDraws_phase (s : State) : (spendDraws s).phase = s.phase := rfl
@[simp] theorem spendDraws_bruteAt (s : State) : (spendDraws s).bruteAt = s.bruteAt := rfl
@[simp] theorem spendDraws_tested (s : State) : (spendDraws s).tested = s.tested := rfl
@[simp] theorem spendDraws_host (s : State) : (spendDraws s).host = s.host := rfl
@[simp] theorem spendDraws_seen (s : State) : (spendDraws s).seen = s.seen := rfl
@[simp] theorem spendDraws_draws (s : State) : (spendDraws s).draws = s.draws + 2 := rfl

end Sys2Proof.Machine
end

