-- ==== Sys2Proof/Laws/Ops.lean ====
section
/-! SUPPORT. One lemma for each shared operation that says once everything it can do. -/

namespace Sys2Proof.Machine

/-- The states that take commands are the three that are neither `BUSY` nor `FATAL`. -/
theorem acceptsWrites_iff (s : State) : acceptsWrites s = true ↔ s.state ≠ .busy ∧ s.state ≠ .fatal := by
  unfold acceptsWrites
  cases s.state <;> simp

/-- `raise` is one of the two error entries, by the class of the error. -/
theorem raise_nonfatal (e : EngineError) (s : State) (h : isFatalCode (errorCode e) = false) :
    raise e s = enterError e s := by simp [raise, h]

theorem raise_fatal (e : EngineError) (s : State) (h : isFatalCode (errorCode e) = true) :
    raise e s = enterFatal e s := by simp [raise, h]

@[simp] theorem raise_illegalCmd (w : Word) (s : State) : raise (.illegalCmd w) s = enterError (.illegalCmd w) s := rfl
@[simp] theorem raise_noTable (s : State) : raise .noTable s = enterError .noTable s := rfl
@[simp] theorem raise_noIndex (s : State) : raise .noIndex s = enterError .noIndex s := rfl
@[simp] theorem raise_alreadyBuilt (s : State) : raise .alreadyBuilt s = enterError .alreadyBuilt s := rfl
@[simp] theorem raise_lookupFail (n : Nat) (s : State) : raise (.lookupFail n) s = enterError (.lookupFail n) s := rfl
@[simp] theorem raise_badIndex (p : Bool) (w : Word) (s : State) : raise (.badIndex p w) s = enterError (.badIndex p w) s := rfl
@[simp] theorem raise_resource (s : State) : raise .resource s = enterFatal .resource s := rfl
@[simp] theorem raise_invariant (k : InvariantKind) (w : Word) (s : State) :
    raise (.invariant k w) s = enterFatal (.invariant k w) s := rfl

/-- A command in flight takes a step of its pseudocode. -/
theorem runCommand_busy (c : Config) (i : Instr) (body : State → State) (s : State) (h : s.state = .busy) :
    runCommand c i body s = body s := by simp [runCommand, h]

/-- Where the engine takes commands, a command is issued. -/
theorem runCommand_accepting (c : Config) (i : Instr) (body : State → State) (s : State)
    (h : acceptsWrites s = true) : runCommand c i body s = issue c i s := by
  unfold acceptsWrites at h
  unfold runCommand
  split <;> simp_all

/-- After a fatal error a command is dropped. -/
theorem runCommand_fatal (c : Config) (i : Instr) (body : State → State) (s : State) (h : s.state = .fatal) :
    runCommand c i body s = dropWrite s := by simp [runCommand, h]

/-- What issuing a command can do: start it, or end it with the error of its decode or issue check. -/
theorem issue_cases (c : Config) (i : Instr) (s : State) :
    (unitPresent c i = true ∧ issueCheck c i s = none ∧ issue c i s = startCommand i (noteAccepted (opcodeOf i) s)) ∨
      (unitPresent c i = true ∧ ∃ e, issueCheck c i s = some e ∧ issue c i s = raise e (noteAccepted (opcodeOf i) s)) ∨
      (unitPresent c i = false ∧
        issue c i s = enterError (.illegalCmd (encode i)) (noteAccepted (opcodeOf i) s)) := by
  unfold issue
  cases hu : unitPresent c i
  · simp
  · cases hi : issueCheck c i s <;> simp

/-- What one step of a walk can do (R151, R154, R156). -/
theorem walkStep_cases (c : Config) (next : Word → Word) (s : State) :
    (s.nrec = 0 ∧ walkStep c next s = recordValue (next (wordOperand s)) s) ∨
      (s.nrec ≠ 0 ∧ next (readRec c s s.nrec) = readRec c s 1 ∧ walkStep c next s = closeWalk c s) ∨
      (s.nrec = domainSize ∧ next (readRec c s s.nrec) ≠ readRec c s 1 ∧
        walkStep c next s = enterFatal (.invariant .stepLimit (wordOperand s)) s) ∨
      (s.nrec ≠ 0 ∧ s.nrec ≠ domainSize ∧ next (readRec c s s.nrec) ≠ readRec c s 1 ∧
        walkStep c next s = recordValue (next (readRec c s s.nrec)) s) := by
  unfold walkStep
  split_ifs with h1 h2 h3
  · exact .inl ⟨h1, rfl⟩
  · exact .inr (.inl ⟨h1, h2, rfl⟩)
  · exact .inr (.inr (.inl ⟨h3, h2, rfl⟩))
  · exact .inr (.inr (.inr ⟨h1, h3, h2, rfl⟩))

/-- The worker that moves is an enabled one, below `NWORKERS`. -/
theorem movingWorker_mem (c : Config) (s : State) (h : enabledWorkers c s ≠ []) :
    movingWorker c s ∈ enabledWorkers c s := by
  have hl : 0 < (enabledWorkers c s).length := List.length_pos_iff.2 h
  have hm := Nat.mod_lt (c.choice s.draws) hl
  unfold movingWorker
  rw [List.getD_eq_getElem _ _ hm]
  exact List.getElem_mem hm

theorem mem_enabledWorkers (c : Config) (s : State) (w : Nat) :
    w ∈ enabledWorkers c s ↔ w < c.nworkers ∧ (s.pending ≠ [] ∨ workerPos s w ≠ none) := by
  simp only [enabledWorkers, List.mem_filter, List.mem_range, workerEnabled]
  cases h : workerPos s w <;> cases hp : s.pending <;> simp

/-- What one step of a build can do (R133, R135, R136). -/
theorem buildBody_cases (c : Config) (s : State) :
    (enabledWorkers c s = [] ∧ buildBody c s = joinStep s) ∨
      ∃ w, w < c.nworkers ∧
        ((workerPos s w = none ∧ s.pending ≠ [] ∧ buildBody c s = spendDraws (claimStep c w s)) ∨
          ∃ p, workerPos s w = some p ∧ buildBody c s = spendDraws (slotUpdate c w p s)) := by
  unfold buildBody
  split
  · next h => exact .inl ⟨h, rfl⟩
  · next a l h =>
    have hm := movingWorker_mem c s (by simp [h])
    obtain ⟨hw, he⟩ := (mem_enabledWorkers c s _).1 hm
    refine .inr ⟨movingWorker c s, hw, ?_⟩
    unfold workerStep
    cases hp : workerPos s (movingWorker c s) with
    | none => exact .inl ⟨rfl, by simpa [hp] using he, rfl⟩
    | some p => exact .inr ⟨p, rfl, rfl⟩

/-- What one step of a decomposition can do (R171). -/
theorem decompBody_cases (c : Config) (s : State) :
    (s.phase = .scan ∧ s.start = domainSize ∧ decompBody c s = finishDecomp s) ∨
      (s.phase = .scan ∧ s.start ≠ domainSize ∧ isIndexed s (startWord s) = true ∧ decompBody c s = nextStart s) ∨
      (s.phase = .scan ∧ s.start ≠ domainSize ∧ isIndexed s (startWord s) = false ∧
        decompBody c s = { s with nrec := 1, memRec := s.memRec.write 1 (some (startWord s)), phase := .walk }) ∨
      (s.phase = .walk ∧ c.H (readRec c s s.nrec) = startWord s ∧ decompBody c s = { s with phase := .index 0 }) ∨
      (s.phase = .walk ∧ c.H (readRec c s s.nrec) ≠ startWord s ∧ s.nrec = domainSize ∧
        decompBody c s = enterFatal (.invariant .stepLimit (startWord s)) s) ∨
      (s.phase = .walk ∧ c.H (readRec c s s.nrec) ≠ startWord s ∧ s.nrec ≠ domainSize ∧
        decompBody c s = recordValue (c.H (readRec c s s.nrec)) s) ∨
      (∃ p, s.phase = .index p ∧ p < s.nrec ∧ isIndexed s (readRec c s (p + 1)) = true ∧
        decompBody c s = enterFatal (.invariant .indexCollision (readRec c s (p + 1))) s) ∨
      (∃ p, s.phase = .index p ∧ p < s.nrec ∧ isIndexed s (readRec c s (p + 1)) = false ∧
        decompBody c s =
          { s with
            memOidx := s.memOidx.write (readRec c s (p + 1)).toNat (some ⟨s.norb, p⟩)
            memOseq := s.memOseq.write (s.nbase + p) (some (readRec c s (p + 1)))
            phase := .index (p + 1) }) ∨
      ∃ p, s.phase = .index p ∧ s.nrec ≤ p ∧ decompBody c s = closeOrbit s := by
  unfold decompBody
  cases hp : s.phase with
  | scan =>
    simp only [scanStep]
    split_ifs with h1 h2 <;> simp_all
  | walk =>
    simp only [orbitWalkStep]
    split_ifs with h1 h2 <;> simp_all
  | index p =>
    simp only [indexStep, indexElement]
    split_ifs with h1 h2 <;> simp_all

/-- What one step of a brute-force search can do (R191). -/
theorem bruteBody_cases (c : Config) (s : State) :
    ((s.bruteAt = none ∨ alphabetSize s = 0) ∧ bruteBody c s = enterError (.lookupFail s.tested) s) ∨
      (∃ k, s.bruteAt = some k ∧ alphabetSize s ≠ 0 ∧ c.H (decodeBuffer (candidate s k)) = wordOperand s ∧
        bruteBody c s = acceptCandidate (candidate s k) s) ∨
      ∃ k, s.bruteAt = some k ∧ alphabetSize s ≠ 0 ∧ c.H (decodeBuffer (candidate s k)) ≠ wordOperand s ∧
        bruteBody c s = { s with tested := s.tested + 1, bruteAt := nextTuple (alphabetSize s) k } := by
  unfold bruteBody
  cases hb : s.bruteAt with
  | none => simp
  | some k =>
    simp only [testCandidate]
    split_ifs with h1 h2 <;> simp_all

end Sys2Proof.Machine
end

