-- ==== Sys2Proof/Laws/HostPort.lean ====
section
/-! SUPPORT. The index map of rule R27 in both directions, and what a host read and a host write do. -/

namespace Sys2Proof.Machine

/-- The indices of the alphabet registers lie above every other row of the map. -/
theorem mappedReg_alphabet (idx : Nat) (lo : 0x100 ≤ idx) (hi : idx < 0x200) :
    mappedReg idx = some (.alpha ⟨idx - 0x100, by omega⟩) := by
  unfold mappedReg
  iterate 11 rw [if_neg (by omega)]
  rw [dif_neg (by omega), dif_neg (by omega), dif_pos ⟨lo, hi⟩]

/-- Every register stands at its index. -/
theorem mappedReg_regIndex (r : Reg) : mappedReg (regIndex r) = some r := by
  cases r with
  | argBuf j => fin_cases j <;> rfl
  | resBuf j => fin_cases j <;> rfl
  | alpha j => simp [regIndex, mappedReg_alphabet (0x100 + j.val) (Nat.le_add_right ..) (by omega)]
  | _ => rfl

/-- One row of the index map. -/
theorem mappedReg_row (P : Prop) [Decidable P] (a : Reg) (e : Option Reg) (r : Reg)
    (h : (if P then some a else e) = some r) : (P ∧ a = r) ∨ e = some r := by
  split at h
  · next hp => cases h; exact .inl ⟨hp, rfl⟩
  · exact .inr h

/-- A register at an index is the register of that index. -/
theorem regIndex_of_mappedReg (idx : Nat) (r : Reg) (h : mappedReg idx = some r) : regIndex r = idx := by
  unfold mappedReg at h
  iterate 11
    rcases mappedReg_row _ _ _ _ h with ⟨rfl, rfl⟩ | h
    · rfl
  iterate 3
    split at h
    · cases h
      simp only [regIndex]
      omega
  cases h

/-- The unassigned indices (R27). -/
theorem mappedReg_eq_none (idx : Nat)
    (h : idx = 6 ∨ idx = 7 ∨ (0x00C ≤ idx ∧ idx < 0x010) ∨ (0x014 ≤ idx ∧ idx < 0x018) ∨
      (0x01C ≤ idx ∧ idx < 0x020) ∨ (0x021 ≤ idx ∧ idx < 0x100) ∨ 0x200 ≤ idx) : mappedReg idx = none := by
  cases hm : mappedReg idx with
  | none => rfl
  | some r =>
    have hi := regIndex_of_mappedReg idx r hm
    cases r <;> simp only [regIndex] at hi <;> omega

/-- The register at an index, when it is present. -/
theorem regAt_regIndex (c : Config) (r : Reg) : regAt c (regIndex r) = if regPresent c r then some r else none := by
  unfold regAt
  rw [mappedReg_regIndex]

/-- A present register at an index. -/
theorem regAt_eq_some (c : Config) (idx : Nat) (r : Reg) (h : regAt c idx = some r) :
    idx = regIndex r ∧ regPresent c r = true := by
  unfold regAt at h
  split at h
  · cases h
  · next q hm =>
    split at h
    · next hp =>
      cases h
      exact ⟨(regIndex_of_mappedReg idx _ hm).symm, hp⟩
    · cases h

/-- What a store to a register can change: one operand register, one alphabet register, or `WDROP`. -/
theorem storeReg_shape (r : Reg) (v : Count) (s : State) :
    ∃ word count buf len alpha drop,
      storeReg r v s =
        { s with argWord := word, argCount := count, argBuf := buf, alen := len, alpha := alpha, wdrop := drop } := by
  cases r <;> first | exact ⟨_, _, _, s.alen, s.alpha, _, rfl⟩ | skip
  · simp only [storeReg, writeAlen]
    split
    · exact ⟨_, _, _, _, _, _, rfl⟩
    · exact ⟨_, _, _, s.alen, _, _, rfl⟩
  · exact ⟨_, _, _, _, _, _, rfl⟩

/-- What a host read of a register returns (R36). -/
theorem hostRead_regIndex (c : Config) (s : State) (r : Reg) :
    hostRead c s (regIndex r) = if regPresent c r then regValue c s r else 0 := by
  unfold hostRead
  rw [regAt_regIndex]
  cases regPresent c r <;> rfl

/-- A host read of an unassigned index returns 0 (R36). -/
theorem hostRead_unassigned (c : Config) (s : State) (idx : Nat) (h : mappedReg idx = none) :
    hostRead c s idx = 0 := by
  unfold hostRead regAt
  rw [h]

/-- A host read depends on the host-visible registers only. -/
theorem hostRead_congr (c : Config) (s t : State) (hs : statusWord t = statusWord s) (he : t.errinfo = s.errinfo)
    (ha : t.argWord = s.argWord ∧ t.argCount = s.argCount ∧ t.argBuf = s.argBuf)
    (hr : t.resWord = s.resWord ∧ t.resLen = s.resLen ∧ t.resOrbit = s.resOrbit ∧ t.resPos = s.resPos ∧
      t.resBuf = s.resBuf) (hl : t.alen = s.alen) (hp : t.alpha = s.alpha) (idx : Nat) :
    hostRead c t idx = hostRead c s idx := by
  obtain ⟨h1, h2, h3⟩ := ha
  obtain ⟨h4, h5, h6, h7, h8⟩ := hr
  unfold hostRead
  split
  · rfl
  · next r _ => cases r <;> simp only [regValue, alphabetByte, hs, he, h1, h2, h3, h4, h5, h6, h7, h8, hl, hp]

/-- A write in a state that takes none is dropped (R38 cases 1 and 2). -/
theorem hostWrite_not_accepting (run : Instr → State → Host.Outcome State Fault Refusal) (c : Config) (idx : Nat)
    (v : Count) (s : State) (h : acceptsWrites s = false) : hostWrite run c idx v s = .next (dropWrite s) := by
  simp only [hostWrite, h]
  rfl

/-- A write to an index with no register is dropped (R38 case 4). -/
theorem hostWrite_unassigned (run : Instr → State → Host.Outcome State Fault Refusal) (c : Config) (idx : Nat)
    (v : Count) (s : State) (h : regAt c idx = none) : hostWrite run c idx v s = .next (dropWrite s) := by
  unfold hostWrite
  split
  · rw [h]
  · rfl

/-- A write to a present register other than `CMD`, in a state that takes writes. -/
theorem hostWrite_register (run : Instr → State → Host.Outcome State Fault Refusal) (c : Config) (r : Reg)
    (v : Count) (s : State) (acc : acceptsWrites s = true) (hp : regPresent c r = true) (hr : r ≠ .cmd) :
    hostWrite run c (regIndex r) v s = .next (storeReg r v s) := by
  unfold hostWrite
  rw [if_pos acc, regAt_regIndex, if_pos hp]
  cases r <;> first | rfl | exact absurd rfl hr

/-- A write to `CMD` in a state that takes commands (R39). -/
theorem hostWrite_cmd (run : Instr → State → Host.Outcome State Fault Refusal) (c : Config) (v : Count) (s : State)
    (acc : acceptsWrites s = true) : hostWrite run c 0 v s = writeCmd run v s := by
  unfold hostWrite
  rw [if_pos acc]
  rfl

end Sys2Proof.Machine
end

