-- ==== Sys2Proof/Laws/Orbit.lean ====
section
/-! SUPPORT. Orbits that lie end to end (rule R65), and iteration along one (rule R172). -/

namespace Sys2Proof.Machine

theorem orbitLengthsBelow_succ (c : Config) (s : State) (k : Nat) :
    orbitLengthsBelow c s (k + 1) = orbitLengthsBelow c s k + (readOdir c s k).len := by
  simp [orbitLengthsBelow, List.range_succ]

theorem orbitLengthsBelow_mono (c : Config) (s : State) (j k : Nat) (h : j ≤ k) :
    orbitLengthsBelow c s j ≤ orbitLengthsBelow c s k := by
  induction h with
  | refl => exact Nat.le_refl _
  | step _ ih =>
    rw [orbitLengthsBelow_succ]
    omega

/-- Orbits laid end to end stay below the entries used. -/
theorem OrbitsSound.end_le {c : Config} {s : State} (h : OrbitsSound c s) (id : Nat) (hid : id < s.norb) :
    (readOdir c s id).base + (readOdir c s id).len ≤ orbitLengthSum c s := by
  rw [h.base id hid, ← orbitLengthsBelow_succ]
  exact orbitLengthsBelow_mono c s _ _ hid

/-- `H` applied `n` times moves `n` places along a stored orbit. -/
theorem OrbitsSound.iterate {c : Config} {s : State} (h : OrbitsSound c s) (id p n : Nat) (hid : id < s.norb)
    (hp : p < (readOdir c s id).len) :
    c.H^[n] (orbitElement c s id p) = orbitElement c s id ((p + n) % (readOdir c s id).len) := by
  induction n with
  | zero =>
    rw [Nat.add_zero, Nat.mod_eq_of_lt hp]
    rfl
  | succ n ih =>
    rw [Function.iterate_succ_apply', ih, ← h.successor id _ hid (Nat.mod_lt _ (Nat.zero_lt_of_lt hp)),
      Nat.mod_add_mod, Nat.add_assoc]

end Sys2Proof.Machine
end

