-- ==== Sys2Proof/Laws/PerInstr.lean ====
section
/-! SUPPORT. Statements about every command as syntax, one lemma per constructor. -/

namespace Sys2Proof.Laws.RoundTrip

/-- The decoder reads a command's own word as that command (R91). -/
def Statement (i : Instr) : Prop := Sys2Proof.decode (Sys2Proof.encode i) = .command i

theorem hash : Statement .hash := rfl
theorem encode : Statement .encode := rfl
theorem decode : Statement .decode := rfl
theorem build : Statement .build := rfl
theorem lookup : Statement .lookup := rfl
theorem fwd : Statement .fwd := rfl
theorem inv : Statement .inv := rfl
theorem decomp : Statement .decomp := rfl
theorem orbq : Statement .orbq := rfl
theorem orbrd : Statement .orbrd := rfl
theorem brute : Statement .brute := rfl

/-- The lemmas of this family together. -/
theorem all (i : Instr) : Statement i := by
  cases i
  · exact hash
  · exact encode
  · exact decode
  · exact build
  · exact lookup
  · exact fwd
  · exact inv
  · exact decomp
  · exact orbq
  · exact orbrd
  · exact brute

end Sys2Proof.Laws.RoundTrip
end

