-- ==== Sys2Proof/Laws/Search.lean ====
section
/-! SUPPORT. The loops of BRUTE (rule R193): what the next index tuple is, and what number it has. -/

namespace Sys2Proof.Machine

/-- The next value of a loop index. -/
theorem bumpIndex_cases (size : Nat) (i : Fin 256) (h : size ≤ 256) (hi : i.val < size) :
    (∃ j : Fin 256, bumpIndex size i = some j ∧ j.val = i.val + 1 ∧ j.val < size) ∨
      (bumpIndex size i = none ∧ i.val + 1 = size) := by
  unfold bumpIndex
  split_ifs with h1 h2
  · exact .inl ⟨_, rfl, rfl, h2⟩
  · exact .inr ⟨rfl, by omega⟩
  · exact .inr ⟨rfl, by omega⟩

/-- The next tuple is the next in number; after the last one all are counted. -/
theorem nextTuple_cases (size : Nat) (k : BruteIdx) (h : size ≤ 256) (hk : InAlphabet size k) :
    (∃ k', nextTuple size k = some k' ∧ tupleRank size k' = tupleRank size k + 1 ∧ InAlphabet size k') ∨
      (nextTuple size k = none ∧ tupleRank size k + 1 = size ^ 4) := by
  obtain ⟨h0, h1, h2, h3⟩ := hk
  have z : (0 : Fin 256).val < size := by have : (0 : Fin 256).val = 0 := rfl; omega
  have e : ∀ a b : Nat, b + 1 = size → a * size + b + 1 = (a + 1) * size := fun a b hb => by
    rw [Nat.add_mul, Nat.one_mul]; omega
  unfold nextTuple
  rcases bumpIndex_cases size k.i3 h h3 with ⟨j, hj, hv, hl⟩ | ⟨hj, hv⟩ <;> rw [hj]
  · exact .inl ⟨_, rfl, by simp only [tupleRank, hv]; omega, h0, h1, h2, hl⟩
  rcases bumpIndex_cases size k.i2 h h2 with ⟨j, hj, hv2, hl⟩ | ⟨hj, hv2⟩ <;> simp only [hj]
  · refine .inl ⟨_, rfl, ?_, h0, h1, hl, z⟩
    simp only [tupleRank]
    rw [e _ _ hv, hv2]; rfl
  rcases bumpIndex_cases size k.i1 h h1 with ⟨j, hj, hv1, hl⟩ | ⟨hj, hv1⟩ <;> simp only [hj]
  · refine .inl ⟨_, rfl, ?_, h0, hl, z, z⟩
    simp only [tupleRank]
    rw [e _ _ hv, e _ _ hv2, hv1]; rfl
  rcases bumpIndex_cases size k.i0 h h0 with ⟨j, hj, hv0, hl⟩ | ⟨hj, hv0⟩ <;> simp only [hj]
  · refine .inl ⟨_, rfl, ?_, hl, z, z, z⟩
    simp only [tupleRank]
    rw [e _ _ hv, e _ _ hv2, e _ _ hv1, hv0]
    simp
  · refine .inr ⟨trivial, ?_⟩
    simp only [tupleRank]
    rw [e _ _ hv, e _ _ hv2, e _ _ hv1, hv0]
    ring

end Sys2Proof.Machine
end

