-- ==== Sys2Proof/Laws/Step.lean ====
section
/-! SUPPORT. What one step can do, said once. -/

namespace Sys2Proof.Machine

/-- Every arm of the dispatch answers a next state: that of the command at `Config.here`. -/
theorem exec_eq_execOn (i : Instr) (s : State) : exec i s = .next (execOn Config.here i s) := by
  cases i <;> rfl

/-- The pseudocode of a command in flight. -/
def bodyOn (c : Config) (i : Instr) (s : State) : State :=
  match i with
  | .hash => hashBody c s
  | .encode => encodeBody s
  | .decode => decodeBody s
  | .build => buildBody c s
  | .lookup => lookupBody c s
  | .fwd => fwdBody c s
  | .inv => invBody c s
  | .decomp => decompBody c s
  | .orbq => orbqBody c s
  | .orbrd => orbrdBody c s
  | .brute => bruteBody c s

theorem execOn_busy (c : Config) (i : Instr) (s : State) (h : s.state = .busy) : execOn c i s = bodyOn c i s := by
  cases i <;> exact runCommand_busy _ _ _ _ h

theorem execOn_accepting (c : Config) (i : Instr) (s : State) (h : acceptsWrites s = true) :
    execOn c i s = issue c i s := by
  cases i <;> exact runCommand_accepting _ _ _ _ h

theorem execOn_fatal (c : Config) (i : Instr) (s : State) (h : s.state = .fatal) : execOn c i s = dropWrite s := by
  cases i <;> exact runCommand_fatal _ _ _ _ h

/-- The command in flight is read from `LASTOP`. -/
theorem commandInFlight_of_lastop (s : State) (i : Instr) (h : s.lastop = opcodeOf i) :
    commandInFlight s = .command i := by
  unfold commandInFlight
  rw [h, extend_opcodeOf]
  cases i <;> rfl

/-- A word that decodes to a command is that command's word. -/
theorem eq_encode_of_decode (w : Word) (i : Instr) (h : Sys2Proof.decode w = .command i) : w = encode i := by
  unfold Sys2Proof.decode at h
  split at h
  · next hm =>
    cases ho : decodeOpcode (opcField w) with
    | none => simp [ho] at h
    | some j =>
      simp only [ho, Decoded.command.injEq] at h
      subst h
      rw [word_of_fields w hm, opcode_of_decodeOpcode _ _ ho, extend_opcodeOf]
  · cases h

theorem lastop_of_commandInFlight (s : State) (i : Instr) (h : commandInFlight s = .command i) :
    s.lastop = opcodeOf i := by
  have e := eq_encode_of_decode _ _ h
  unfold opcodeOf
  rw [← e]
  apply BitVec.eq_of_toNat_eq
  have := s.lastop.isLt
  simp only [opcField, BitVec.extractLsb'_toNat, BitVec.toNat_setWidth, Nat.shiftRight_zero]
  omega

/-- The engine's move, at any configuration. -/
theorem engineMove_move (c : Config) (s t : State)
    (h : engineMove (fun i u => .next (execOn c i u)) s = .next t) :
    (s.state ≠ .busy ∧ t = s) ∨ ∃ i, s.state = .busy ∧ s.lastop = opcodeOf i ∧ t = bodyOn c i s := by
  unfold engineMove at h
  split at h
  · next hb =>
    cases hc : commandInFlight s with
    | command i =>
      simp only [hc, Host.Outcome.next.injEq] at h
      exact .inr ⟨i, hb, lastop_of_commandInFlight s i hc, by rw [← h, execOn_busy c i s hb]⟩
    | illegal why => simp [hc] at h
  · next hb =>
    simp only [Host.Outcome.next.injEq] at h
    exact .inl ⟨hb, h.symm⟩

/-- What a host write can do, at any configuration (R37 to R39). -/
theorem hostWrite_cases (c : Config) (idx : Nat) (v : Count) (s t : State)
    (h : hostWrite (fun i u => .next (execOn c i u)) c idx v s = .next t) :
    t = dropWrite s ∨
      (acceptsWrites s = true ∧ ∃ r, r ≠ .cmd ∧ regPresent c r = true ∧ idx = regIndex r ∧ t = storeReg r v s) ∨
      (acceptsWrites s = true ∧ idx = 0 ∧
        ∃ why, Sys2Proof.decode (low32 v) = .illegal why ∧ t = rejectWord (low32 v) s) ∨
      (acceptsWrites s = true ∧ idx = 0 ∧ ∃ i, Sys2Proof.decode (low32 v) = .command i ∧ t = issue c i s) := by
  cases acc : acceptsWrites s with
  | false =>
    rw [hostWrite_not_accepting _ _ _ _ _ acc] at h
    cases h
    exact .inl rfl
  | true =>
    cases hr : regAt c idx with
    | none =>
      rw [hostWrite_unassigned _ _ _ _ _ hr] at h
      cases h
      exact .inl rfl
    | some r =>
      obtain ⟨rfl, hp⟩ := regAt_eq_some c idx r hr
      by_cases hc : r = .cmd
      · subst hc
        rw [show regIndex .cmd = 0 from rfl, hostWrite_cmd _ _ _ _ acc] at h
        unfold writeCmd at h
        split at h
        · next hd => cases h; exact .inr (.inr (.inl ⟨rfl, rfl, _, hd, rfl⟩))
        · next i hd =>
          simp only [execOn_accepting c i s acc] at h
          cases h
          exact .inr (.inr (.inr ⟨rfl, rfl, i, hd, rfl⟩))
      · rw [hostWrite_register _ _ _ _ _ acc hp hc] at h
        cases h
        exact .inr (.inl ⟨rfl, r, hc, hp, rfl, rfl⟩)

/-- What one step can do, at any configuration: a reset, a read or a write of the host, nothing, or the
engine's own step, taken while the host is silent, pauses or waits. -/
theorem stepOn_cases (c : Config) (s t : State) (h : stepOn c s = .next t) :
    (∃ rest, s.host = .reset :: rest ∧ t = resetEngine { s with host := rest }) ∨
      (∃ idx rest, s.host = .read idx :: rest ∧
        t = { s with host := rest, seen := (idx, hostRead c s idx) :: s.seen }) ∨
      (∃ idx v rest, s.host = .write idx v :: rest ∧
        hostWrite (fun i u => .next (execOn c i u)) c idx v { s with host := rest } = .next t) ∨
      (∃ rest, (s.host = [] ∨ s.host.head? = some .pause ∨ s.host.head? = some .wait) ∧ s.state ≠ .busy ∧
        t = { s with host := rest }) ∨
      ∃ rest i, (s.host = [] ∨ s.host.head? = some .pause ∨ s.host.head? = some .wait) ∧ s.state = .busy ∧
        s.lastop = opcodeOf i ∧ t = bodyOn c i { s with host := rest } := by
  unfold stepOn turn at h
  cases hh : s.host with
  | nil =>
    rw [hh] at h
    have e : { s with host := [] } = s := by rw [← hh]
    rcases engineMove_move c s t h with ⟨hb, rfl⟩ | ⟨i, hb, hl, rfl⟩
    · exact .inr (.inr (.inr (.inl ⟨[], by simp, hb, e.symm⟩)))
    · exact .inr (.inr (.inr (.inr ⟨[], i, by simp, hb, hl, by rw [e]⟩)))
  | cons m rest =>
    rw [hh] at h
    cases m with
    | read idx =>
      simp only [hostMove, Host.Outcome.next.injEq] at h
      exact .inr (.inl ⟨idx, rest, rfl, h.symm⟩)
    | write idx v => exact .inr (.inr (.inl ⟨idx, v, rest, rfl, h⟩))
    | reset =>
      simp only [hostMove, Host.Outcome.next.injEq] at h
      exact .inl ⟨rest, rfl, h.symm⟩
    | pause =>
      simp only [hostMove] at h
      rcases engineMove_move c _ t h with ⟨hb, rfl⟩ | ⟨i, hb, hl, rfl⟩
      · exact .inr (.inr (.inr (.inl ⟨rest, by simp, hb, rfl⟩)))
      · exact .inr (.inr (.inr (.inr ⟨rest, i, by simp, hb, hl, rfl⟩)))
    | wait =>
      simp only [hostMove] at h
      split at h
      · next hb =>
        have e : { s with host := .wait :: rest } = s := by rw [← hh]
        rcases engineMove_move c _ t h with ⟨hb', rfl⟩ | ⟨i, hb, hl, rfl⟩
        · exact absurd hb hb'
        · exact .inr (.inr (.inr (.inr ⟨.wait :: rest, i, by simp, hb, hl, by rw [e]⟩)))
      · next hb =>
        simp only [Host.Outcome.next.injEq] at h
        exact .inr (.inr (.inr (.inl ⟨rest, by simp, hb, h.symm⟩)))

/-- What issuing a command can do, by its outcome: a non-fatal error, `RESOURCE`, or the command's start. -/
theorem issue_outcomes (c : Config) (i : Instr) (s : State) :
    (∃ e, issue c i s = enterError e (noteAccepted (opcodeOf i) s) ∧ isFatalCode (errorCode e) = false) ∨
      (issue c i s = enterFatal .resource (noteAccepted (opcodeOf i) s) ∧ i = .build ∧ c.tableMem = false) ∨
      (unitPresent c i = true ∧ issueCheck c i s = none ∧
        issue c i s = startCommand i (noteAccepted (opcodeOf i) s)) := by
  rcases issue_cases c i s with ⟨h1, h2, e⟩ | ⟨h1, er, h2, e⟩ | ⟨h1, e⟩
  · exact .inr (.inr ⟨h1, h2, e⟩)
  · cases i <;> simp only [issueCheck] at h2 <;> (try cases h2) <;> (try split_ifs at h2) <;> (try cases h2) <;>
      rw [e] <;> first | exact .inl ⟨_, rfl, rfl⟩ | skip
    exact .inr (.inl ⟨rfl, rfl, by assumption⟩)
  · exact .inl ⟨_, e, rfl⟩

/-- The engine's own step never touches an operand register, the alphabet, `WDROP`, `LASTOP`, nor what is
the host's own. -/
theorem bodyOn_frame (c : Config) (i : Instr) (s : State) :
    (bodyOn c i s).argWord = s.argWord ∧ (bodyOn c i s).argCount = s.argCount ∧ (bodyOn c i s).argBuf = s.argBuf ∧
      (bodyOn c i s).alen = s.alen ∧ (bodyOn c i s).alpha = s.alpha ∧ (bodyOn c i s).wdrop = s.wdrop ∧
      (bodyOn c i s).lastop = s.lastop ∧ (bodyOn c i s).host = s.host ∧ (bodyOn c i s).seen = s.seen := by
  cases i <;> simp only [bodyOn]
  · simp [hashBody]
  · simp [encodeBody]
  · simp [decodeBody]
  · rcases buildBody_cases c s with ⟨_, e⟩ | ⟨w, _, ⟨_, _, e⟩ | ⟨p, _, e⟩⟩ <;> rw [e]
    · simp [joinStep]
    · simp [claimStep, spendDraws]
    · unfold slotUpdate
      split <;> simp [spendDraws]
  · simp [lookupBody]
  · unfold fwdBody
    rcases walkStep_cases c c.H s with ⟨_, e⟩ | ⟨_, _, e⟩ | ⟨_, _, e⟩ | ⟨_, _, _, e⟩ <;> rw [e] <;>
      simp [recordValue, closeWalk]
  · unfold invBody
    rcases walkStep_cases c (readT c s) s with ⟨_, e⟩ | ⟨_, _, e⟩ | ⟨_, _, e⟩ | ⟨_, _, _, e⟩ <;> rw [e] <;>
      simp [recordValue, closeWalk]
  · rcases decompBody_cases c s with ⟨_, _, e⟩ | ⟨_, _, _, e⟩ | ⟨_, _, _, e⟩ | ⟨_, _, e⟩ | ⟨_, _, _, e⟩ | ⟨_, _, _, e⟩ |
      ⟨_, _, _, _, e⟩ | ⟨_, _, _, _, e⟩ | ⟨_, _, _, e⟩ <;> rw [e] <;>
      simp [finishDecomp, nextStart, recordValue, closeOrbit]
  · simp [orbqBody, orbitAnswer]
  · unfold orbrdBody readElement
    split_ifs <;> simp
  · rcases bruteBody_cases c s with ⟨_, e⟩ | ⟨_, _, _, _, e⟩ | ⟨_, _, _, _, e⟩ <;> rw [e] <;>
      simp [acceptCandidate]

/-- The engine's own step of another command than BRUTE leaves the search alone. -/
theorem bodyOn_search_frame (c : Config) (i : Instr) (s : State) (h : i ≠ .brute) :
    (bodyOn c i s).bruteAt = s.bruteAt ∧ (bodyOn c i s).tested = s.tested := by
  cases i <;> simp only [bodyOn]
  · simp [hashBody]
  · simp [encodeBody]
  · simp [decodeBody]
  · rcases buildBody_cases c s with ⟨_, e⟩ | ⟨w, _, ⟨_, _, e⟩ | ⟨p, _, e⟩⟩ <;> rw [e]
    · simp [joinStep]
    · simp [claimStep]
    · unfold slotUpdate
      split <;> simp
  · simp [lookupBody]
  · unfold fwdBody
    rcases walkStep_cases c c.H s with ⟨_, e⟩ | ⟨_, _, e⟩ | ⟨_, _, e⟩ | ⟨_, _, _, e⟩ <;> rw [e] <;> simp [closeWalk]
  · unfold invBody
    rcases walkStep_cases c (readT c s) s with ⟨_, e⟩ | ⟨_, _, e⟩ | ⟨_, _, e⟩ | ⟨_, _, _, e⟩ <;> rw [e] <;>
      simp [closeWalk]
  · rcases decompBody_cases c s with ⟨_, _, e⟩ | ⟨_, _, _, e⟩ | ⟨_, _, _, e⟩ | ⟨_, _, e⟩ | ⟨_, _, _, e⟩ | ⟨_, _, _, e⟩ |
      ⟨_, _, _, _, e⟩ | ⟨_, _, _, _, e⟩ | ⟨_, _, _, e⟩ <;> rw [e] <;> simp [finishDecomp, closeOrbit]
  · simp [orbqBody, orbitAnswer]
  · unfold orbrdBody readElement
    split_ifs <;> simp
  · exact absurd rfl h

/-- The engine's own step of another command than DECOMP leaves the Orbit set and the Orbit Index alone, unless
it is fatal. -/
theorem bodyOn_orbit_frame (c : Config) (i : Instr) (s : State) (h : i ≠ .decomp) :
    (bodyOn c i s).start = s.start ∧ (bodyOn c i s).phase = s.phase ∧
      (((bodyOn c i s).state = .fatal ∧ (bodyOn c i s).indexValid = false ∧ (bodyOn c i s).norb = 0) ∨
        ((bodyOn c i s).indexValid = s.indexValid ∧ (bodyOn c i s).norb = s.norb ∧
          (bodyOn c i s).memOidx = s.memOidx ∧ (bodyOn c i s).memOdir = s.memOdir ∧
          (bodyOn c i s).memOseq = s.memOseq)) := by
  cases i <;> simp only [bodyOn]
  · simp [hashBody]
  · simp [encodeBody]
  · simp [decodeBody]
  · rcases buildBody_cases c s with ⟨_, e⟩ | ⟨w, _, ⟨_, _, e⟩ | ⟨p, _, e⟩⟩ <;> rw [e]
    · simp [joinStep]
    · simp [claimStep]
    · unfold slotUpdate
      split <;> simp
  · simp [lookupBody]
  · unfold fwdBody
    rcases walkStep_cases c c.H s with ⟨_, e⟩ | ⟨_, _, e⟩ | ⟨_, _, e⟩ | ⟨_, _, _, e⟩ <;> rw [e] <;> simp [closeWalk]
  · unfold invBody
    rcases walkStep_cases c (readT c s) s with ⟨_, e⟩ | ⟨_, _, e⟩ | ⟨_, _, e⟩ | ⟨_, _, _, e⟩ <;> rw [e] <;>
      simp [closeWalk]
  · exact absurd rfl h
  · simp [orbqBody, orbitAnswer]
  · unfold orbrdBody readElement
    split_ifs <;> simp
  · rcases bruteBody_cases c s with ⟨_, e⟩ | ⟨_, _, _, _, e⟩ | ⟨_, _, _, _, e⟩ <;> rw [e] <;> simp [acceptCandidate]

/-- The engine's own step by the state it ends in: it goes on with no host-visible change, it completes, it
raises `LOOKUP_FAIL` or `BAD_INDEX`, or it raises `INVARIANT`. -/
theorem bodyOn_outcomes (c : Config) (i : Instr) (s : State) (hb : s.state = .busy) :
    ((bodyOn c i s).state = .busy ∧ (bodyOn c i s).tableValid = s.tableValid ∧
        (bodyOn c i s).indexValid = s.indexValid ∧ (bodyOn c i s).err = s.err ∧
        (bodyOn c i s).errinfo = s.errinfo ∧ (bodyOn c i s).resWord = s.resWord ∧
        (bodyOn c i s).resLen = s.resLen ∧ (bodyOn c i s).resOrbit = s.resOrbit ∧
        (bodyOn c i s).resPos = s.resPos ∧ (bodyOn c i s).resBuf = s.resBuf) ∨
      ((bodyOn c i s).state = .done ∧ (bodyOn c i s).err = s.err ∧ (bodyOn c i s).errinfo = s.errinfo ∧
        ((bodyOn c i s).tableValid = s.tableValid ∨ i = .build ∧ (bodyOn c i s).tableValid = true) ∧
        ((bodyOn c i s).indexValid = s.indexValid ∨ i = .decomp ∧ (bodyOn c i s).indexValid = true) ∧
        (i ∉ [Instr.orbq, .orbrd] → (bodyOn c i s).resOrbit = s.resOrbit ∧ (bodyOn c i s).resPos = s.resPos)) ∨
      (∃ e, bodyOn c i s = enterError e s ∧ isFatalCode (errorCode e) = false ∧
        (errorCode e = .lookupFail ∨ errorCode e = .badIndex)) ∨
      ∃ k w n, bodyOn c i s = { enterFatal (.invariant k w) s with draws := n } := by
  cases i <;> simp only [bodyOn]
  · simp [hashBody]
  · simp [encodeBody]
  · simp [decodeBody]
  · rcases buildBody_cases c s with ⟨_, e⟩ | ⟨w, _, ⟨_, _, e⟩ | ⟨p, _, e⟩⟩ <;> rw [e]
    · simp [joinStep]
    · simp [claimStep, spendDraws, hb]
    · unfold slotUpdate
      split
      · exact .inr (.inr (.inr ⟨_, _, _, rfl⟩))
      · simp [spendDraws, hb]
  · simp [lookupBody]
  · unfold fwdBody
    rcases walkStep_cases c c.H s with ⟨_, e⟩ | ⟨_, _, e⟩ | ⟨_, _, e⟩ | ⟨_, _, _, e⟩ <;> rw [e] <;>
      first | exact .inr (.inr (.inr ⟨_, _, _, rfl⟩)) | simp [recordValue, closeWalk, hb]
  · unfold invBody
    rcases walkStep_cases c (readT c s) s with ⟨_, e⟩ | ⟨_, _, e⟩ | ⟨_, _, e⟩ | ⟨_, _, _, e⟩ <;> rw [e] <;>
      first | exact .inr (.inr (.inr ⟨_, _, _, rfl⟩)) | simp [recordValue, closeWalk, hb]
  · rcases decompBody_cases c s with ⟨_, _, e⟩ | ⟨_, _, _, e⟩ | ⟨_, _, _, e⟩ | ⟨_, _, e⟩ | ⟨_, _, _, e⟩ | ⟨_, _, _, e⟩ |
      ⟨_, _, _, _, e⟩ | ⟨_, _, _, _, e⟩ | ⟨_, _, _, e⟩ <;> rw [e] <;>
      first
      | exact .inr (.inr (.inr ⟨_, _, _, rfl⟩))
      | simp [finishDecomp, nextStart, recordValue, closeOrbit, hb]
  · simp [orbqBody, orbitAnswer]
  · unfold orbrdBody readElement
    split_ifs
    · exact .inr (.inr (.inl ⟨_, rfl, rfl, .inr rfl⟩))
    · exact .inr (.inr (.inl ⟨_, rfl, rfl, .inr rfl⟩))
    · simp
  · rcases bruteBody_cases c s with ⟨_, e⟩ | ⟨_, _, _, _, e⟩ | ⟨_, _, _, _, e⟩ <;> rw [e]
    · exact .inr (.inr (.inl ⟨_, rfl, rfl, .inl rfl⟩))
    · simp [acceptCandidate]
    · simp [hb]

end Sys2Proof.Machine
end

