-- ==== Sys2Proof/Tests/Slice0.lean ====
section
/-! SUPPORT. Small tests, their expected results taken from `spec/95_test_vectors.md` (the section or the
program is named beside each), and one witness for every statement that has hypotheses. -/

namespace Sys2Proof.Tests

open Sys2Proof.Machine

/-! ### Helpers -/

/-- A configuration with everything present, one worker, and a given `H`. Unwritten memory reads as its own
index, and as a table or an index that is right for the identity. -/
def withH (h : Word → Word) : Config where
  H := h
  extraWorkers := 0
  tableMem := true
  hasFgd := true
  hasBf := true
  choice := fun _ => 0
  unwritten := fun e k =>
    match e with
    | .orbitPos => 0
    | .orbitLen => 0
    | _ => BitVec.ofNat 32 k

/-- The reference parameters (section 2). -/
def refc : Config := withH Href

/-- `Hid` of section 10. -/
def idc : Config := withH fun w => w

/-- `Htail` of section 10. -/
def tailH (w : Word) : Word := if w = 7 then 3 else if w = 3 then 4 else if w = 4 then 3 else w

def tailc : Config := withH tailH

/-- A primitive on which the successor of 2 never recurs: 2, 1, 0, 0, … -/
def dropH (w : Word) : Word := if w = 2 then 1 else 0

def dropc : Config := withH dropH

/-- A hardware with no optional unit and no table memory. -/
def barec : Config := { refc with tableMem := false, hasFgd := false, hasBf := false }

/-- A command in flight. -/
def busyAt (i : Instr) : State := { State.reset with state := .busy, lastop := opcodeOf i }

/-- The host's next move. -/
def hosting (m : HostStep) : State := { State.reset with host := [m] }

/-- The state after a step (the old one where the step stops). -/
def after (c : Config) (s : State) : State :=
  match stepOn c s with
  | .next t => t
  | .fault _ => s
  | .refused _ => s

theorem ne_succ (y : Word) : y ≠ y + 1 := by
  simp

/-- Whether a step goes on. -/
def goesOn (c : Config) (s : State) : Bool :=
  match stepOn c s with
  | .next _ => true
  | .fault _ => false
  | .refused _ => false

theorem stepOn_after (c : Config) (s : State) (h : goesOn c s = true) : stepOn c s = .next (after c s) := by
  unfold goesOn at h
  unfold after
  cases hs : stepOn c s with
  | next t => rfl
  | fault r => simp [hs] at h
  | refused r => simp [hs] at h

/-- The alphabet "ab" of program P4. -/
def ab (s : State) : State :=
  { s with alen := 2, alpha := ((Vector.replicate 256 0).set 0 0x61).set 1 0x62 }

/-! ### Well-formedness -/

theorem test_wf_refuses_decomp_without_unit : Instr.wf barec .decomp = false := by decide
theorem test_wf_refuses_orbq_without_unit : Instr.wf barec .orbq = false := by decide
theorem test_wf_refuses_orbrd_without_unit : Instr.wf barec .orbrd = false := by decide
theorem test_wf_refuses_brute_without_unit : Instr.wf barec .brute = false := by decide
/-- BUILD is a command also without table memory (R91). -/
theorem test_wf_allows_build_without_table_memory : Instr.wf barec .build = true := by decide

/-! ### Decoding: `MBZ` at bits 31:8, `OPC` at bits 7:0, written out from R90 and R91 -/

theorem test_decode_hash : decode (0x000000#24 ++ 0b00000001#8) = .command .hash := by decide
theorem test_decode_encode : decode (0x000000#24 ++ 0b00000010#8) = .command .encode := by decide
theorem test_decode_decode : decode (0x000000#24 ++ 0b00000011#8) = .command .decode := by decide
theorem test_decode_build : decode (0x000000#24 ++ 0b00010000#8) = .command .build := by decide
theorem test_decode_lookup : decode (0x000000#24 ++ 0b00010001#8) = .command .lookup := by decide
theorem test_decode_fwd : decode (0x000000#24 ++ 0b00100000#8) = .command .fwd := by decide
theorem test_decode_inv : decode (0x000000#24 ++ 0b00100001#8) = .command .inv := by decide
theorem test_decode_decomp : decode (0x000000#24 ++ 0b00110000#8) = .command .decomp := by decide
theorem test_decode_orbq : decode (0x000000#24 ++ 0b00110001#8) = .command .orbq := by decide
theorem test_decode_orbrd : decode (0x000000#24 ++ 0b00110010#8) = .command .orbrd := by decide
theorem test_decode_brute : decode (0x000000#24 ++ 0b01000000#8) = .command .brute := by decide
theorem test_decode_table_word :
    decodeTableWord 32 0x00000030 = some .decomp ∧ decodeTableWord 32 0x00000040 = some .brute ∧
      decodeTableWord 32 0x00000004 = none := by decide
/-- Opcode 0 is unassigned, and 0x120 violates `MBZ` (P4 lines 16 and 18). -/
theorem test_decode_rejects :
    decode 0x00000000#32 = .illegal (.unassignedOpcode 0x00) ∧ decode 0x00000120#32 = .illegal .mbzNonZero ∧
      decode 0x80000001#32 = .illegal .mbzNonZero := by decide

/-! ### One step of each command -/

/-- Section 3: `Href(1)`. -/
theorem test_hash :
    (execOn refc .hash { busyAt .hash with argWord := 1 }).resWord = 0x5643EF8A#32 ∧
      statusWord (execOn refc .hash (busyAt .hash)) = 0x00010002#32 := by decide +kernel

/-- Section 3: "encode 0x12345678". -/
theorem test_encode :
    (execOn refc .encode { busyAt .encode with argWord := 0x12345678 }).resBuf = ⟨0x12, 0x34, 0x56, 0x78⟩ ∧
      statusWord (execOn refc .encode (busyAt .encode)) = 0x00020002#32 := by decide +kernel

/-- Section 3: "decode 0xDE, 0xAD, 0xBE, 0xEF". -/
theorem test_decode :
    (execOn refc .decode { busyAt .decode with argBuf := ⟨0xDE, 0xAD, 0xBE, 0xEF⟩ }).resWord = 0xDEADBEEF#32 ∧
      statusWord (execOn refc .decode (busyAt .decode)) = 0x00030002#32 := by decide +kernel

/-- S11 and section 3: input 0x12345678 is in block 0x1234 at low index 0x5678, and its slot is 0x4A090E98. -/
theorem test_build_slot_update :
    let t := execOn refc .build { busyAt .build with cur := [(0, some ⟨0x1234, 0x5678⟩)] }
    t.memT = [(0x4A090E98, some 0x12345678#32)] ∧ t.memTag = [(0x4A090E98, true)] ∧
      t.cur = [(0, some ⟨0x1234, 0x5679⟩)] := by decide +kernel

/-- Section 10, `Htail`: input 7 finds the tag of slot 3 set by input 4. -/
theorem test_build_collision :
    let t := execOn tailc .build { busyAt .build with cur := [(0, some ⟨0, 7⟩)], memTag := [(3, true)] }
    statusWord t = 0x00108104#32 ∧ t.errinfo = 0x0000000000000003#64 := by decide +kernel

/-- Section 4: `T[0]`, with the table valid. -/
theorem test_lookup :
    let t := execOn refc .lookup { busyAt .lookup with tableValid := true, memT := [(0, some 0x9D0AD96D#32)] }
    t.resWord = 0x9D0AD96D#32 ∧ statusWord t = 0x00110012#32 := by decide +kernel

/-- Section 4: "lookup 5" after reset. -/
theorem test_lookup_without_table :
    statusWord (execOn refc .lookup { State.reset with argWord := 5 }) = 0x00110203#32 := by decide +kernel

/-- Section 10, `Htail`: "fwd 7, 1" closes at `L = 2` with 3, "fwd 7, 2" with the seed 7. -/
theorem test_fwd_closes :
    let s : State := { busyAt .fwd with argWord := 7, nrec := 2, memRec := [(1, some 3), (2, some 4)] }
    (execOn tailc .fwd { s with argCount := 1 }).resWord = 3#32 ∧
      (execOn tailc .fwd { s with argCount := 2 }).resWord = 7#32 ∧
      (execOn tailc .fwd { s with argCount := 2 }).resLen = 2#64 := by decide +kernel

/-- Section 6: the first recorded value of a walk from 0. -/
theorem test_fwd_records :
    (execOn refc .fwd (busyAt .fwd)).memRec = [(1, some 0x2144DF1C#32)] := by decide +kernel

/-- Sections 3 and 4, the 2-cycle of `Href`: the inverse of 0xFFCC7C38 is 0xCC7C38AD and the other way round;
`3 mod 2 = 1`. -/
theorem test_inv_closes :
    let s : State :=
      { busyAt .inv with
        tableValid := true, argWord := 0xFFCC7C38, argCount := 3, nrec := 2
        memRec := [(1, some 0xCC7C38AD#32), (2, some 0xFFCC7C38#32)]
        memT := [(0xCC7C38AD, some 0xFFCC7C38#32), (0xFFCC7C38, some 0xCC7C38AD#32)] }
    (execOn refc .inv s).resWord = 0xCC7C38AD#32 ∧ (execOn refc .inv s).resLen = 2#64 ∧
      statusWord (execOn refc .inv s) = 0x00210012#32 := by decide +kernel

/-- P2 lines 1 to 3. -/
theorem test_inv_without_table :
    statusWord (execOn refc .inv State.reset) = 0x00210203#32 ∧ (execOn refc .inv State.reset).errinfo = 0 := by
  decide +kernel

/-- Section 5: the index pass over orbit 0 writes `OIDX[0x2144DF1C] = (0, 1)`. -/
theorem test_decomp_indexes :
    let t := execOn refc .decomp
      { busyAt .decomp with phase := .index 1, nrec := 1048575, memRec := [(2, some 0x2144DF1C#32)] }
    t.memOidx = [(0x2144DF1C, some ⟨0, 1⟩)] ∧ t.memOseq = [(1, some 0x2144DF1C#32)] := by decide +kernel

/-- Section 10, `Htail`: the walk from 7 never returns to 7. -/
theorem test_decomp_step_limit :
    let t := execOn tailc .decomp
      { busyAt .decomp with phase := .walk, start := 7, nrec := 4294967296, memRec := [(4294967296, some 3)] }
    statusWord t = 0x00308104#32 ∧ t.errinfo = 0x0000000200000007#64 := by decide +kernel

/-- Orbit 3082 of section 5: one place after 0xFFCC7C38 the orbit is back at 0xCC7C38AD. -/
theorem test_orbq :
    let t := execOn refc .orbq
      { busyAt .orbq with
        indexValid := true, argWord := 0xFFCC7C38, argCount := 1
        memOidx := [(0xFFCC7C38, some ⟨3082, 1⟩)]
        memOdir := [(3082, some ⟨4294967293, 2⟩)]
        memOseq := [(4294967293, some 0xCC7C38AD#32), (4294967294, some 0xFFCC7C38#32)] }
    t.resWord = 0xCC7C38AD#32 ∧ t.resOrbit = 3082 ∧ t.resPos = 1 ∧ t.resLen = 2 ∧
      statusWord t = 0x00310022#32 := by decide +kernel

/-- P3 line 1. -/
theorem test_orbq_without_index : statusWord (execOn refc .orbq State.reset) = 0x00310303#32 := by decide +kernel

/-- P3 lines 12 and 13. -/
theorem test_orbrd :
    let t := execOn refc .orbrd
      { busyAt .orbrd with
        indexValid := true, norb := 3084, argWord := 3082, argCount := 1
        memOdir := [(3082, some ⟨4294967293, 2⟩)], memOseq := [(4294967294, some 0xFFCC7C38#32)] }
    t.resWord = 0xFFCC7C38#32 ∧ t.resLen = 2 ∧ t.resOrbit = 3082 ∧ t.resPos = 1 := by decide +kernel

/-- P3 lines 14 to 19: position out of range, then id out of range. -/
theorem test_orbrd_bad_index :
    let s : State := { busyAt .orbrd with indexValid := true, norb := 3084, memOdir := [(3082, some ⟨4294967293, 2⟩)] }
    let t := execOn refc .orbrd { s with argWord := 3082, argCount := 2 }
    statusWord t = 0x00320623#32 ∧ t.errinfo = 0x0000000100000C0A#64 ∧
      (execOn refc .orbrd { s with argWord := 3084 }).errinfo = 0x0000000000000C0C#64 := by decide +kernel

/-- P4 lines 2 to 5: the tenth candidate over "ab" is "baab". -/
theorem test_brute_finds :
    let t := execOn refc .brute
      { ab (busyAt .brute) with argWord := 0x26241B11, bruteAt := some ⟨1, 0, 0, 1⟩, tested := 9 }
    t.resBuf = ⟨0x62, 0x61, 0x61, 0x62⟩ ∧ t.resWord = 0x62616162#32 ∧ t.resLen = 10#64 ∧
      statusWord t = 0x00400002#32 := by decide +kernel

/-- P4 lines 6 to 8: no preimage among the 16 candidates. -/
theorem test_brute_fails :
    let t := execOn refc .brute { ab (busyAt .brute) with argWord := 0x2144DF1C, bruteAt := none, tested := 16 }
    statusWord t = 0x00400503#32 ∧ t.errinfo = 0x0000000000000010#64 := by decide +kernel

/-! ### The register interface, errors and reset -/

/-- Section 3: "wr ARG_BUF0, 0x1FF" then "rd ARG_BUF0". -/
theorem test_high_bits_ignored :
    hostRead refc (after refc (hosting (.write 0x008 0x1FF))) 0x008 = 0xFF#64 := by decide +kernel

/-- P4 lines 10 to 12. -/
theorem test_alen_257_dropped :
    let t := after refc { ab State.reset with host := [.write 0x020 0x101] }
    t.wdrop = true ∧ hostRead refc t 0x020 = 2#64 := by decide +kernel

/-- P4 lines 16 to 19, with `WDROP` set before. -/
theorem test_illegal_words :
    let s : State := { State.reset with wdrop := true }
    statusWord (after refc { s with host := [.write 0 0x00000000] }) = 0x00000143#32 ∧
      statusWord (after refc { s with host := [.write 0 0x00000120] }) = 0x00200143#32 ∧
      (after refc { s with host := [.write 0 0x00000120] }).errinfo = 0x0000000000000120#64 := by decide +kernel

/-- P5 lines 1, 5 and 10: `CONFIG`, `RESOURCE`, and a write after it. -/
theorem test_resource :
    configWord { refc with tableMem := false } = 0x0000000000010601#64 ∧
      statusWord (after barec (hosting (.write 0 0x10))) = 0x00108004#32 ∧
      statusWord (after barec { after barec (hosting (.write 0 0x10)) with host := [.write 0x004 1] }) =
        0x00108044#32 := by decide +kernel

/-- P5 lines 12 to 14. -/
theorem test_reset_leaves_fatal :
    let t := after barec { State.reset with state := .fatal, resWord := 0x2144DF1C, host := [.reset] }
    statusWord t = 0 ∧ t.resWord = 0 := by decide +kernel

/-- Section 4: a write during BUILD is dropped, and a read of `STATUS` then gives 0x00100041. -/
theorem test_write_while_busy :
    hostRead refc (after refc { busyAt .build with host := [.write 0x004 7] }) 0x001 = 0x00100041#64 ∧
      (after refc { busyAt .build with host := [.write 0x004 7] }).argWord = 0 := by decide +kernel

/-- The encoding of P1 line 1, of P4 lines 1 and 2, and of "decode" (R98). -/
theorem test_script_encoding :
    scriptWrites (scriptFwd 0 0) = [(0x004, 0), (0x005, 0), (0x000, 0x20)] ∧
      scriptWrites (scriptAlpha [0x61, 0x62] ++ scriptBrute 0x26241B11) =
        [(0x100, 0x61), (0x101, 0x62), (0x020, 2), (0x004, 0x26241B11), (0x000, 0x40)] ∧
      scriptWrites (scriptDecode ⟨0x61, 0x62, 0x63, 0x64⟩) =
        [(0x008, 0x61), (0x009, 0x62), (0x00A, 0x63), (0x00B, 0x64), (0x000, 0x03)] := by decide +kernel

/-- A script line takes its three steps: the operand, the command, and the engine's own step while the host
waits (section 3: `Href(3)`). -/
theorem test_script_hash :
    hostRead refc (after refc (after refc (after refc { State.reset with host := scriptHash 3 }))) 0x010 =
      0xB84D8EA6#64 := by decide +kernel

/-- The command word put before the machine runs in the very next step, from reset, from a busy state and
after a fatal error. -/
theorem test_fetch_word :
    step (State.reset.withFetchWord 32 1) = exec .hash State.reset ∧
      step ((busyAt .build).withFetchWord 32 2) = exec .encode { busyAt .build with state := .idle } := by
  constructor <;> rfl

/-! ### Witnesses: for every statement that has hypotheses, a state and operands that meet them together -/

/-- `StepRunsDecodedCommand`, its four clauses. -/
theorem witness_StepRunsDecodedCommand :
    (∃ s v rest, s.host = .write 0 v :: rest ∧ acceptsWrites s = true ∧ low32 v = encode .brute ∧ v ≠ 0x40) ∧
      (∃ s : State, s.host = [] ∧ s.state = .busy ∧ s.lastop = opcodeOf .hash) ∧
      (∃ (s : State) (rest : _), s.host = .pause :: rest ∧ s.state = .busy ∧ s.lastop = opcodeOf .build) ∧
      ∃ (s : State) (rest : _), s.host = .wait :: rest ∧ s.state = .busy ∧ s.lastop = opcodeOf .brute :=
  ⟨⟨hosting (.write 0 0xFFFFFFFF00000040), 0xFFFFFFFF00000040, [], by decide⟩, ⟨busyAt .hash, by decide⟩,
    ⟨{ busyAt .build with host := [.pause] }, [], by decide⟩, ⟨{ busyAt .brute with host := [.wait] }, [], by decide⟩⟩

/-- `StateChangesOnlyAsListed`: a reset, a write to `CMD`, the engine's own step. -/
theorem witness_StateChangesOnlyAsListed :
    (∃ s t, stepOn idc s = .next t ∧ t.state ≠ s.state ∧ s.host = [.reset]) ∧
      (∃ s t, stepOn idc s = .next t ∧ t.state ≠ s.state ∧ s.host = [.write 0 0x11] ∧ t.state = .error) ∧
      (∃ s t, stepOn barec s = .next t ∧ t.state ≠ s.state ∧ s.host = [.write 0 0x10] ∧ t.state = .fatal) ∧
      ∃ s t, stepOn idc s = .next t ∧ t.state ≠ s.state ∧ s.host = [] ∧ t.state = .done :=
  ⟨⟨{ busyAt .hash with host := [.reset] }, _, stepOn_after _ _ (by decide +kernel), by decide +kernel⟩,
    ⟨hosting (.write 0 0x11), _, stepOn_after _ _ (by decide +kernel), by decide +kernel⟩,
    ⟨hosting (.write 0 0x10), _, stepOn_after _ _ (by decide +kernel), by decide +kernel⟩,
    ⟨busyAt .hash, _, stepOn_after _ _ (by decide +kernel), by decide +kernel⟩⟩

/-- `FlagsChangeOnlyAsListed`: each of its five changes happens. -/
theorem witness_FlagsChangeOnlyAsListed :
    (∃ s t, stepOn idc s = .next t ∧ s.tableValid = false ∧ t.tableValid = true) ∧
      (∃ s t, stepOn idc s = .next t ∧ s.indexValid = false ∧ t.indexValid = true) ∧
      (∃ s t, stepOn idc s = .next t ∧ s.tableValid = true ∧ t.tableValid = false) ∧
      (∃ s t, stepOn tailc s = .next t ∧ s.indexValid = true ∧ t.indexValid = false ∧ t.state = .fatal) ∧
      (∃ s t, stepOn idc s = .next t ∧ s.wdrop = false ∧ t.wdrop = true) ∧
      ∃ s t, stepOn idc s = .next t ∧ s.wdrop = true ∧ t.wdrop = false :=
  ⟨⟨busyAt .build, _, stepOn_after _ _ (by decide +kernel), by decide +kernel⟩,
    ⟨{ busyAt .decomp with start := 4294967296 }, _, stepOn_after _ _ (by decide +kernel), by decide +kernel⟩,
    ⟨{ hosting .reset with tableValid := true }, _, stepOn_after _ _ (by decide +kernel), by decide +kernel⟩,
    ⟨{ busyAt .build with indexValid := true, cur := [(0, some ⟨0, 7⟩)], memTag := [(3, true)] }, _,
      stepOn_after _ _ (by decide +kernel), by decide +kernel⟩,
    ⟨hosting (.write 1 0), _, stepOn_after _ _ (by decide +kernel), by decide +kernel⟩,
    ⟨{ hosting .reset with wdrop := true }, _, stepOn_after _ _ (by decide +kernel), by decide +kernel⟩⟩

/-- `ResultsChangeOnlyAtComplete`: at `complete`, and at a reset. -/
theorem witness_ResultsChangeOnlyAtComplete :
    (∃ s t, stepOn idc s = .next t ∧ t.resWord ≠ s.resWord ∧ s.host = []) ∧
      ∃ s t, stepOn idc s = .next t ∧ t.resLen ≠ s.resLen ∧ s.host = [.reset] :=
  ⟨⟨{ busyAt .hash with argWord := 5 }, _, stepOn_after _ _ (by decide +kernel), by decide +kernel⟩,
    ⟨{ hosting .reset with resLen := 9 }, _, stepOn_after _ _ (by decide +kernel), by decide +kernel⟩⟩

theorem witness_NothingIntermediateIsObservable :
    (busyAt .fwd).state = .busy ∧ (execOn idc .fwd (busyAt .fwd)).state = .busy := by decide +kernel

theorem witness_OperandsAreStableWhileBusy :
    ∃ s t, s.state = .busy ∧ (∀ rest, s.host ≠ .reset :: rest) ∧ stepOn idc s = .next t ∧ s.argWord = 5 :=
  ⟨{ busyAt .hash with argWord := 5, host := [.write 0x004 7] }, _, rfl, by simp,
    stepOn_after _ _ (by decide +kernel), rfl⟩

/-- The state after reset is consistent for every configuration. -/
theorem reset_consistent (c : Config) : StatusConsistent c State.reset := by
  refine ⟨⟨⟨rfl, rfl⟩, rfl, ⟨rfl, rfl, rfl, rfl, rfl⟩, rfl, rfl⟩, fun _ => rfl, fun _ => ⟨rfl, rfl, rfl⟩,
    fun _ => ⟨rfl, fun j => ?_⟩⟩
  simp [alphabetByte, State.reset, Vector.get]

/-- A command in flight whose checks passed is consistent. -/
theorem busyAt_consistent (c : Config) (i : Instr) (hu : unitPresent c i = true)
    (hc : issueCheck c i (busyAt i) = none) : StatusConsistent c (busyAt i) :=
  ⟨⟨⟨rfl, rfl⟩, i, rfl, hu, hc⟩, (reset_consistent c).2⟩

theorem witness_InvalidTableIsUnobservable :
    ∃ s t, StatusConsistent idc s ∧ s.tableValid = false ∧ stepOn idc s = .next t ∧ t.state = .busy ∧ s.lastop = 0x10 :=
  ⟨{ busyAt .build with pending := [5] }, _, busyAt_consistent idc .build rfl rfl, rfl,
    stepOn_after _ _ (by decide +kernel), by decide +kernel, by decide +kernel⟩

theorem witness_HostReadsReturnRegisters :
    (hosting (.read 0x1FF)).host = .read 0x1FF :: [] ∧ 0x01C ≤ (0x01F : Nat) ∧ (0x021 : Nat) < 0x100 ∧ 0x200 ≤ (0x200 : Nat) := by
  decide

/-- `ErrorCodesAndInformation`: the greatest number of tested candidates. -/
theorem witness_ErrorCodesAndInformation : (2 ^ 32 : Nat) ≤ 2 ^ 32 := by decide

/-- `OperandWritesStore`: the greatest legal `ALEN`, with every bit above `v[8:0]` set. -/
theorem witness_OperandWritesStore :
    acceptsWrites State.reset = true ∧ refc.hasBf = true ∧ (0xFFFFFFFFFFFFFF00#64).toNat % 512 < 257 := by decide

/-- `DroppedWritesSetOnlyWdrop`: one write for each of the five cases, with the boundary indices. -/
theorem witness_DroppedWritesSetOnlyWdrop :
    ({ busyAt .build with host := [.write 0x004 1] } : State).state = .busy ∧
      ({ hosting (.write 0x004 1) with state := .fatal } : State).state = .fatal ∧
      (hosting (.write 0x01B 1)).host = .write 0x01B 1 :: [] ∧ (0x018 ≤ (0x01B : Nat) ∧ (0x01B : Nat) < 0x01C) ∧
      (0x00C ≤ (0x00F : Nat) ∧ (0x00F : Nat) < 0x010) ∧ (0x021 ≤ (0x0FF : Nat) ∧ (0x0FF : Nat) < 0x100) ∧
      (barec.hasBf = false ∧ 0x100 ≤ (0x1FF : Nat) ∧ (0x1FF : Nat) < 0x200) ∧
      (hosting (.write 0x020 0x101)).host = .write 0x020 0x101 :: [] ∧ 256 < (0x101#64).toNat % 512 := by decide

/-- `IllegalWordsAreRefused`: a word that is none, and the words of absent units, bits 63:32 of the value set. -/
theorem witness_IllegalWordsAreRefused :
    (∃ s v rest, acceptsWrites s = true ∧ s.host = .write 0 v :: rest ∧
        ∃ why, decode (v.setWidth 32) = .illegal why) ∧
      (∃ s v rest, acceptsWrites s = true ∧ s.host = .write 0 v :: rest ∧ barec.hasFgd = false ∧
        v.toNat % 2 ^ 32 = 0x32) ∧
      ∃ s v rest, acceptsWrites s = true ∧ s.host = .write 0 v :: rest ∧ barec.hasBf = false ∧
        v.toNat % 2 ^ 32 = 0x40 :=
  ⟨⟨hosting (.write 0 0x41), 0x41, [], by decide, by decide, .unassignedOpcode 0x41, by decide⟩,
    ⟨hosting (.write 0 0x100000032), 0x100000032, [], by decide⟩,
    ⟨hosting (.write 0 0x100000040), 0x100000040, [], by decide⟩⟩

/-- `IssueChecksRefuse`, its five clauses. -/
theorem witness_IssueChecksRefuse :
    acceptsWrites State.reset = true ∧ barec.tableMem = false ∧
      (idc.tableMem = true ∧ ({ State.reset with tableValid := true } : State).tableValid = true) ∧
      State.reset.tableValid = false ∧
      (idc.hasFgd = true ∧ ({ State.reset with indexValid := true } : State).indexValid = true) ∧
      State.reset.indexValid = false := by decide

/-- `AcceptedCommandsStart`, its clauses: after reset, and with both artifacts valid. -/
theorem witness_AcceptedCommandsStart :
    let v : State := { State.reset with state := .error, tableValid := true, indexValid := true }
    acceptsWrites State.reset = true ∧ (idc.tableMem = true ∧ State.reset.tableValid = false) ∧
      (acceptsWrites v = true ∧ v.tableValid = true) ∧ (idc.hasFgd = true ∧ State.reset.indexValid = false) ∧
      v.indexValid = true ∧ idc.hasBf = true := by decide

theorem witness_ErrorEntry :
    isFatalCode (errorCode (.badIndex true 0)) = false ∧ isFatalCode (errorCode (.invariant .slotCollision 0)) = true := by
  decide

theorem witness_ResetGivesResetValues :
    ({ busyAt .build with host := [.reset, .read 1] } : State).host = .reset :: [.read 1] := by decide

/-- `CommandsWriteOnlyTheirResults`: a command outside each of the lists. -/
theorem witness_CommandsWriteOnlyTheirResults :
    (busyAt .build).state = .busy ∧ Instr.build ∉ [Instr.hash, .decode, .lookup, .fwd, .inv, .orbq, .orbrd, .brute] ∧
      Instr.hash ∉ [Instr.fwd, .inv, .decomp, .orbq, .orbrd, .brute] ∧ Instr.brute ∉ [Instr.orbq, .orbrd] ∧
      Instr.orbq ∉ [Instr.encode, .brute] := by decide

/-- `MemoryFrame`: a place outside each written one, of a command that writes there. -/
theorem witness_MemoryFrame :
    let b : State := { busyAt .build with cur := [(0, some ⟨0, 7⟩)] }
    let d : State := { busyAt .decomp with phase := .index 0, nrec := 1, memRec := [(1, some 5)] }
    (b.state = .busy ∧ ∀ w p, workerPos b w = some p → (idc.H (blockInput p)).toNat ≠ 8) ∧
      (execOn idc .build b).state ≠ .fatal ∧ (0 : Nat) ≠ (busyAt .fwd).nrec + 1 ∧
      (d.state = .busy ∧ ∀ p, d.phase = .index p → 1 ≠ d.nbase + p ∧ (readRec idc d (p + 1)).toNat ≠ 6) ∧
      (execOn idc .decomp d).state ≠ .fatal ∧ 1 ≠ d.norb := by
  intro b d
  refine ⟨⟨rfl, fun w p h => ?_⟩, by decide +kernel, by decide, ⟨rfl, fun p h => ?_⟩, by decide +kernel, by decide⟩
  · have hw : p = ⟨0, 7⟩ := by
      simp only [b, workerPos, Memory.read_cons, Memory.read_nil] at h
      split at h
      · exact (Option.some.inj h).symm
      · cases h
    subst hw
    decide +kernel
  · obtain rfl : 0 = p := DecompPhase.index.inj h
    decide +kernel

/-- `HashCompletes`, `EncodeCompletes`, `DecodeCompletes`. -/
theorem witness_codec_completes :
    acceptsWrites State.reset = true ∧ (busyAt .hash).state = .busy ∧ (busyAt .encode).state = .busy ∧
      (busyAt .decode).state = .busy := by decide

/-- `BuildTakesOneWorkerStep`: a pending block, and a worker that holds one. -/
theorem witness_BuildTakesOneWorkerStep :
    (∃ s : State, s.state = .busy ∧ ∃ w, w < Config.here.nworkers ∧ s.pending ≠ []) ∧
      ∃ s : State, s.state = .busy ∧ ∃ w, w < Config.here.nworkers ∧ workerPos s w ≠ none :=
  ⟨⟨{ busyAt .build with pending := [0xFFFF] }, rfl, 0, Nat.succ_pos _, by decide⟩,
    ⟨{ busyAt .build with cur := [(0, some ⟨0xFFFF, 0xFFFF⟩)] }, rfl, 0, Nat.succ_pos _, by decide⟩⟩

theorem witness_BuildJoinCompletes :
    (busyAt .build).state = .busy ∧ (busyAt .build).pending = [] ∧
      ∀ w, w < Config.here.nworkers → workerPos (busyAt .build) w = none :=
  ⟨rfl, rfl, fun _ _ => rfl⟩

/-- `LookupCompletes`, at the last index. -/
theorem witness_LookupCompletes :
    let s : State := { busyAt .lookup with argWord := 0xFFFFFFFF, memT := [(0xFFFFFFFF, some 5)] }
    s.state = .busy ∧ s.memT.read s.argWord.toNat = some 5#32 := by decide

/-- A memory that lists a value for each of `n` indices from `k` on. -/
theorem read_listed {β : Type} [Inhabited β] (f : Nat → β) (n k o : Nat) (h1 : k ≤ o) (h2 : o < k + n) :
    Memory.read ((List.range' k n).map fun a => (a, f a)) o = f o := by
  induction n generalizing k with
  | zero => omega
  | succ n ih =>
    rw [List.range'_succ, List.map_cons, Memory.read_cons]
    split
    · next h => rw [h]
    · exact ih (k + 1) (by omega) (by omega)

/-- A valid, whole table for the identity. -/
def fullTable : State :=
  { State.reset with state := .done, tableValid := true, memTag := (List.range' 0 4294967296).map fun a => (a, true) }

theorem fullTable_correct : TableCorrect idc fullTable := fun o => by
  show BitVec.ofNat 32 o.toNat = o
  simp

theorem fullTable_invariant : TableInvariant idc fullTable :=
  ⟨fun h => EngineState.noConfusion h, fun _ => ⟨fun o => read_listed (fun _ => true) _ _ _ (Nat.zero_le _) (by have := o.isLt; omega), fullTable_correct⟩⟩

/-- The state after reset satisfies the table invariant, for every configuration. -/
theorem reset_tableInvariant (c : Config) : TableInvariant c State.reset :=
  ⟨fun h => EngineState.noConfusion h, fun h => Bool.noConfusion h⟩

theorem reset_canonical : MemoriesCanonical State.reset :=
  ⟨rfl, rfl, rfl, rfl, rfl, rfl, rfl, List.Pairwise.nil⟩

theorem reset_walk : WalkCountersInRange State.reset := ⟨by decide, by decide, fun h => absurd rfl h⟩

theorem reset_hidden : HiddenInRange State.reset :=
  ⟨reset_walk, by decide, by decide, fun h => EngineState.noConfusion h⟩

/-- The state after reset satisfies the index invariant, for every configuration. -/
theorem reset_indexInvariant (c : Config) : IndexInvariant c State.reset :=
  ⟨fun h => EngineState.noConfusion h, fun h => Bool.noConfusion h⟩

/-- The five step lemmas of the invariants: the state after reset, and its step, at any configuration and at
the one at hand. -/
theorem witness_invariants_kept (c : Config) :
    (StatusConsistent c State.reset ∧ MemoriesCanonical State.reset ∧ TableInvariant c State.reset ∧
        IndexInvariant c State.reset ∧ HiddenInRange State.reset ∧ WalkCountersInRange State.reset) ∧
      stepOn c State.reset = .next State.reset ∧ step State.reset = .next State.reset :=
  ⟨⟨reset_consistent c, reset_canonical, reset_tableInvariant c, reset_indexInvariant c, reset_hidden, reset_walk⟩,
    rfl, rfl⟩

/-- `HiddenInRange` of a search in flight: the last candidate of the full alphabet, and none left of it. -/
theorem witness_hidden_search :
    HiddenInRange { busyAt .brute with alen := 256, bruteAt := some ⟨255, 255, 255, 255⟩, tested := 4294967295 } ∧
      HiddenInRange { busyAt .brute with alen := 256, bruteAt := none, tested := 4294967296 } :=
  ⟨⟨reset_walk, by decide, by decide, fun _ _ => ⟨by decide, .inr ⟨by decide, by decide, by decide, by decide⟩⟩⟩,
    ⟨reset_walk, by decide, by decide, fun _ _ => rfl⟩⟩

theorem witness_ValidTableInvertsH : TableInvariant idc fullTable ∧ fullTable.tableValid = true :=
  ⟨fullTable_invariant, rfl⟩

theorem idc_bijective : idc.BijectiveH := ⟨fun _ _ h => h, fun o => ⟨o, rfl⟩⟩

/-- Inputs 4 and 7 collide. -/
theorem tailc_not_bijective : ¬ tailc.BijectiveH := fun h => absurd (@h.1 4 7 (by decide)) (by decide)

/-- `BuildEndsWithInverseTable`, `DecomposerContract`, `ForwardContract`. -/
theorem witness_contracts_of_a_bijection :
    idc.BijectiveH ∧ idc.tableMem = true ∧ idc.hasFgd = true ∧ State.reset.tableValid = false ∧
      State.reset.indexValid = false ∧ acceptsWrites State.reset = true ∧ State.reset.host = [] :=
  ⟨idc_bijective, rfl, rfl, rfl, rfl, rfl, rfl⟩

/-- `BuildWithoutBijectionIsFatal`, `DecomposerWithoutBijectionIsFatal`. -/
theorem witness_no_bijection :
    ¬ tailc.BijectiveH ∧ tailc.tableMem = true ∧ tailc.hasFgd = true ∧ State.reset.tableValid = false ∧
      State.reset.indexValid = false ∧ acceptsWrites State.reset = true ∧ State.reset.host = [] :=
  ⟨tailc_not_bijective, rfl, rfl, rfl, rfl, rfl, rfl⟩

/-- `ForwardWalk`, its four clauses; in the second the first recorded value is one that `H` does not produce. -/
theorem witness_ForwardWalk :
    ((busyAt .fwd).state = .busy ∧ (busyAt .fwd).nrec = 0) ∧
      (∃ (s : State) (v a : Word), s.state = .busy ∧ 1 ≤ s.nrec ∧ s.nrec < 2 ^ 32 ∧ s.memRec.read s.nrec = some v ∧
        s.memRec.read 1 = some a ∧ Config.here.H v ≠ a) ∧
      (∃ (s : State) (v : Word), s.state = .busy ∧ 1 ≤ s.nrec ∧ s.memRec.read s.nrec = some v ∧
        s.memRec.read 1 = some (Config.here.H v) ∧ s.argCount.toNat % s.nrec = 0) ∧
      ∃ (s : State) (v x : Word), s.state = .busy ∧ 1 ≤ s.nrec ∧ s.memRec.read s.nrec = some v ∧
        s.memRec.read 1 = some (Config.here.H v) ∧ s.argCount.toNat % s.nrec ≠ 0 ∧
        s.memRec.read (s.argCount.toNat % s.nrec) = some x := by
  refine ⟨⟨rfl, rfl⟩, ⟨{ busyAt .fwd with nrec := 2, memRec := [(1, some (Config.here.H 0 + 1)), (2, some 0)] }, 0,
    Config.here.H 0 + 1, rfl, by decide, by decide, rfl, rfl, ?_⟩,
    ⟨{ busyAt .fwd with nrec := 2, memRec := [(1, some (Config.here.H 0)), (2, some 0)], argCount := 4 }, 0, rfl,
      by decide, rfl, rfl, rfl⟩,
    ⟨{ busyAt .fwd with nrec := 2, memRec := [(1, some (Config.here.H 0)), (2, some 0)], argCount := 3 }, 0,
      Config.here.H 0, rfl, by decide, rfl, rfl, by decide, rfl⟩⟩
  exact ne_succ _

/-- `InverseWalk`, its four clauses. -/
theorem witness_InverseWalk :
    let m : Memory (Option Word) := [(0, some 5), (5, some 9), (9, some 0)]
    let s : State := { busyAt .inv with argWord := 0, memT := m, memRec := [(1, some 5), (2, some 9), (3, some 0)] }
    (s.nrec = 0 ∧ s.memT.read s.argWord.toNat = some 5#32) ∧
      (1 ≤ ({ s with nrec := 1 } : State).nrec ∧ s.memRec.read 1 = some 5#32 ∧ s.memT.read (5#32).toNat = some 9#32 ∧
        9#32 ≠ 5#32) ∧
      (s.memRec.read 3 = some 0#32 ∧ s.memT.read (0#32).toNat = some 5#32 ∧ (0x6#64).toNat % 3 = 0) ∧
      (0x5#64).toNat % 3 ≠ 0 ∧ s.memRec.read ((0x5#64).toNat % 3) = some 9#32 := by decide

/-- `StepLimitIsFatal`, for FWD and for INV. -/
theorem witness_StepLimitIsFatal :
    ∃ (s : State) (v a : Word), s.state = .busy ∧ s.nrec = 2 ^ 32 ∧ s.memRec.read s.nrec = some v ∧
      s.memRec.read 1 = some a ∧ Config.here.H v ≠ a ∧ ∃ x, s.memT.read v.toNat = some x ∧ x ≠ a := by
  refine ⟨{ busyAt .fwd with
      nrec := 4294967296
      memRec := [(1, some (Config.here.H 0 + 1)), (4294967296, some 0)]
      memT := [(0, some (Config.here.H 0))] }, 0, Config.here.H 0 + 1, rfl, rfl, rfl, rfl, ?_, Config.here.H 0, rfl, ?_⟩
  all_goals exact ne_succ _

/-- `ForwardClosesAtFirstRepeat`: the walk from 7 of section 10, with `L = 2`; and `L = 1` at the boundary. -/
theorem witness_ForwardClosesAtFirstRepeat :
    (tailc.H^[2 + 1] 7 = tailc.H 7 ∧ ∀ k, 1 ≤ k → k < 2 → tailc.H^[k + 1] 7 ≠ tailc.H 7) ∧
      (tailc.H^[1 + 1] 9 = tailc.H 9 ∧ ∀ k, 1 ≤ k → k < 1 → tailc.H^[k + 1] 9 ≠ tailc.H 9) ∧
      acceptsWrites ({ State.reset with argWord := 7 } : State) = true := by
  refine ⟨⟨by decide, fun k h1 h2 => ?_⟩, ⟨by decide, fun k h1 h2 => by omega⟩, rfl⟩
  obtain rfl : k = 1 := by omega
  decide

/-- `ForwardOffCycleIsFatal`: from 2 the successor 1 never recurs. -/
theorem witness_ForwardOffCycleIsFatal :
    let s : State := { State.reset with argWord := 2 }
    (∀ k, 1 ≤ k → dropc.H^[k + 1] s.argWord ≠ dropc.H s.argWord) ∧ acceptsWrites s = true ∧ s.host = [] := by
  refine ⟨fun k hk => ?_, rfl, rfl⟩
  obtain ⟨m, rfl⟩ : ∃ m, k = m + 1 := ⟨k - 1, by omega⟩
  have h0 : ∀ m, dropH^[m] 0 = 0 := fun m => Function.iterate_fixed (by decide) m
  show dropH^[m + 1 + 1] 2 ≠ dropH 2
  rw [Function.iterate_succ_apply, Function.iterate_succ_apply, show dropH (dropH 2) = 0 by decide, h0]
  decide

/-- `InverseContract`, `ForwardAndInverseAgree`. -/
theorem witness_InverseContract :
    fullTable.tableValid = true ∧ TableCorrect idc fullTable ∧ acceptsWrites fullTable = true ∧ fullTable.host = [] :=
  ⟨rfl, fullTable_correct, rfl, rfl⟩

/-- `DecomposerSteps`, its clauses: the end of the candidates and the last one, indexed and not; a walk that
closes, goes on, and has `2^32` values; an element indexed and not; the last element of an orbit. -/
theorem witness_DecomposerSteps :
    (∃ s : State, s.state = .busy ∧ s.phase = .scan ∧ s.start = 2 ^ 32) ∧
      (∃ s : State, s.state = .busy ∧ s.phase = .scan ∧ s.start < 2 ^ 32 ∧ s.memOidx.read s.start ≠ none) ∧
      (∃ s : State, s.state = .busy ∧ s.phase = .scan ∧ s.start < 2 ^ 32 ∧ s.memOidx.read s.start = none) ∧
      (∃ (s : State) (v : Word), s.state = .busy ∧ s.phase = .walk ∧ s.start < 2 ^ 32 ∧
        s.memRec.read s.nrec = some v ∧ Config.here.H v = BitVec.ofNat 32 s.start) ∧
      (∃ (s : State) (v : Word), s.state = .busy ∧ s.phase = .walk ∧ s.start < 2 ^ 32 ∧
        s.memRec.read s.nrec = some v ∧ Config.here.H v ≠ BitVec.ofNat 32 s.start ∧ s.nrec ≠ 2 ^ 32) ∧
      (∃ (s : State) (v : Word), s.state = .busy ∧ s.phase = .walk ∧ s.start < 2 ^ 32 ∧
        s.memRec.read s.nrec = some v ∧ Config.here.H v ≠ BitVec.ofNat 32 s.start ∧ s.nrec = 2 ^ 32) ∧
      (∃ (s : State) (p : Nat) (w : Word), s.state = .busy ∧ s.phase = .index p ∧ p < s.nrec ∧
        s.memRec.read (p + 1) = some w ∧ s.memOidx.read w.toNat = none) ∧
      (∃ (s : State) (p : Nat) (w : Word), s.state = .busy ∧ s.phase = .index p ∧ p < s.nrec ∧
        s.memRec.read (p + 1) = some w ∧ s.memOidx.read w.toNat ≠ none) ∧
      ∃ (s : State) (p : Nat), s.state = .busy ∧ s.phase = .index p ∧ s.nrec ≤ p := by
  have ne_next : Config.here.H 0 ≠ BitVec.ofNat 32 (Config.here.H 0 + 1).toNat := by
    rw [BitVec.ofNat_toNat, BitVec.setWidth_eq]
    exact ne_succ _
  let d : State := busyAt .decomp
  refine ⟨⟨{ d with start := 4294967296 }, rfl, rfl, rfl⟩,
    ⟨{ d with start := 4294967295, memOidx := [(4294967295, some ⟨0, 0⟩)] }, by decide⟩,
    ⟨{ d with start := 4294967295 }, by decide⟩,
    ⟨{ d with phase := .walk, start := (Config.here.H 0).toNat, nrec := 1, memRec := [(1, some 0)] }, 0, rfl, rfl,
      (Config.here.H 0).isLt, rfl, ?_⟩,
    ⟨{ d with phase := .walk, start := (Config.here.H 0 + 1).toNat, nrec := 4294967295,
              memRec := [(4294967295, some 0)] }, 0, rfl, rfl, (Config.here.H 0 + 1).isLt, rfl, ne_next, by decide⟩,
    ⟨{ d with phase := .walk, start := (Config.here.H 0 + 1).toNat, nrec := 4294967296,
              memRec := [(4294967296, some 0)] }, 0, rfl, rfl, (Config.here.H 0 + 1).isLt, rfl, ne_next, rfl⟩,
    ⟨{ d with phase := .index 0, nrec := 1, memRec := [(1, some 5)] }, 0, 5, by decide⟩,
    ⟨{ d with phase := .index 0, nrec := 1, memRec := [(1, some 5)], memOidx := [(5, some ⟨0, 0⟩)] }, 0, 5, by decide⟩,
    ⟨{ d with phase := .index 1, nrec := 1 }, 1, by decide⟩⟩
  show Config.here.H 0 = BitVec.ofNat 32 (Config.here.H 0).toNat
  simp

/-- `IndexCollisionNeverReported`: a run of one step over a script. -/
theorem witness_IndexCollisionNeverReported :
    ∃ t, runOn idc 1 { State.reset with host := [.write 0 0x30] } = .next t ∧ t.state = .busy :=
  ⟨_, rfl, rfl⟩

/-- `OrbitPlaceIsOverflowFree`: the shortest orbit, and the last place of the longest. -/
theorem witness_OrbitPlaceIsOverflowFree :
    (0 < 1 ∧ 1 ≤ 2 ^ 32 ∧ 0 < 1) ∧ 0 < (2 : Nat) ^ 32 ∧ (2 : Nat) ^ 32 ≤ 2 ^ 32 ∧ (2 : Nat) ^ 32 - 1 < 2 ^ 32 := by
  decide

theorem witness_OrbitQueryCompletes :
    let s : State :=
      { busyAt .orbq with
        argWord := 8, argCount := 5, memOidx := [(8, some ⟨1, 1⟩)], memOdir := [(1, some ⟨3, 2⟩)]
        memOseq := [(3, some 7), (4, some 8)] }
    s.state = .busy ∧ s.memOidx.read s.argWord.toNat = some ⟨1, 1⟩ ∧ s.memOdir.read 1 = some ⟨3, 2⟩ ∧
      s.memOseq.read (3 + (1 + s.argCount.toNat) % 2) = some 7#32 := by decide

/-- `OrbitQueryContract`: an index that is right for the identity. -/
theorem witness_OrbitQueryContract :
    let s : State := { busyAt .orbq with indexValid := true, norb := 4294967296 }
    IndexCorrect idc s ∧ s.state = .busy := by
  refine ⟨fun w => ?_, rfl⟩
  have hw := w.isLt
  have e : (BitVec.ofNat 32 w.toNat).toNat = w.toNat := by simp
  refine ⟨?_, ?_, ?_, fun p hp => ?_⟩
  · show (BitVec.ofNat 32 w.toNat).toNat < 4294967296
    omega
  · show (0#32).toNat < (0#32).toNat + 1
    decide
  · show BitVec.ofNat 32 ((BitVec.ofNat 32 (BitVec.ofNat 32 w.toNat).toNat).toNat + (0#32).toNat) = w
    simp
  · have hp' : p < (0#32).toNat + 1 := hp
    obtain rfl : p = 0 := by
      rw [show (0#32).toNat = 0 from rfl] at hp'
      omega
    show BitVec.ofNat 32 (_ + (0 + 1) % 1) = BitVec.ofNat 32 (_ + 0)
    rfl

/-- A valid index for the identity: every Word an orbit of its own. -/
def fullIndex (i : Instr) : State :=
  { busyAt i with
    indexValid := true
    norb := 4294967296
    memOdir := (List.range' 0 4294967296).map fun a => (a, some ⟨a, 1⟩)
    memOseq := (List.range' 0 4294967296).map fun a => (a, some (BitVec.ofNat 32 a))
    memOidx := (List.range' 0 4294967296).map fun a => (a, some ⟨a, 0⟩) }

theorem fullIndex_dir (i : Instr) (id : Nat) (h : id < 4294967296) :
    (fullIndex i).memOdir.read id = some ⟨id, 1⟩ :=
  read_listed (fun a => some (⟨a, 1⟩ : OrbitDir)) _ _ _ (Nat.zero_le _) (by omega)

theorem fullIndex_seq (i : Instr) (k : Nat) (h : k < 4294967296) :
    (fullIndex i).memOseq.read k = some (BitVec.ofNat 32 k) :=
  read_listed (fun a => some (BitVec.ofNat 32 a)) _ _ _ (Nat.zero_le _) (by omega)

theorem fullIndex_idx (i : Instr) (k : Nat) (h : k < 4294967296) :
    (fullIndex i).memOidx.read k = some ⟨k, 0⟩ :=
  read_listed (fun a => some (⟨a, 0⟩ : OrbitPos)) _ _ _ (Nat.zero_le _) (by omega)

theorem fullIndex_readOdir (i : Instr) (id : Nat) (h : id < 4294967296) : readOdir idc (fullIndex i) id = ⟨id, 1⟩ := by
  rw [readOdir, fullIndex_dir i id h, Option.getD_some]

theorem fullIndex_element (i : Instr) (id : Nat) (h : id < 4294967296) :
    orbitElement idc (fullIndex i) id 0 = BitVec.ofNat 32 id := by
  rw [orbitElement, fullIndex_readOdir i id h, readOseq]
  simp [fullIndex_seq i id h]

theorem fullIndex_below (i : Instr) (k : Nat) (h : k ≤ 4294967296) : orbitLengthsBelow idc (fullIndex i) k = k := by
  induction k with
  | zero => rfl
  | succ k ih =>
    have ih := ih (by omega)
    unfold orbitLengthsBelow at ih ⊢
    rw [List.range_succ, List.map_append, List.sum_append, ih, List.map_singleton,
      fullIndex_readOdir i k (by omega), List.sum_singleton]

theorem fullIndex_orbits (i : Instr) : OrbitsSound idc (fullIndex i) where
  listed id h := by rw [fullIndex_dir i id h]; exact Option.some_ne_none _
  length id h := by rw [fullIndex_readOdir i id h]; exact ⟨Nat.le_refl 1, by show 1 ≤ 4294967296; decide⟩
  base id h := by rw [fullIndex_readOdir i id h, fullIndex_below i id h.le]
  written id p h hp := by
    rw [fullIndex_readOdir i id h] at hp ⊢
    obtain rfl : p = 0 := by simpa using hp
    rw [Nat.add_zero, fullIndex_seq i id h]
    exact Option.some_ne_none _
  place id p h hp := by
    rw [fullIndex_readOdir i id h] at hp
    obtain rfl : p = 0 := by simpa using hp
    have h' : id < 2 ^ 32 := h
    rw [fullIndex_element i id h, BitVec.toNat_ofNat, Nat.mod_eq_of_lt h', fullIndex_idx i id h]
  successor id p h hp := by
    rw [fullIndex_readOdir i id h] at hp ⊢
    obtain rfl : p = 0 := by simpa using hp
    change orbitElement idc (fullIndex i) id ((0 + 1) % 1) = orbitElement idc (fullIndex i) id 0
    rw [Nat.mod_one]

theorem fullIndex_entry (i : Instr) (w : Word) : readOidx idc (fullIndex i) w = ⟨w.toNat, 0⟩ := by
  rw [readOidx, fullIndex_idx i _ w.isLt, Option.getD_some]

theorem fullIndex_invariant (i : Instr) (h : i ≠ .decomp) : IndexInvariant idc (fullIndex i) := by
  refine ⟨fun _ hl => absurd hl (by cases i <;> first | exact absurd rfl h | decide), fun _ => ⟨fun w => ?_, fullIndex_orbits i, fun w => ?_⟩⟩
  · rw [isIndexed, fullIndex_idx i _ w.isLt]
    rfl
  · have hw : w.toNat < 4294967296 := w.isLt
    rw [fullIndex_entry, fullIndex_readOdir i _ hw]
    refine ⟨hw, Nat.one_pos, ?_, fun p hp => ?_⟩
    · show readOseq idc (fullIndex i) (w.toNat + 0) = w
      rw [readOseq, Nat.add_zero, fullIndex_seq i _ hw, Option.getD_some, BitVec.ofNat_toNat, BitVec.setWidth_eq]
    · obtain rfl : p = 0 := by simpa using hp
      change readOseq idc (fullIndex i) (w.toNat + (0 + 1) % 1) = readOseq idc (fullIndex i) (w.toNat + 0)
      rw [Nat.mod_one]

/-- `OrbitQueryContract` and `OrbitReadCompletes` with the index invariant: the last orbit, and its first position
out of range of all lengths. -/
theorem witness_valid_index :
    (IndexInvariant idc (fullIndex .orbq) ∧ (fullIndex .orbq).indexValid = true ∧ (fullIndex .orbq).state = .busy) ∧
      IndexInvariant idc (fullIndex .orbrd) ∧ (fullIndex .orbrd).indexValid = true ∧
      (fullIndex .orbrd).state = .busy ∧ (0xFFFFFFFF#32).toNat < (fullIndex .orbrd).norb ∧
      2 ^ 32 ≤ (0x100000000#64).toNat :=
  ⟨⟨fullIndex_invariant _ (by decide), rfl, rfl⟩, fullIndex_invariant _ (by decide), rfl, rfl, by decide, by decide⟩

/-- `OrbitReadCompletes`: the first id out of range, the first position out of range and one of `2^32`, and the
last element of the last orbit. -/
theorem witness_OrbitReadCompletes :
    let s : State :=
      { busyAt .orbrd with norb := 2, memOdir := [(1, some ⟨3, 2⟩)], memOseq := [(3, some 7), (4, some 8)] }
    (s.state = .busy ∧ s.norb ≤ ({ s with argWord := 2 } : State).argWord.toNat) ∧
      ((1#32).toNat < s.norb ∧ s.memOdir.read (1#32).toNat = some ⟨3, 2⟩ ∧ 2 ≤ (2#64).toNat ∧
        2 ≤ (0x100000000#64).toNat) ∧
      (1#64).toNat < 2 ∧ s.memOseq.read (3 + (1#64).toNat) = some 8#32 := by decide

/-- `BruteForceSteps`, its clauses: a match, no match, an empty alphabet, an exhausted search. -/
theorem witness_BruteForceSteps :
    (∃ (s : State) (k : BruteIdx), s.state = .busy ∧ 0 < s.alen.val ∧ s.bruteAt = some k ∧
        Config.here.H (decodeBuffer (candidate s k)) = s.argWord) ∧
      (∃ (s : State) (k : BruteIdx), s.state = .busy ∧ 0 < s.alen.val ∧ s.bruteAt = some k ∧
        Config.here.H (decodeBuffer (candidate s k)) ≠ s.argWord) ∧
      (∃ s : State, s.state = .busy ∧ s.alen.val = 0 ∧ s.bruteAt ≠ none) ∧
      ∃ s : State, s.state = .busy ∧ 0 < s.alen.val ∧ s.bruteAt = none := by
  let s : State := { busyAt .brute with alen := 256 }
  let k : BruteIdx := ⟨255, 255, 255, 255⟩
  refine ⟨⟨{ s with bruteAt := some k, argWord := Config.here.H (decodeBuffer (candidate s k)) }, k, rfl, by decide, rfl,
      rfl⟩,
    ⟨{ s with bruteAt := some k, argWord := Config.here.H (decodeBuffer (candidate s k)) + 1 }, k, rfl, by decide, rfl, ?_⟩,
    ⟨busyAt .brute, by decide⟩, ⟨{ s with bruteAt := none }, by decide⟩⟩
  exact ne_succ (Config.here.H (decodeBuffer (candidate s k)))

/-- `BruteForceContract` over "ab" with the identity: "aaaa" is candidate 0, "bbbb" the last, and 0 has no
preimage, nor has anything over the empty alphabet. -/
theorem witness_BruteForceContract :
    let s : State := ab State.reset
    (idc.hasBf = true ∧ acceptsWrites s = true ∧ s.host = []) ∧
      (0 < s.alen.val ^ 4 ∧ idc.H (decodeBuffer (candidateNumber s 0)) = 0x61616161) ∧
      (15 < s.alen.val ^ 4 ∧ idc.H (decodeBuffer (candidateNumber s 15)) = 0x62626262 ∧
        ∀ m, m < 15 → idc.H (decodeBuffer (candidateNumber s m)) ≠ 0x62626262) ∧
      (∀ k, k < s.alen.val ^ 4 → idc.H (decodeBuffer (candidateNumber s k)) ≠ 0) ∧
      ∀ k, ¬ k < State.reset.alen.val ^ 4 := by
  intro s
  refine ⟨by decide, by decide +kernel, ⟨by decide, by decide +kernel, by decide +kernel⟩, ?_, fun k h => ?_⟩
  · show ∀ k, k < 16 → _
    decide +kernel
  · simp [State.reset] at h

theorem witness_ConsistentStateNeverStops : StatusConsistent Config.here State.reset := reset_consistent _

theorem witness_EveryCommandEnds :
    (busyAt .decomp).state = .busy ∧ (busyAt .decomp).host = [] ∧ StatusConsistent idc (busyAt .decomp) ∧
      WalkCountersInRange (busyAt .decomp) :=
  ⟨rfl, rfl, busyAt_consistent idc .decomp rfl rfl, reset_walk⟩

end Sys2Proof.Tests
end

section
/-! The bridge between the machine at hand and the machine at a configuration: one lemma per level, `exec`
(`exec_eq_execOn`), then `step`, which runs the same text over it. -/

namespace Sys2Proof.Machine

/-- `step` and `stepOn` are the same `turn`, run over dispatches that agree on every command and state. -/
theorem step_eq_stepOn (s : State) : step s = stepOn Config.here s := by
  have dispatch_eq : exec = fun i u => .next (execOn Config.here i u) := funext₂ exec_eq_execOn
  rw [step, stepOn, dispatch_eq]

/-- Settles O3, by the agreement of the dispatches and of the steps built on them. -/
theorem machineAtHandIsOneConfiguration : Obligations.MachineAtHandIsOneConfiguration :=
  ⟨exec_eq_execOn, step_eq_stepOn⟩

end Sys2Proof.Machine
end

section
/-! What the operations of `10_state.md` do to the host-visible registers, said once: starting a command, the
reset, a host write, the engine's own step. -/

namespace Sys2Proof.Machine

/-! ### Starting a command: the hidden state is initialised, no other register than the status changes -/

section
variable (i : Instr) (s : State)

@[simp] theorem startCommand_state : (startCommand i s).state = .busy := by cases i <;> rfl
@[simp] theorem startCommand_tableValid : (startCommand i s).tableValid = s.tableValid := by cases i <;> rfl
@[simp] theorem startCommand_indexValid : (startCommand i s).indexValid = s.indexValid := by cases i <;> rfl
@[simp] theorem startCommand_wdrop : (startCommand i s).wdrop = s.wdrop := by cases i <;> rfl
@[simp] theorem startCommand_err : (startCommand i s).err = none := by cases i <;> rfl
@[simp] theorem startCommand_errinfo : (startCommand i s).errinfo = 0 := by cases i <;> rfl
@[simp] theorem startCommand_lastop : (startCommand i s).lastop = s.lastop := by cases i <;> rfl
@[simp] theorem startCommand_resWord : (startCommand i s).resWord = s.resWord := by cases i <;> rfl
@[simp] theorem startCommand_resLen : (startCommand i s).resLen = s.resLen := by cases i <;> rfl
@[simp] theorem startCommand_resOrbit : (startCommand i s).resOrbit = s.resOrbit := by cases i <;> rfl
@[simp] theorem startCommand_resPos : (startCommand i s).resPos = s.resPos := by cases i <;> rfl
@[simp] theorem startCommand_resBuf : (startCommand i s).resBuf = s.resBuf := by cases i <;> rfl
@[simp] theorem startCommand_alen : (startCommand i s).alen = s.alen := by cases i <;> rfl
@[simp] theorem startCommand_alpha : (startCommand i s).alpha = s.alpha := by cases i <;> rfl

end

/-! ### Issue checks -/

/-- The issue check reads the two valid flags only. -/
theorem issueCheck_congr (c : Config) (i : Instr) {s t : State} (ht : t.tableValid = s.tableValid)
    (hi : t.indexValid = s.indexValid) : issueCheck c i t = issueCheck c i s := by
  cases i <;> simp only [issueCheck, ht, hi]

/-- An accepted BUILD has the table memory. -/
theorem tableMem_of_issueCheck_build {c : Config} {s : State} (h : issueCheck c .build s = none) :
    c.tableMem = true := by
  cases hm : c.tableMem with
  | true => rfl
  | false => simp [issueCheck, hm] at h

/-- A command that passes its checks starts. -/
theorem issue_start {c : Config} {i : Instr} {s : State} (hu : unitPresent c i = true)
    (hc : issueCheck c i s = none) : issue c i s = startCommand i (noteAccepted (opcodeOf i) s) := by
  simp [issue, hu, hc]

/-- A command of an absent unit is refused as its word is (R94, R207). -/
theorem issue_absent {c : Config} {i : Instr} (s : State) (hu : unitPresent c i = false) :
    issue c i s = rejectWord (encode i) s := by
  simp [issue, hu, rejectWord, opcodeOf]

/-! ### The bits a write keeps -/

theorem low32_eq_setWidth (v : Count) : low32 v = v.setWidth 32 :=
  BitVec.eq_of_toNat_eq (by simp [low32_toNat])

theorem low8_eq_setWidth (v : Count) : low8 v = v.setWidth 8 :=
  BitVec.eq_of_toNat_eq (by simp [low8_toNat])

/-! ### Host moves -/

/-- A store sets `WDROP` or leaves it alone; it never clears it (R31). -/
theorem storeReg_keeps_wdrop (r : Reg) (v : Count) (s : State) (h : s.wdrop = true) :
    (storeReg r v s).wdrop = true := by
  cases r with
  | alen =>
    simp only [storeReg, writeAlen]
    split
    · exact h
    · rfl
  | _ => first | exact h | rfl

/-- A store to a present register leaves the alphabet of an absent brute-force unit alone (R27, R34). -/
theorem storeReg_alphabet_absent {c : Config} {r : Reg} (v : Count) (s : State) (hp : regPresent c r = true)
    (hb : c.hasBf = false) : (storeReg r v s).alen = s.alen ∧ (storeReg r v s).alpha = s.alpha := by
  cases r with
  | alen => exact absurd (hb.symm.trans hp) (by decide)
  | alpha j => exact absurd (hb.symm.trans hp) (by decide)
  | _ => exact ⟨rfl, rfl⟩

/-- The step on a host write is the write, with that move taken off the list. -/
theorem stepOn_write {c : Config} {s : State} {idx : Nat} {v : Count} {rest : List HostStep}
    (h : s.host = .write idx v :: rest) :
    stepOn c s = hostWrite (fun i u => .next (execOn c i u)) c idx v { s with host := rest } := by
  simp only [stepOn, turn, h, hostMove]

/-- The step on a host read records what is read. -/
theorem stepOn_read {c : Config} {s : State} {idx : Nat} {rest : List HostStep} (h : s.host = .read idx :: rest) :
    stepOn c s = .next { s with host := rest, seen := (idx, hostRead c s idx) :: s.seen } := by
  simp only [stepOn, turn, h, hostMove]

/-- The step on a reset. -/
theorem stepOn_reset {c : Config} {s : State} {rest : List HostStep} (h : s.host = .reset :: rest) :
    stepOn c s = .next (resetEngine { s with host := rest }) := by
  simp only [stepOn, turn, h, hostMove]

/-- What a host write cannot do: it leaves every result and both valid flags alone, unless it is the BUILD that
enters `FATAL` without table memory, which clears the flags; and it never clears `WDROP` (R31, R43). -/
theorem hostWrite_frame {c : Config} {idx : Nat} {v : Count} {s t : State}
    (h : hostWrite (fun i u => .next (execOn c i u)) c idx v s = .next t) :
    (t.resWord = s.resWord ∧ t.resLen = s.resLen ∧ t.resOrbit = s.resOrbit ∧ t.resPos = s.resPos ∧
        t.resBuf = s.resBuf) ∧
      (t.tableValid = s.tableValid ∧ t.indexValid = s.indexValid ∨
        t.state = .fatal ∧ t.tableValid = false ∧ t.indexValid = false) ∧
      (s.wdrop = true → t.wdrop = true) := by
  rcases hostWrite_cases c idx v s t h with rfl | ⟨_, r, _, _, _, rfl⟩ | ⟨_, _, _, _, rfl⟩ | ⟨_, _, i, _, rfl⟩
  · simp
  · have hw := storeReg_keeps_wdrop r v s
    obtain ⟨_, _, _, _, _, _, e⟩ := storeReg_shape r v s
    rw [e] at hw ⊢
    exact ⟨⟨rfl, rfl, rfl, rfl, rfl⟩, .inl ⟨rfl, rfl⟩, hw⟩
  · simp [rejectWord]
  · rcases issue_outcomes c i s with ⟨_, e, _⟩ | ⟨e, _, _⟩ | ⟨_, _, e⟩ <;> rw [e] <;> simp

end Sys2Proof.Machine
end

section
/-! The status registers stay consistent (rules R29 to R32, R202, R207). -/

namespace Sys2Proof.Machine

variable {c : Config} {s : State}

/-- Every alphabet byte is 0 after a reset (R48). -/
theorem resetEngine_alphabetByte (s : State) (j : Fin 256) : alphabetByte (resetEngine s) j = 0 := by
  simp [alphabetByte, resetEngine, State.reset, Vector.get]

/-- The state after a reset is consistent, whatever it was before (R48). -/
theorem resetEngine_consistent (c : Config) (s : State) : StatusConsistent c (resetEngine s) :=
  ⟨⟨⟨rfl, rfl⟩, rfl, ⟨rfl, rfl, rfl, rfl, rfl⟩, rfl, rfl⟩, fun _ => rfl, fun _ => ⟨rfl, rfl, rfl⟩,
    fun _ => ⟨rfl, resetEngine_alphabetByte s⟩⟩

/-- Non-fatal error entry reports its error (R203). -/
theorem enterError_consistent {e : EngineError} (he : isFatalCode (errorCode e) = false)
    (h : AbsentUnitsUntouched c s) : StatusConsistent c (enterError e s) :=
  ⟨⟨e, he, rfl, rfl⟩, h⟩

/-- Fatal error entry reports its error and clears the flags (R204). -/
theorem enterFatal_consistent {e : EngineError} (he : isFatalCode (errorCode e) = true)
    (h : AbsentUnitsUntouched c s) : StatusConsistent c (enterFatal e s) := by
  obtain ⟨_, fgd, bf⟩ := h
  exact ⟨⟨⟨e, he, rfl, rfl⟩, rfl, rfl⟩, fun _ => rfl, fun hf => ⟨rfl, (fgd hf).2⟩, bf⟩

/-- A command that starts passed its checks (R39). -/
theorem startCommand_consistent {i : Instr} (hu : unitPresent c i = true) (hc : issueCheck c i s = none)
    (h : AbsentUnitsUntouched c s) : StatusConsistent c (startCommand i (noteAccepted (opcodeOf i) s)) := by
  obtain ⟨mem, fgd, bf⟩ := h
  refine ⟨?_, by simpa using mem, by simpa using fgd, by simpa [alphabetByte] using bf⟩
  have hc' : issueCheck c i (startCommand i (noteAccepted (opcodeOf i) s)) = none :=
    (issueCheck_congr c i (by simp) (by simp)).trans hc
  simp only [StateMeaning, startCommand_state]
  exact ⟨⟨by simp, by simp⟩, i, by simp, hu, hc'⟩

/-- A store of the host keeps the status registers consistent. -/
theorem storeReg_consistent {r : Reg} {v : Count} (hp : regPresent c r = true) (h : StatusConsistent c s) :
    StatusConsistent c (storeReg r v s) := by
  have absent := storeReg_alphabet_absent v s hp
  obtain ⟨_, _, _, _, _, _, e⟩ := storeReg_shape r v s
  obtain ⟨meaning, mem, fgd, bf⟩ := h
  refine ⟨by rw [e]; exact meaning, by rw [e]; exact mem, by rw [e]; exact fgd, fun hb => ?_⟩
  obtain ⟨ha, hp⟩ := absent hb
  simpa only [alphabetByte, ha, hp] using bf hb

/-- A host write keeps the status registers consistent. -/
theorem hostWrite_consistent {idx : Nat} {v : Count} {t : State} (h : StatusConsistent c s)
    (hw : hostWrite (fun i u => .next (execOn c i u)) c idx v s = .next t) : StatusConsistent c t := by
  rcases hostWrite_cases c idx v s t hw with rfl | ⟨_, r, _, hp, _, rfl⟩ | ⟨_, _, _, _, rfl⟩ | ⟨_, _, i, _, rfl⟩
  · exact h
  · exact storeReg_consistent hp h
  · exact enterError_consistent rfl h.2
  · rcases issue_outcomes c i s with ⟨e, he, hf⟩ | ⟨he, _, _⟩ | ⟨hu, hc, he⟩ <;> rw [he]
    · exact enterError_consistent hf h.2
    · exact enterFatal_consistent rfl h.2
    · exact startCommand_consistent hu hc h.2

/-- The engine's own step keeps the status registers consistent: a completed command had its unit and its
memory, since it passed its checks when it was accepted. -/
theorem bodyOn_consistent {i : Instr} (h : StatusConsistent c s) (hb : s.state = .busy)
    (hl : s.lastop = opcodeOf i) : StatusConsistent c (bodyOn c i s) := by
  obtain ⟨meaning, absent⟩ := h
  obtain ⟨⟨noErr, noInfo⟩, j, hj, hu, hc⟩ : NoError s ∧ InFlightAccepted c s := by
    simpa only [StateMeaning, hb] using meaning
  obtain rfl : i = j := opcodeOf_inj _ _ (hl.symm.trans hj)
  obtain ⟨mem, fgd, bf⟩ := absent
  obtain ⟨_, _, _, alen, alpha, _, lastop, _, _⟩ := bodyOn_frame c i s
  have bf' : c.hasBf = false → (bodyOn c i s).alen = 0 ∧ ∀ j, alphabetByte (bodyOn c i s) j = 0 := by
    simpa only [alphabetByte, alen, alpha] using bf
  rcases bodyOn_outcomes c i s hb with ⟨hs, tv, iv, er, info, _, _, orbit, pos, _⟩ |
    ⟨hs, er, info, tv, iv, res⟩ | ⟨e, he, hf, _⟩ | ⟨k, w, n, he⟩
  · have hc' : issueCheck c i (bodyOn c i s) = none := (issueCheck_congr c i tv iv).trans hc
    refine ⟨?_, by rwa [tv], by rwa [iv, orbit, pos], bf'⟩
    simp only [StateMeaning, hs]
    exact ⟨⟨er.trans noErr, info.trans noInfo⟩, i, lastop.trans hl, hu, hc'⟩
  · refine ⟨?_, fun hm => ?_, fun hf => ?_, bf'⟩
    · simp only [StateMeaning, hs]
      exact ⟨er.trans noErr, info.trans noInfo⟩
    · rcases tv with tv | ⟨rfl, _⟩
      · rw [tv, mem hm]
      · exact absurd (hm.symm.trans (tableMem_of_issueCheck_build hc)) (by decide)
    · have hi : i ∉ [Instr.decomp, .orbq, .orbrd] := by
        intro hi
        simp only [List.mem_cons, List.not_mem_nil, or_false] at hi
        rcases hi with rfl | rfl | rfl <;> exact absurd (hf.symm.trans hu) (by decide)
      simp only [List.mem_cons, List.not_mem_nil, or_false, not_or] at hi
      obtain ⟨ho, hp⟩ := res (by simp [hi])
      rw [ho, hp, iv.resolve_right fun h => hi.1 h.1]
      exact fgd hf
  · rw [he]
    exact enterError_consistent hf ⟨mem, fgd, bf⟩
  · rw [he]
    exact enterFatal_consistent (s := s) (e := .invariant k w) rfl ⟨mem, fgd, bf⟩

/-- Every step keeps the status registers consistent, at any configuration. -/
theorem stepOn_consistent {t : State} (h : StatusConsistent c s) (hst : stepOn c s = .next t) :
    StatusConsistent c t := by
  rcases stepOn_cases c s t hst with ⟨rest, _, rfl⟩ | ⟨idx, rest, _, rfl⟩ | ⟨idx, v, rest, _, hw⟩ |
    ⟨rest, _, _, rfl⟩ | ⟨rest, i, _, hb, hl, rfl⟩
  · exact resetEngine_consistent c _
  · exact h
  · exact hostWrite_consistent (s := { s with host := rest }) h hw
  · exact h
  · exact bodyOn_consistent (s := { s with host := rest }) h hb hl

/-- Settles O56, by the step's cases: a reset, a read, a write, nothing, the engine's own step. -/
theorem stepKeepsStatusConsistent : Obligations.StepKeepsStatusConsistent :=
  ⟨fun _ _ _ => stepOn_consistent, fun s _ h hst => stepOn_consistent h (step_eq_stepOn s ▸ hst)⟩

end Sys2Proof.Machine
end

section
/-! What may change in a step: `STATE`, the flags, the results, what the host can read (rules R31, R40 to R44). -/

namespace Sys2Proof.Machine

/-- Settles O5, by the step's cases; a write moves `STATE` as issuing does, the engine as its outcomes say. -/
theorem stateChangesOnlyAsListed : Obligations.StateChangesOnlyAsListed := by
  intro c s t hst hne
  rcases stepOn_cases c s t hst with ⟨rest, hh, rfl⟩ | ⟨_, _, _, rfl⟩ | ⟨idx, v, rest, hh, hw⟩ |
    ⟨_, _, _, rfl⟩ | ⟨rest, i, hh, hb, _, rfl⟩
  · exact .inl ⟨rest, hh, rfl⟩
  · exact absurd rfl hne
  · rcases hostWrite_cases c idx v _ t hw with rfl | ⟨_, r, _, _, _, rfl⟩ | ⟨acc, rfl, _, _, rfl⟩ |
      ⟨acc, rfl, i, hd, rfl⟩
    · exact absurd rfl hne
    · obtain ⟨_, _, _, _, _, _, e⟩ := storeReg_shape r v { s with host := rest }
      exact absurd (by rw [e]) hne
    · exact .inr (.inl ⟨v, rest, hh, acc, .inl rfl⟩)
    · refine .inr (.inl ⟨v, rest, hh, acc, ?_⟩)
      rcases issue_outcomes c i { s with host := rest } with ⟨_, e, _⟩ | ⟨e, rfl, hm⟩ | ⟨_, _, e⟩ <;> rw [e]
      · exact .inl rfl
      · exact .inr (.inr ⟨rfl, eq_encode_of_decode _ _ hd, hm⟩)
      · exact .inr (.inl (startCommand_state ..))
  · exact absurd rfl hne
  · refine .inr (.inr ⟨hb, hh, ?_⟩)
    rcases bodyOn_outcomes c i { s with host := rest } hb with ⟨hs, _⟩ | ⟨hs, _⟩ | ⟨e, he, _, hc⟩ | ⟨_, _, _, he⟩
    · exact absurd (hs.trans hb.symm) hne
    · exact .inl hs
    · rw [he]
      exact .inr (.inl ⟨rfl, hc.imp (congrArg some) (congrArg some)⟩)
    · rw [he]
      exact .inr (.inr ⟨rfl, rfl⟩)

/-- What the engine's own step does to the two valid flags (R31): only completing BUILD or DECOMP sets one, only a
fatal error clears one. -/
theorem bodyOn_flags {c : Config} {i : Instr} {s : State} (hb : s.state = .busy) :
    (s.tableValid = false → (bodyOn c i s).tableValid = true → i = .build ∧ (bodyOn c i s).state = .done) ∧
      (s.indexValid = false → (bodyOn c i s).indexValid = true → i = .decomp ∧ (bodyOn c i s).state = .done) ∧
      ((s.tableValid = true ∧ (bodyOn c i s).tableValid = false) ∨
          (s.indexValid = true ∧ (bodyOn c i s).indexValid = false) → (bodyOn c i s).state = .fatal) := by
  rcases bodyOn_outcomes c i s hb with ⟨_, tv, iv, _⟩ | ⟨hs, _, _, tv, iv, _⟩ | ⟨e, he, _⟩ | ⟨_, _, _, he⟩
  · simp +contextual [tv, iv]
  · refine ⟨fun h0 h1 => ⟨?_, hs⟩, fun h0 h1 => ⟨?_, hs⟩, fun h => ?_⟩
    · exact (tv.resolve_left fun e => by simp [e, h0] at h1).1
    · exact (iv.resolve_left fun e => by simp [e, h0] at h1).1
    · rcases h with ⟨h0, h1⟩ | ⟨h0, h1⟩
      · rcases tv with e | ⟨_, e⟩ <;> simp [e, h0] at h1
      · rcases iv with e | ⟨_, e⟩ <;> simp [e, h0] at h1
  · simp +contextual [he]
  · simp [he]

/-- Settles O6, by the step's cases: what a write and the engine's own step do to the flags is said by
`hostWrite_frame`, `bodyOn_flags` and `bodyOn_frame`. -/
theorem flagsChangeOnlyAsListed : Obligations.FlagsChangeOnlyAsListed := by
  intro c s t hst
  rcases stepOn_cases c s t hst with ⟨rest, hh, rfl⟩ | ⟨_, _, _, rfl⟩ | ⟨idx, v, rest, hh, hw⟩ |
    ⟨_, _, _, rfl⟩ | ⟨rest, i, _, hb, hl, rfl⟩
  · simp [resetEngine, State.reset, hh]
  · simp +contextual
  · obtain ⟨_, flags, wdrop⟩ := hostWrite_frame hw
    have hset : s.wdrop = true → t.wdrop = true := wdrop
    rcases flags with ⟨tv, iv⟩ | ⟨hs, tv, iv⟩
    · simp +contextual [tv, iv, hh, hset]
    · simp +contextual [tv, iv, hs, hh, hset]
  · simp +contextual
  · obtain ⟨setTable, setIndex, clear⟩ := bodyOn_flags (c := c) (i := i) (s := { s with host := rest }) hb
    obtain ⟨_, _, _, _, _, wdrop, _⟩ := bodyOn_frame c i { s with host := rest }
    refine ⟨fun h0 h1 => ?_, fun h0 h1 => ?_, fun h => .inr (clear h), fun h0 h1 => ?_, fun h0 h1 => ?_⟩
    · obtain ⟨rfl, hd⟩ := setTable h0 h1
      exact ⟨hb, hl, hd⟩
    · obtain ⟨rfl, hd⟩ := setIndex h0 h1
      exact ⟨hb, hl, hd⟩
    · exact absurd (h1.symm.trans (wdrop.trans h0)) (by decide)
    · exact absurd (h1.symm.trans (wdrop.trans h0)) (by decide)

/-- The engine's own step leaves every result alone unless it completes its command (R43, R203, R204). -/
theorem bodyOn_results_kept {c : Config} {i : Instr} {s : State} (hb : s.state = .busy)
    (hd : (bodyOn c i s).state ≠ .done) :
    (bodyOn c i s).resWord = s.resWord ∧ (bodyOn c i s).resLen = s.resLen ∧ (bodyOn c i s).resOrbit = s.resOrbit ∧
      (bodyOn c i s).resPos = s.resPos ∧ (bodyOn c i s).resBuf = s.resBuf := by
  rcases bodyOn_outcomes c i s hb with ⟨_, _, _, _, _, results⟩ | ⟨hs, _⟩ | ⟨_, he, _⟩ | ⟨_, _, _, he⟩
  · exact results
  · exact absurd hs hd
  · simp [he]
  · simp [he]

/-- Settles O7: a step that is neither a reset nor a completion leaves every result alone. -/
theorem resultsChangeOnlyAtComplete : Obligations.ResultsChangeOnlyAtComplete := by
  intro c s t hst hne
  have changed : ¬(t.resWord = s.resWord ∧ t.resLen = s.resLen ∧ t.resOrbit = s.resOrbit ∧ t.resPos = s.resPos ∧
      t.resBuf = s.resBuf) := by
    simpa only [not_and_or] using hne
  rcases stepOn_cases c s t hst with ⟨rest, hh, rfl⟩ | ⟨_, _, _, rfl⟩ | ⟨_, _, _, _, hw⟩ |
    ⟨_, _, _, rfl⟩ | ⟨rest, _, _, hb, _, rfl⟩
  · exact .inr ⟨rest, hh⟩
  · exact absurd ⟨rfl, rfl, rfl, rfl, rfl⟩ changed
  · exact absurd (hostWrite_frame hw).1 changed
  · exact absurd ⟨rfl, rfl, rfl, rfl, rfl⟩ changed
  · exact .inl ⟨hb, not_not.1 fun hd => changed (bodyOn_results_kept (s := { s with host := rest }) hb hd)⟩

/-- `STATUS` shows `STATE`, the flags, `ERR` and `LASTOP`, and nothing else (R29). -/
theorem statusWord_congr {s t : State} (hs : t.state = s.state) (ht : t.tableValid = s.tableValid)
    (hi : t.indexValid = s.indexValid) (hw : t.wdrop = s.wdrop) (he : t.err = s.err) (hl : t.lastop = s.lastop) :
    statusWord t = statusWord s := by
  simp only [statusWord, errField, hs, ht, hi, hw, he, hl]

/-- Settles O8: a step that stays `BUSY` changes neither `STATUS`, nor `ERRINFO`, nor a result (its outcome), nor
an operand, nor the alphabet (its frame). -/
theorem nothingIntermediateIsObservable : Obligations.NothingIntermediateIsObservable := by
  intro c i s hb hb' idx
  rw [execOn_busy c i s hb] at hb' ⊢
  obtain ⟨argWord, argCount, argBuf, alen, alpha, wdrop, lastop, _, _⟩ := bodyOn_frame c i s
  rcases bodyOn_outcomes c i s hb with ⟨hs, tv, iv, er, info, results⟩ | ⟨hs, _⟩ | ⟨_, he, _⟩ | ⟨_, _, _, he⟩
  · exact hostRead_congr c s _ (statusWord_congr (hs.trans hb.symm) tv iv wdrop er lastop) info
      ⟨argWord, argCount, argBuf⟩ results alen alpha idx
  · simp [hs] at hb'
  · simp [he] at hb'
  · simp [he] at hb'

/-- Settles O9: while `BUSY` every write of the host is dropped, and the engine writes no operand. -/
theorem operandsAreStableWhileBusy : Obligations.OperandsAreStableWhileBusy := by
  intro c s t hb hr hst
  rcases stepOn_cases c s t hst with ⟨rest, hh, _⟩ | ⟨_, _, _, rfl⟩ | ⟨_, _, _, _, hw⟩ |
    ⟨_, _, _, rfl⟩ | ⟨rest, i, _, _, _, rfl⟩
  · exact absurd hh (hr rest)
  · exact ⟨rfl, rfl, rfl, rfl, rfl⟩
  · rw [hostWrite_not_accepting _ _ _ _ _ (by simp [acceptsWrites, hb])] at hw
    cases hw
    exact ⟨rfl, rfl, rfl, rfl, rfl⟩
  · exact ⟨rfl, rfl, rfl, rfl, rfl⟩
  · obtain ⟨argWord, argCount, argBuf, alen, alpha, _⟩ := bodyOn_frame c i { s with host := rest }
    exact ⟨argWord, argCount, argBuf, alen, alpha⟩

end Sys2Proof.Machine
end

section
/-! The register interface (rules R27 to R29, R33 to R38). -/

namespace Sys2Proof.Machine

/-- A host read of a register that is always there returns its value. -/
theorem hostRead_present {c : Config} (s : State) {r : Reg} (hp : regPresent c r = true) :
    hostRead c s (regIndex r) = regValue c s r := by
  rw [hostRead_regIndex, if_pos hp]

/-- Settles O11: the step on a read is `stepOn_read`; the values are those of the register at each index of R27. -/
theorem hostReadsReturnRegisters : Obligations.HostReadsReturnRegisters := by
  refine ⟨fun _ _ _ _ => stepOn_read, fun c s => ?_⟩
  have value (r : Reg) (hp : regPresent c r = true) := hostRead_present s hp
  exact ⟨value .cmd rfl, value .status rfl, value .errinfo rfl, value .config rfl, value .argWord rfl,
    value .argCount rfl, fun j => value (.argBuf j) rfl, value .resWord rfl, value .resLen rfl, value .resOrbit rfl,
    value .resPos rfl, fun j => value (.resBuf j) rfl, hostRead_regIndex c s .alen,
    fun j => hostRead_regIndex c s (.alpha j), fun idx h => hostRead_unassigned c s idx (mappedReg_eq_none idx h)⟩

/-- The fields of `STATUS` stand at their bits (R29): bit by bit. -/
theorem statusWord_fields (s : State) :
    (statusWord s).extractLsb' 0 3 = stateBits s.state ∧ (statusWord s).getLsbD 3 = false ∧
      (statusWord s).getLsbD 4 = s.tableValid ∧ (statusWord s).getLsbD 5 = s.indexValid ∧
      (statusWord s).getLsbD 6 = s.wdrop ∧ (statusWord s).getLsbD 7 = false ∧
      (statusWord s).extractLsb' 8 8 = errField s ∧ (statusWord s).extractLsb' 16 8 = s.lastop ∧
      (statusWord s).extractLsb' 24 8 = 0 := by
  unfold statusWord
  refine ⟨?state, by simp, by simp, by simp, by simp, by simp, ?err, ?lastop, ?reserved⟩ <;>
    ext i hi <;> interval_cases i <;> simp

theorem nworkers_lt (c : Config) : c.nworkers < 65536 := by
  have := c.extraWorkers.isLt
  simp only [Config.nworkers]
  omega

/-- A number packed above 16 lower bits. -/
theorem above_low16_toNat (a : Count) (n : Nat) (ha : a.toNat < 65536) (hn : n < 65536) :
    (a ||| BitVec.ofNat 64 n <<< 16).toNat = a.toNat + n * 65536 := by
  have hs : n <<< 16 < 2 ^ 64 := by rw [Nat.shiftLeft_eq]; omega
  rw [BitVec.toNat_or, BitVec.toNat_shiftLeft, BitVec.toNat_ofNat, Nat.mod_eq_of_lt (a := n) (by omega),
    Nat.mod_eq_of_lt hs,
    Nat.or_comm, ← Nat.shiftLeft_add_eq_or_of_lt ha, Nat.shiftLeft_eq, Nat.add_comm]

/-- `CONFIG` as a number (R33). -/
theorem configWord_toNat (c : Config) :
    (configWord c).toNat = 1 + c.tableMem.toNat * 256 + c.hasFgd.toNat * 512 + c.hasBf.toNat * 1024 +
      c.nworkers * 65536 := by
  unfold configWord
  cases c.tableMem <;> cases c.hasFgd <;> cases c.hasBf <;> exact above_low16_toNat _ _ (by decide) (nworkers_lt c)

/-- The fields of `CONFIG` stand at their bits (R33): the one-bit fields bit by bit, the others as numbers. -/
theorem configWord_fields (c : Config) :
    (configWord c).extractLsb' 0 8 = 0x01 ∧ (configWord c).getLsbD 8 = c.tableMem ∧
      (configWord c).getLsbD 9 = c.hasFgd ∧ (configWord c).getLsbD 10 = c.hasBf ∧
      (configWord c).extractLsb' 11 5 = 0 ∧ ((configWord c).extractLsb' 16 16).toNat = c.nworkers ∧
      (configWord c).extractLsb' 32 32 = 0 := by
  have hc := configWord_toNat c
  have := c.tableMem.toNat_le
  have := c.hasFgd.toNat_le
  have := c.hasBf.toNat_le
  have := nworkers_lt c
  refine ⟨BitVec.eq_of_toNat_eq ?_, by simp [configWord], by simp [configWord], by simp [configWord],
    BitVec.eq_of_toNat_eq ?_, ?_, BitVec.eq_of_toNat_eq ?_⟩ <;>
    simp only [BitVec.extractLsb'_toNat, Nat.shiftRight_eq_div_pow, BitVec.reduceToNat, Nat.reducePow, hc] <;> omega

/-- Settles O12, by the fields of the two words; a level output is the test of `STATE` for its value. -/
theorem statusAndConfigLayout : Obligations.StatusAndConfigLayout :=
  ⟨statusWord_fields, ⟨rfl, rfl, rfl, rfl, rfl⟩, fun _ => ⟨beq_iff_eq, beq_iff_eq, beq_iff_eq, beq_iff_eq⟩,
    configWord_fields⟩

/-- The step on a write to a present register other than `CMD`, in a state that takes writes. -/
theorem stepOn_write_register {c : Config} {s : State} {r : Reg} {v : Count} {rest : List HostStep}
    (acc : acceptsWrites s = true) (hp : regPresent c r = true) (hr : r ≠ .cmd) :
    stepOn c { s with host := .write (regIndex r) v :: rest } = .next (storeReg r v { s with host := rest }) :=
  hostWrite_register _ c r v { s with host := rest } acc hp hr

/-- A store to `ALEN` keeps `v[8:0]` when it is at most 256 (R34). -/
theorem storeReg_alen {v : Count} (s : State) (hv : v.toNat % 512 < 257) :
    storeReg .alen v s = { s with alen := ⟨v.toNat % 512, hv⟩ } := by
  simp only [storeReg, writeAlen, low9_toNat, dif_pos hv]

/-- A store to `ALEN` of a value with `v[8:0]` above 256 is dropped (R34, R38 case 5). -/
theorem storeReg_alen_dropped {v : Count} (s : State) (hv : 256 < v.toNat % 512) :
    storeReg .alen v s = dropWrite s := by
  simp only [storeReg, writeAlen, low9_toNat, dif_neg (show ¬ v.toNat % 512 < 257 by omega)]

/-- Settles O14: the step is the store to the register of each index, which keeps the low bits. -/
theorem operandWritesStore : Obligations.OperandWritesStore := by
  intro c s v rest acc
  have store (r : Reg) (hp : regPresent c r = true) (hr : r ≠ .cmd) :=
    stepOn_write_register (v := v) (rest := rest) acc hp hr
  rw [← low32_eq_setWidth, ← low8_eq_setWidth]
  refine ⟨store .argWord rfl (by decide), store .argCount rfl (by decide), store (.argBuf 0) rfl (by decide),
    store (.argBuf 1) rfl (by decide), store (.argBuf 2) rfl (by decide), store (.argBuf 3) rfl (by decide),
    fun hb hv => ?_, fun hb j => store (.alpha j) hb (by simp)⟩
  exact (store .alen hb (by decide)).trans (congrArg _ (storeReg_alen _ hv))

/-- A write is dropped in each of the three cases of R38 that depend on the index, in whatever state. -/
theorem hostWrite_dropped (run : Instr → State → Host.Outcome State Fault Refusal) (c : Config) (idx : Nat)
    (v : Count) (s : State)
    (h : (idx = 1 ∨ idx = 2 ∨ idx = 3 ∨ (0x010 ≤ idx ∧ idx < 0x014) ∨ (0x018 ≤ idx ∧ idx < 0x01C)) ∨
      (idx = 6 ∨ idx = 7 ∨ (0x00C ≤ idx ∧ idx < 0x010) ∨ (0x014 ≤ idx ∧ idx < 0x018) ∨
        (0x01C ≤ idx ∧ idx < 0x020) ∨ (0x021 ≤ idx ∧ idx < 0x100) ∨ 0x200 ≤ idx ∨
        (c.hasBf = false ∧ (idx = 0x020 ∨ (0x100 ≤ idx ∧ idx < 0x200)))) ∨
      (idx = 0x020 ∧ 256 < v.toNat % 512)) :
    hostWrite run c idx v s = .next (dropWrite s) := by
  cases acc : acceptsWrites s with
  | false => exact hostWrite_not_accepting run c idx v s acc
  | true =>
    cases hr : regAt c idx with
    | none => exact hostWrite_unassigned run c idx v s hr
    | some r =>
      obtain ⟨rfl, hp⟩ := regAt_eq_some c idx r hr
      have store (hc : r ≠ .cmd) := hostWrite_register run c r v s acc hp hc
      cases r with
      | status | errinfo | config | resWord | resLen | resOrbit | resPos | resBuf _ => exact store (by simp)
      | cmd | argWord | argCount => simp [regIndex] at h
      | argBuf j =>
        simp only [regIndex] at h
        omega
      | alpha j =>
        have hb : c.hasBf = true := hp
        simp only [regIndex, hb, reduceCtorEq, false_and, or_false] at h
        omega
      | alen =>
        have hb : c.hasBf = true := hp
        have hv : 256 < v.toNat % 512 := by simpa [regIndex, hb] using h
        rw [store (by simp), storeReg_alen_dropped s hv]

/-- Settles O15: the two cases of `STATE`, then the three of the index. -/
theorem droppedWritesSetOnlyWdrop : Obligations.DroppedWritesSetOnlyWdrop := by
  intro c s idx v rest hh h
  rw [stepOn_write hh]
  rcases h with hb | hf | h
  · exact hostWrite_not_accepting _ c idx v _ (by simp [acceptsWrites, hb])
  · exact hostWrite_not_accepting _ c idx v _ (by simp [acceptsWrites, hf])
  · exact hostWrite_dropped _ c idx v _ h

end Sys2Proof.Machine
end

section
/-! Accepting a command, and the reset (rules R39, R47, R48, R93 to R95). -/

namespace Sys2Proof.Machine

/-- The low half of a value whose number is a command word's. -/
theorem low32_eq_encode {v : Count} {i : Instr} (h : v.toNat % 2 ^ 32 = (encode i).toNat) : low32 v = encode i :=
  BitVec.eq_of_toNat_eq ((low32_toNat v).trans h)

/-- The decoder reads a command's own word as that command (R91). -/
theorem decode_encode (i : Instr) : Sys2Proof.decode (encode i) = .command i :=
  Laws.RoundTrip.all i

/-- The step on a write to `CMD`, in a state that takes commands. -/
theorem stepOn_write_cmd {c : Config} {s : State} {v : Count} {rest : List HostStep} (acc : acceptsWrites s = true)
    (hh : s.host = .write 0 v :: rest) :
    stepOn c s = writeCmd (fun i u => .next (execOn c i u)) v { s with host := rest } :=
  (stepOn_write hh).trans (hostWrite_cmd _ c v { s with host := rest } acc)

/-- A word that decodes to no command is refused (R93). -/
theorem writeCmd_illegal {run : Instr → State → Host.Outcome State Fault Refusal} {v : Count} {s : State}
    {why : DecodeReject} (h : Sys2Proof.decode (low32 v) = .illegal why) :
    writeCmd run v s = .next (rejectWord (low32 v) s) := by
  simp only [writeCmd, h]

/-- The word of a command runs the command. -/
theorem writeCmd_encode {run : Instr → State → Host.Outcome State Fault Refusal} {v : Count} {s : State}
    {i : Instr} (h : low32 v = encode i) : writeCmd run v s = run i s := by
  simp only [writeCmd, h, decode_encode]

/-- A refused word: `ILLEGAL_CMD`, the word, and its opcode field (R39 step 3, R202). -/
theorem rejectWord_eq (w : Word) (s : State) :
    rejectWord w s = { s with lastop := opcField w, state := .error, err := some .illegalCmd,
                              errinfo := w.setWidth 64 } := rfl

/-- A command of an absent unit, however it is issued, is refused as its word is. -/
theorem execOn_absent {c : Config} {i : Instr} {s : State} (acc : acceptsWrites s = true)
    (hu : unitPresent c i = false) : execOn c i s = rejectWord (encode i) s :=
  (execOn_accepting c i s acc).trans (issue_absent s hu)

theorem writeCmd_absent {c : Config} {i : Instr} {v : Count} {s : State} (acc : acceptsWrites s = true)
    (hw : low32 v = encode i) (hu : unitPresent c i = false) :
    writeCmd (fun i u => .next (execOn c i u)) v s = .next (rejectWord (low32 v) s) := by
  rw [writeCmd_encode hw, hw, execOn_absent acc hu]

/-- The commands of absent units (R91, R94). -/
theorem unitPresent_eq_false_iff (c : Config) (i : Instr) : unitPresent c i = false ↔
    (c.hasFgd = false ∧ (i = .decomp ∨ i = .orbq ∨ i = .orbrd)) ∨ (c.hasBf = false ∧ i = .brute) := by
  cases i <;> simp [unitPresent]

/-- The field `OPC` of the word a write carries. -/
theorem opcField_low32 (v : Count) : opcField (low32 v) = v.setWidth 8 := by
  apply BitVec.eq_of_toNat_eq
  simp only [opcField, BitVec.extractLsb'_toNat, low32_toNat, BitVec.toNat_setWidth, Nat.shiftRight_zero]
  omega

/-- Settles O16: whatever makes the word illegal, the step refuses it. -/
theorem illegalWordsAreRefused : Obligations.IllegalWordsAreRefused := by
  refine ⟨fun c s v rest acc hh h => ?_, unitPresent_eq_false_iff, fun c s acc => ⟨fun hf => ?_, fun hb => ?_⟩⟩
  · have refused : stepOn c s = .next (rejectWord (low32 v) { s with host := rest }) := by
      rw [stepOn_write_cmd acc hh]
      have absent (i : Instr) (hw : v.toNat % 2 ^ 32 = (encode i).toNat) (hu : unitPresent c i = false) :=
        writeCmd_absent (s := { s with host := rest }) acc (low32_eq_encode hw) hu
      rw [← low32_eq_setWidth] at h
      rcases h with ⟨why, hd⟩ | ⟨hf, hw | hw | hw⟩ | ⟨hb, hw⟩
      · exact writeCmd_illegal hd
      · exact absent .decomp hw hf
      · exact absent .orbq hw hf
      · exact absent .orbrd hw hf
      · exact absent .brute hw hb
    rw [refused, rejectWord_eq, opcField_low32, low32_eq_setWidth]
  · exact ⟨execOn_absent acc hf, execOn_absent acc hf, execOn_absent acc hf⟩
  · exact execOn_absent acc hb

/-- A command that passes its checks is started. -/
theorem execOn_start {c : Config} {i : Instr} {s : State} (acc : acceptsWrites s = true)
    (hu : unitPresent c i = true) (hc : issueCheck c i s = none) :
    execOn c i s = startCommand i (noteAccepted (opcodeOf i) s) :=
  (execOn_accepting c i s acc).trans (issue_start hu hc)

/-- Settles O18: each of the eleven commands, when its checks pass, is started. -/
theorem acceptedCommandsStart : Obligations.AcceptedCommandsStart := by
  intro c s acc
  have start (i : Instr) (hu : unitPresent c i = true) (hc : issueCheck c i s = none) := execOn_start acc hu hc
  exact ⟨start .hash rfl rfl, start .encode rfl rfl, start .decode rfl rfl, start .fwd rfl rfl,
    fun hm ht => start .build rfl (by simp [issueCheck, hm, ht]),
    fun ht => ⟨start .lookup rfl (by simp [issueCheck, ht]), start .inv rfl (by simp [issueCheck, ht])⟩,
    fun hf hi => start .decomp hf (by simp [issueCheck, hi]),
    fun hf hi => ⟨start .orbq hf (by simp [issueCheck, hi]), start .orbrd hf (by simp [issueCheck, hi])⟩,
    fun hb => start .brute hb rfl⟩

/-- `STATUS` reads 0 after a reset (R48). -/
theorem resetEngine_statusWord (s : State) : statusWord (resetEngine s) = 0 :=
  (statusWord_congr (s := State.reset) rfl rfl rfl rfl rfl rfl).trans (by decide)

/-- Settles O20: the step on a reset gives `resetEngine`, which has R48's value in every field. -/
theorem resetGivesResetValues : Obligations.ResetGivesResetValues := by
  intro c s rest hh
  exact ⟨_, stepOn_reset hh, ⟨rfl, rfl, rfl, rfl, rfl, rfl, resetEngine_statusWord _, rfl⟩, ⟨rfl, rfl, rfl⟩,
    ⟨rfl, rfl, rfl, rfl, rfl⟩, ⟨rfl, resetEngine_alphabetByte _⟩, ⟨fun _ => rfl, fun _ => rfl, rfl, fun _ => rfl⟩,
    ⟨rfl, rfl, rfl, rfl, rfl⟩, ⟨rfl, rfl, rfl, rfl⟩, rfl⟩

end Sys2Proof.Machine
end

section
/-! What the engine's own step does to the results and the hidden counters, and that a step never stops (rules
R22, R26, R47, R121). -/

namespace Sys2Proof.Machine

/-- One step of a walk writes `RES_WORD` and `RES_LEN` only. -/
theorem walkStep_results (c : Config) (next : Word → Word) (s : State) :
    (walkStep c next s).resOrbit = s.resOrbit ∧ (walkStep c next s).resPos = s.resPos ∧
      (walkStep c next s).resBuf = s.resBuf := by
  rcases walkStep_cases c next s with ⟨_, e⟩ | ⟨_, _, e⟩ | ⟨_, _, e⟩ | ⟨_, _, _, e⟩ <;> rw [e] <;> simp [closeWalk]

/-- One step of a build writes no result. -/
theorem buildBody_results (c : Config) (s : State) :
    (buildBody c s).resWord = s.resWord ∧ (buildBody c s).resLen = s.resLen ∧ (buildBody c s).resOrbit = s.resOrbit ∧
      (buildBody c s).resPos = s.resPos ∧ (buildBody c s).resBuf = s.resBuf := by
  rcases buildBody_cases c s with ⟨_, e⟩ | ⟨w, _, ⟨_, _, e⟩ | ⟨p, _, e⟩⟩ <;> rw [e]
  · simp [joinStep]
  · simp [claimStep]
  · unfold slotUpdate
    split <;> simp

/-- One step of a decomposition writes `RES_LEN` only. -/
theorem decompBody_results (c : Config) (s : State) :
    (decompBody c s).resWord = s.resWord ∧ (decompBody c s).resOrbit = s.resOrbit ∧
      (decompBody c s).resPos = s.resPos ∧ (decompBody c s).resBuf = s.resBuf := by
  rcases decompBody_cases c s with ⟨_, _, e⟩ | ⟨_, _, _, e⟩ | ⟨_, _, _, e⟩ | ⟨_, _, e⟩ | ⟨_, _, _, e⟩ | ⟨_, _, _, e⟩ |
    ⟨_, _, _, _, e⟩ | ⟨_, _, _, _, e⟩ | ⟨_, _, _, e⟩ <;> rw [e] <;> simp [finishDecomp, closeOrbit]

/-- ORBRD does not write `RES_BUF`. -/
theorem orbrdBody_resBuf (c : Config) (s : State) : (orbrdBody c s).resBuf = s.resBuf := by
  unfold orbrdBody readElement
  split_ifs <;> simp

/-- One step of a search writes `RES_BUF`, `RES_WORD` and `RES_LEN` only. -/
theorem bruteBody_results (c : Config) (s : State) :
    (bruteBody c s).resOrbit = s.resOrbit ∧ (bruteBody c s).resPos = s.resPos := by
  rcases bruteBody_cases c s with ⟨_, e⟩ | ⟨_, _, _, _, e⟩ | ⟨_, _, _, _, e⟩ <;> rw [e] <;> simp [acceptCandidate]

/-- The engine's own step writes only the results that R26 lists under its command. -/
theorem bodyOn_results (c : Config) (i : Instr) (s : State) :
    (i ∉ [Instr.hash, .decode, .lookup, .fwd, .inv, .orbq, .orbrd, .brute] → (bodyOn c i s).resWord = s.resWord) ∧
      (i ∉ [Instr.fwd, .inv, .decomp, .orbq, .orbrd, .brute] → (bodyOn c i s).resLen = s.resLen) ∧
      (i ∉ [Instr.orbq, .orbrd] → (bodyOn c i s).resOrbit = s.resOrbit ∧ (bodyOn c i s).resPos = s.resPos) ∧
      (i ∉ [Instr.encode, .brute] → (bodyOn c i s).resBuf = s.resBuf) := by
  cases i with
  | hash => simp [bodyOn, hashBody]
  | encode => simp [bodyOn, encodeBody]
  | decode => simp [bodyOn, decodeBody]
  | build => simp [bodyOn, buildBody_results c s]
  | lookup => simp [bodyOn, lookupBody]
  | fwd => simp [bodyOn, fwdBody, walkStep_results c c.H s]
  | inv => simp [bodyOn, invBody, walkStep_results c (readT c s) s]
  | decomp => simp [bodyOn, decompBody_results c s]
  | orbq => simp [bodyOn, orbqBody, orbitAnswer]
  | orbrd => simp [bodyOn, orbrdBody_resBuf c s]
  | brute => simp [bodyOn, bruteBody_results c s]

/-- Settles O21, by the results that each command writes and the frame of all commands. -/
theorem commandsWriteOnlyTheirResults : Obligations.CommandsWriteOnlyTheirResults := by
  intro c i s hb
  rw [execOn_busy c i s hb]
  obtain ⟨word, len, place, buf⟩ := bodyOn_results c i s
  exact ⟨word, len, place, buf, bodyOn_frame c i s⟩

/-! ### The hidden counters -/

/-- A tuple over the alphabet is one of its `size ^ 4` candidates. -/
theorem tupleRank_lt {size : Nat} {k : BruteIdx} (hk : InAlphabet size k) : tupleRank size k < size ^ 4 := by
  obtain ⟨h0, h1, h2, h3⟩ := hk
  have digit {a b m : Nat} (ha : a < m) (hb : b < size) : a * size + b < m * size := by
    have : (a + 1) * size ≤ m * size := Nat.mul_le_mul_right size ha
    rw [Nat.add_mul, Nat.one_mul] at this
    omega
  have h : tupleRank size k < size * size * size * size := digit (digit (digit h0 h1) h2) h3
  calc tupleRank size k < size * size * size * size := h
    _ = size ^ 4 := by ring

/-- The alphabet's size is at most 256 (R34). -/
theorem alphabetSize_le (s : State) : alphabetSize s ≤ 256 := Nat.lt_succ_iff.1 s.alen.isLt

/-- No alphabet has more than `2^32` candidates. -/
theorem alphabetSize_pow_le (s : State) : alphabetSize s ^ 4 ≤ domainSize :=
  calc alphabetSize s ^ 4 ≤ 256 ^ 4 := Nat.pow_le_pow_left (alphabetSize_le s) 4
    _ = domainSize := by decide

/-- Where a search in flight stands is a tuple over the alphabet, if there is one: the first tuple is. -/
theorem inAlphabet_of_first {size : Nat} {k : BruteIdx} (hs : size ≠ 0) (h : k = ⟨0, 0, 0, 0⟩ ∨ InAlphabet size k) :
    InAlphabet size k := by
  rcases h with rfl | h
  · have : 0 < size := by omega
    exact ⟨this, this, this, this⟩
  · exact h

/-- A step of a walk keeps the recorded list within `2^32` values (R156). -/
theorem walkStep_nrec_le {c : Config} {next : Word → Word} {s : State} (h : s.nrec ≤ domainSize) :
    (walkStep c next s).nrec ≤ domainSize := by
  rcases walkStep_cases c next s with ⟨h0, e⟩ | ⟨_, _, e⟩ | ⟨_, _, e⟩ | ⟨_, hn, _, e⟩ <;> rw [e]
  · simp [h0]
  · exact h
  · exact h
  · exact Nat.lt_of_le_of_ne h hn

/-- The engine's own step of a command that is no walk leaves the recorded list alone. -/
theorem bodyOn_nrec (c : Config) (i : Instr) (s : State) (h : i ∉ [Instr.fwd, .inv, .decomp]) :
    (bodyOn c i s).nrec = s.nrec := by
  cases i with
  | hash | encode | decode | lookup | orbq => rfl
  | build =>
    simp only [bodyOn]
    rcases buildBody_cases c s with ⟨_, e⟩ | ⟨w, _, ⟨_, _, e⟩ | ⟨p, _, e⟩⟩ <;> rw [e]
    · rfl
    · rfl
    · unfold slotUpdate
      split <;> simp
  | orbrd =>
    simp only [bodyOn, orbrdBody, readElement]
    split_ifs <;> simp
  | brute =>
    simp only [bodyOn]
    rcases bruteBody_cases c s with ⟨_, e⟩ | ⟨_, _, _, _, e⟩ | ⟨_, _, _, _, e⟩ <;> rw [e] <;> rfl
  | fwd | inv | decomp => simp at h

/-- A step of a decomposition keeps its counters in range: a start Word is left only for the next one, and each
closed orbit used one (R171, R173). -/
theorem decompBody_counters {c : Config} {s : State} (h : WalkCountersInRange s) (ho : s.norb ≤ s.start) :
    WalkCountersInRange (decompBody c s) ∧ (decompBody c s).norb ≤ (decompBody c s).start := by
  obtain ⟨nrec, start, working⟩ := h
  have leftFor {u : State} (hs : s.start < domainSize) (hn : u.nrec = s.nrec) (hu : u.start = s.start)
      (hb : u.norb ≤ s.start + 1) :
      WalkCountersInRange (nextStart u) ∧ (nextStart u).norb ≤ (nextStart u).start := by
    simp only [WalkCountersInRange, nextStart_nrec, nextStart_start, nextStart_phase, nextStart_norb, hn, hu]
    exact ⟨⟨nrec, hs, fun hp => absurd rfl hp⟩, hb⟩
  rcases decompBody_cases c s with ⟨_, _, e⟩ | ⟨_, hs, _, e⟩ | ⟨_, hs, _, e⟩ | ⟨hp, _, e⟩ | ⟨_, _, _, e⟩ |
    ⟨_, _, hn, e⟩ | ⟨p, _, _, _, e⟩ | ⟨p, hp, _, _, e⟩ | ⟨p, hp, _, e⟩ <;> rw [e]
  · exact ⟨⟨nrec, start, working⟩, ho⟩
  · exact leftFor (Nat.lt_of_le_of_ne start hs) rfl rfl (Nat.le_succ_of_le ho)
  · exact ⟨⟨Nat.succ_le_of_lt (Nat.two_pow_pos 32), start, fun _ => Nat.lt_of_le_of_ne start hs⟩, ho⟩
  · exact ⟨⟨nrec, start, fun _ => working (by simp [hp])⟩, ho⟩
  · exact ⟨⟨nrec, start, working⟩, Nat.zero_le _⟩
  · exact ⟨⟨Nat.lt_of_le_of_ne nrec hn, start, working⟩, ho⟩
  · exact ⟨⟨nrec, start, working⟩, Nat.zero_le _⟩
  · exact ⟨⟨nrec, start, fun _ => working (by simp [hp])⟩, ho⟩
  · exact leftFor (working (by simp [hp])) rfl rfl (Nat.succ_le_succ ho)

/-- The engine's own step keeps the counters of the walks and of the orbits in range. -/
theorem bodyOn_counters {c : Config} {i : Instr} {s : State} (h : WalkCountersInRange s) (ho : s.norb ≤ s.start) :
    WalkCountersInRange (bodyOn c i s) ∧ (bodyOn c i s).norb ≤ (bodyOn c i s).start := by
  by_cases hd : i = .decomp
  · subst hd
    exact decompBody_counters h ho
  obtain ⟨nrec, start, working⟩ := h
  obtain ⟨hs, hp, orbits⟩ := bodyOn_orbit_frame c i s hd
  have nrec' : (bodyOn c i s).nrec ≤ domainSize := by
    cases i with
    | fwd => exact walkStep_nrec_le nrec
    | inv => exact walkStep_nrec_le nrec
    | decomp => exact absurd rfl hd
    | _ => rwa [bodyOn_nrec c _ s (by simp)]
  have norb' : (bodyOn c i s).norb ≤ s.start := by
    rcases orbits with ⟨_, _, e⟩ | ⟨_, e, _⟩ <;> omega
  exact ⟨⟨nrec', by rwa [hs], by rwa [hs, hp]⟩, by rwa [hs]⟩

/-- A step of a search counts the candidate it tests, and no more than there are (R191, R193). -/
theorem bruteBody_search {c : Config} {s : State} (ht : s.tested ≤ domainSize) (h : TestedCountsCandidates s) :
    (bruteBody c s).tested ≤ domainSize ∧ ((bruteBody c s).state = .busy → TestedCountsCandidates (bruteBody c s)) := by
  have bound := alphabetSize_pow_le s
  have counted {k : BruteIdx} (hk : s.bruteAt = some k) (h0 : alphabetSize s ≠ 0) :
      s.tested = tupleRank (alphabetSize s) k ∧ InAlphabet (alphabetSize s) k := by
    rw [TestedCountsCandidates, hk] at h
    exact ⟨h.1, inAlphabet_of_first h0 h.2⟩
  rcases bruteBody_cases c s with ⟨_, e⟩ | ⟨k, hk, h0, _, e⟩ | ⟨k, hk, h0, _, e⟩ <;> rw [e]
  · exact ⟨ht, fun hb => by simp at hb⟩
  · obtain ⟨hr, hin⟩ := counted hk h0
    have := tupleRank_lt hin
    exact ⟨by simp only [acceptCandidate, complete_tested]; omega, fun hb => by simp [acceptCandidate] at hb⟩
  · obtain ⟨hr, hin⟩ := counted hk h0
    have := tupleRank_lt hin
    refine ⟨by simp only; omega, fun _ => ?_⟩
    rcases nextTuple_cases (alphabetSize s) k (alphabetSize_le s) hin with ⟨k', hn, hrank, hin'⟩ | ⟨hn, hrank⟩
    · simp only [TestedCountsCandidates, hn]
      exact ⟨by rw [hr]; exact hrank.symm, .inr hin'⟩
    · simp only [TestedCountsCandidates, hn]
      rw [hr]
      exact hrank

/-- The engine's own step keeps the hidden counters in range. -/
theorem bodyOn_hidden {c : Config} {i : Instr} {s : State} (h : HiddenInRange s) (hb : s.state = .busy)
    (hl : s.lastop = opcodeOf i) : HiddenInRange (bodyOn c i s) := by
  obtain ⟨walk, orbits, tested, search⟩ := h
  obtain ⟨walk', orbits'⟩ := bodyOn_counters (c := c) (i := i) walk orbits
  by_cases hi : i = .brute
  · subst hi
    obtain ⟨tested', search'⟩ := bruteBody_search (c := c) tested (search hb hl)
    exact ⟨walk', orbits', tested', fun hb' _ => search' hb'⟩
  · obtain ⟨_, _, _, _, _, _, lastop, _⟩ := bodyOn_frame c i s
    refine ⟨walk', orbits', by rwa [(bodyOn_search_frame c i s hi).2], fun _ hl' => ?_⟩
    exact absurd (opcodeOf_inj _ _ (hl.symm.trans (lastop.symm.trans hl'))) hi

/-- A state in which no command is in flight needs its counters in range only. -/
theorem hiddenInRange_of_not_busy {s : State} (hb : s.state ≠ .busy) (walk : WalkCountersInRange s)
    (orbits : s.norb ≤ s.start) (tested : s.tested ≤ domainSize) : HiddenInRange s :=
  ⟨walk, orbits, tested, fun h => absurd h hb⟩

/-- Every command starts with its hidden counters in range (R47). -/
theorem startCommand_hidden {i : Instr} {s : State} (h : HiddenInRange s) :
    HiddenInRange (startCommand i (noteAccepted (opcodeOf i) s)) := by
  obtain ⟨walk, orbits, tested, _⟩ := h
  have noSearch (hi : i ≠ .brute) : (startCommand i (noteAccepted (opcodeOf i) s)).lastop ≠ opcodeOf .brute :=
    fun hl => hi (opcodeOf_inj _ _ ((startCommand_lastop i _).symm.trans hl))
  cases i with
  | brute => exact ⟨walk, orbits, Nat.zero_le _, fun _ _ => ⟨by simp [tupleRank, startCommand, initHidden], .inl rfl⟩⟩
  | fwd | inv => exact ⟨⟨Nat.zero_le _, walk.2⟩, orbits, tested, fun _ hl => absurd hl (noSearch (by decide))⟩
  | decomp =>
    exact ⟨⟨walk.1, Nat.zero_le _, fun hp => absurd rfl hp⟩, Nat.zero_le _, tested,
      fun _ hl => absurd hl (noSearch (by decide))⟩
  | _ => exact ⟨walk, orbits, tested, fun _ hl => absurd hl (noSearch (by decide))⟩

/-- A host write keeps the hidden counters in range: it starts a command, or none is in flight. -/
theorem hostWrite_hidden {c : Config} {idx : Nat} {v : Count} {s t : State} (h : HiddenInRange s)
    (hw : hostWrite (fun i u => .next (execOn c i u)) c idx v s = .next t) : HiddenInRange t := by
  obtain ⟨walk, orbits, tested, search⟩ := h
  rcases hostWrite_cases c idx v s t hw with rfl | ⟨acc, r, _, _, _, rfl⟩ | ⟨_, _, _, _, rfl⟩ | ⟨_, _, i, _, rfl⟩
  · exact ⟨walk, orbits, tested, search⟩
  · obtain ⟨_, _, _, _, _, _, e⟩ := storeReg_shape r v s
    rw [e]
    exact hiddenInRange_of_not_busy ((acceptsWrites_iff s).1 acc).1 walk orbits tested
  · exact hiddenInRange_of_not_busy (by simp [rejectWord]) walk orbits tested
  · rcases issue_outcomes c i s with ⟨e, he, _⟩ | ⟨he, _, _⟩ | ⟨_, _, he⟩ <;> rw [he]
    · exact hiddenInRange_of_not_busy (by simp) walk orbits tested
    · exact hiddenInRange_of_not_busy (by simp) walk (Nat.zero_le _) tested
    · exact startCommand_hidden ⟨walk, orbits, tested, search⟩

/-- The hidden counters are in range after a reset, whatever they were before (R48). -/
theorem resetEngine_hidden (s : State) : HiddenInRange (resetEngine s) :=
  hiddenInRange_of_not_busy (by simp [resetEngine, State.reset])
    ⟨Nat.zero_le _, Nat.zero_le _, fun hp => absurd rfl hp⟩ (Nat.zero_le _) (Nat.zero_le _)

/-- Every step keeps the hidden counters in range, at any configuration. -/
theorem stepOn_hidden {c : Config} {s t : State} (h : HiddenInRange s) (hst : stepOn c s = .next t) :
    HiddenInRange t := by
  obtain ⟨walk, orbits, tested, search⟩ := h
  rcases stepOn_cases c s t hst with ⟨rest, _, rfl⟩ | ⟨_, _, _, rfl⟩ | ⟨idx, v, rest, _, hw⟩ |
    ⟨_, _, _, rfl⟩ | ⟨rest, i, _, hb, hl, rfl⟩
  · exact resetEngine_hidden _
  · exact ⟨walk, orbits, tested, search⟩
  · exact hostWrite_hidden (s := { s with host := rest }) ⟨walk, orbits, tested, search⟩ hw
  · exact ⟨walk, orbits, tested, search⟩
  · exact bodyOn_hidden (s := { s with host := rest }) ⟨walk, orbits, tested, search⟩ hb hl

/-- Settles O57, by the step's cases: a reset, a read, a write, nothing, the engine's own step. -/
theorem stepKeepsHiddenInRange : Obligations.StepKeepsHiddenInRange :=
  ⟨fun _ _ _ => stepOn_hidden, fun s _ h hst => stepOn_hidden h (step_eq_stepOn s ▸ hst)⟩

/-! ### What the step runs -/

/-- While `BUSY` the engine's move runs the command in flight. -/
theorem engineMove_busy {run : Instr → State → Host.Outcome State Fault Refusal} {s : State} {i : Instr}
    (hb : s.state = .busy) (hl : s.lastop = opcodeOf i) : engineMove run s = run i s := by
  simp only [engineMove, if_pos hb, commandInFlight_of_lastop s i hl]

/-- A command word put before the machine is put before one that takes commands (log entry 9). -/
theorem acceptsWrites_withFetchWord (s : State) (nbits w : Nat) : acceptsWrites (s.withFetchWord nbits w) = true := by
  rw [acceptsWrites_iff]
  cases acc : acceptsWrites s with
  | true => simpa [State.withFetchWord, acc] using (acceptsWrites_iff s).1 acc
  | false => simp [State.withFetchWord, acc]

/-- The value that `withFetchWord` writes for a command has the command's word in its low half. -/
theorem low32_ofNat_encode (i : Instr) : low32 (BitVec.ofNat 64 ((encode i).toNat % 2 ^ 32)) = encode i := by
  cases i <;> decide

/-- Settles O4, by the dispatch of a write to `CMD` and of the engine's move. -/
theorem stepRunsDecodedCommand : Obligations.StepRunsDecodedCommand := by
  have written (s : State) (i : Instr) (v : Count) (rest : List HostStep) (hh : s.host = .write 0 v :: rest)
      (acc : acceptsWrites s = true) (hv : low32 v = encode i) : step s = exec i { s with host := rest } := by
    simp only [step, turn, hh, hostMove]
    exact (hostWrite_cmd _ _ v { s with host := rest } acc).trans (writeCmd_encode hv)
  refine ⟨written, fun s i hh hb hl => ?_, fun s i rest hh hb hl => ?_, fun s i rest hh hb hl => ?_, fun s i => ?_⟩
  · simp only [step, turn, hh]
    exact engineMove_busy hb hl
  · simp only [step, turn, hh, hostMove]
    exact engineMove_busy (s := { s with host := rest }) hb hl
  · simp only [step, turn, hh, hostMove, if_pos hb]
    exact engineMove_busy hb hl
  · exact written (s.withFetchWord 32 (encode i).toNat) i _ s.host rfl (acceptsWrites_withFetchWord s 32 _)
      (low32_ofNat_encode i)

/-- The engine's move stops only where `BUSY` has no command in flight. -/
theorem engineMove_next {c : Config} {s : State} (h : s.state = .busy → ∃ i, s.lastop = opcodeOf i) :
    ∃ t, engineMove (fun i u => .next (execOn c i u)) s = .next t := by
  by_cases hb : s.state = .busy
  · obtain ⟨i, hl⟩ := h hb
    exact ⟨_, engineMove_busy hb hl⟩
  · exact ⟨s, if_neg hb⟩

/-- A host write never stops the machine. -/
theorem hostWrite_next (c : Config) (idx : Nat) (v : Count) (s : State) :
    ∃ t, hostWrite (fun i u => .next (execOn c i u)) c idx v s = .next t := by
  unfold hostWrite writeCmd
  split
  · split
    · exact ⟨_, rfl⟩
    · split <;> exact ⟨_, rfl⟩
    · exact ⟨_, rfl⟩
  · exact ⟨_, rfl⟩

/-- A step answers a next state wherever a command is in flight when the engine is `BUSY`. -/
theorem stepOn_next {c : Config} {s : State} (h : s.state = .busy → ∃ i, s.lastop = opcodeOf i) :
    ∃ t, stepOn c s = .next t := by
  unfold stepOn turn
  split
  · exact engineMove_next h
  · next m rest _ =>
    cases m with
    | read idx => exact ⟨_, rfl⟩
    | write idx v => exact hostWrite_next c idx v _
    | reset => exact ⟨_, rfl⟩
    | pause => exact engineMove_next h
    | wait =>
      simp only [hostMove]
      split
      · exact engineMove_next h
      · exact ⟨_, rfl⟩

/-- Settles O58: a consistent state that is `BUSY` has a command in flight. -/
theorem consistentStateNeverStops : Obligations.ConsistentStateNeverStops := by
  intro s h
  rw [step_eq_stepOn]
  refine stepOn_next fun hb => ?_
  obtain ⟨_, i, hl, _⟩ : NoError s ∧ InFlightAccepted Config.here s := by simpa only [StateMeaning, hb] using h.1
  exact ⟨i, hl⟩

/-- Settles O54: the state after reset is what a reset gives, with empty memories, nothing in flight and no valid
artifact. -/
theorem invariantsHoldAtReset : Obligations.InvariantsHoldAtReset :=
  ⟨⟨rfl, rfl, rfl, rfl, rfl, rfl, rfl, List.Pairwise.nil⟩, resetEngine_hidden State.reset, fun c =>
    ⟨resetEngine_consistent c State.reset, ⟨fun hb => EngineState.noConfusion hb, fun hv => Bool.noConfusion hv⟩,
      ⟨fun hb => EngineState.noConfusion hb, fun hv => Bool.noConfusion hv⟩⟩⟩

end Sys2Proof.Machine
end

section
/-! What one step can do to the memory spaces and the rest of the hidden state (rules R47, R60, R87), said once:
first for the engine's own step, then for a step of the whole. -/

namespace Sys2Proof.Machine

/-- The memory spaces, the held blocks and the pending blocks of `t` are those of `s`; where `t` is an update of other
fields of `s`, each field's default proof says so. -/
structure MemoriesKept (s t : State) : Prop where
  memT : t.memT = s.memT := by rfl
  memTag : t.memTag = s.memTag := by rfl
  memRec : t.memRec = s.memRec := by rfl
  memOseq : t.memOseq = s.memOseq := by rfl
  memOdir : t.memOdir = s.memOdir := by rfl
  memOidx : t.memOidx = s.memOidx := by rfl
  pending : t.pending = s.pending := by rfl
  cur : t.cur = s.cur := by rfl

/-- What the engine's own step of command `i` can do to the memories (R87): nothing, a fatal error, or the writes
of one step of BUILD (R133, R135), FWD and INV (R151, R154) or DECOMP (R171). -/
inductive MemoryStep (c : Config) (i : Instr) (s : State) : State → Prop
  | kept {t : State} (h : MemoriesKept s t) : MemoryStep c i s t
  | fatal (e : EngineError) (n : Nat) : MemoryStep c i s { enterFatal e s with draws := n }
  | claim (w : Nat) (hi : i = .build) (hw : w < c.nworkers) (idle : workerPos s w = none) (hp : s.pending ≠ []) :
      MemoryStep c i s (spendDraws (claimStep c w s))
  | slot (w : Nat) (p : BlockPos) (hi : i = .build) (held : workerPos s w = some p)
      (free : readTag s (c.H (blockInput p)) = false) : MemoryStep c i s (spendDraws (slotUpdate c w p s))
  | record (v : Word) (hi : i = .fwd ∨ i = .inv ∨ i = .decomp ∧ s.phase = .walk) : MemoryStep c i s (recordValue v s)
  | startWalk (hi : i = .decomp) (hp : s.phase = .scan) :
      MemoryStep c i s { s with nrec := 1, memRec := s.memRec.write 1 (some (startWord s)), phase := .walk }
  | indexed (p : Nat) (hi : i = .decomp) (hp : s.phase = .index p) :
      MemoryStep c i s
        { s with
          memOidx := s.memOidx.write (readRec c s (p + 1)).toNat (some ⟨s.norb, p⟩)
          memOseq := s.memOseq.write (s.nbase + p) (some (readRec c s (p + 1)))
          phase := .index (p + 1) }
  | closed (hi : i = .decomp) : MemoryStep c i s (closeOrbit s)

/-- The slot update at a clear tag (R135). -/
theorem slotUpdate_free {c : Config} {p : BlockPos} {s : State} (w : Nat)
    (free : readTag s (c.H (blockInput p)) = false) :
    slotUpdate c w p s =
      { s with
        memT := s.memT.write (c.H (blockInput p)).toNat (some (blockInput p))
        memTag := s.memTag.write (c.H (blockInput p)).toNat true
        cur := s.cur.write w (nextBlockPos p) } := by
  simp [slotUpdate, free]

/-- The slot update at a set tag (R135). -/
theorem slotUpdate_taken {c : Config} {p : BlockPos} {s : State} (w : Nat)
    (taken : readTag s (c.H (blockInput p)) = true) :
    slotUpdate c w p s = enterFatal (.invariant .slotCollision (c.H (blockInput p))) s := by
  simp [slotUpdate, taken]

theorem buildBody_memoryStep (c : Config) (s : State) : MemoryStep c .build s (buildBody c s) := by
  rcases buildBody_cases c s with ⟨_, e⟩ | ⟨w, hw, ⟨idle, hp, e⟩ | ⟨p, held, e⟩⟩ <;> rw [e]
  · exact .kept {}
  · exact .claim w rfl hw idle hp
  · cases tag : readTag s (c.H (blockInput p)) with
    | true =>
      rw [slotUpdate_taken w tag]
      exact .fatal _ _
    | false => exact .slot w p rfl held tag

theorem walkStep_memoryStep (c : Config) (next : Word → Word) (s : State) {i : Instr} (hi : i = .fwd ∨ i = .inv) :
    MemoryStep c i s (walkStep c next s) := by
  have records (v : Word) : MemoryStep c i s (recordValue v s) := .record v (hi.imp_right .inl)
  rcases walkStep_cases c next s with ⟨_, e⟩ | ⟨_, _, e⟩ | ⟨_, _, e⟩ | ⟨_, _, _, e⟩ <;> rw [e]
  · exact records _
  · exact .kept {}
  · exact .fatal _ s.draws
  · exact records _

theorem decompBody_memoryStep (c : Config) (s : State) : MemoryStep c .decomp s (decompBody c s) := by
  rcases decompBody_cases c s with ⟨_, _, e⟩ | ⟨_, _, _, e⟩ | ⟨hp, _, _, e⟩ | ⟨_, _, e⟩ | ⟨_, _, _, e⟩ |
    ⟨hp, _, _, e⟩ | ⟨p, _, _, _, e⟩ | ⟨p, hp, _, _, e⟩ | ⟨p, hp, _, e⟩ <;> rw [e]
  · exact .kept {}
  · exact .kept {}
  · exact .startWalk rfl hp
  · exact .kept {}
  · exact .fatal _ s.draws
  · exact .record _ (.inr (.inr ⟨rfl, hp⟩))
  · exact .fatal _ s.draws
  · exact .indexed p rfl hp
  · exact .closed rfl

theorem orbrdBody_memoriesKept (c : Config) (s : State) : MemoriesKept s (orbrdBody c s) := by
  unfold orbrdBody readElement
  split_ifs <;> exact {}

theorem bruteBody_memoriesKept (c : Config) (s : State) : MemoriesKept s (bruteBody c s) := by
  rcases bruteBody_cases c s with ⟨_, e⟩ | ⟨_, _, _, _, e⟩ | ⟨_, _, _, _, e⟩ <;> rw [e] <;>
    exact {}

/-- The engine's own step does to the memories what its command may. -/
theorem bodyOn_memoryStep (c : Config) (i : Instr) (s : State) : MemoryStep c i s (bodyOn c i s) := by
  cases i with
  | build => exact buildBody_memoryStep c s
  | fwd => exact walkStep_memoryStep c c.H s (.inl rfl)
  | inv => exact walkStep_memoryStep c (readT c s) s (.inr rfl)
  | decomp => exact decompBody_memoryStep c s
  | orbrd => exact .kept (orbrdBody_memoriesKept c s)
  | brute => exact .kept (bruteBody_memoriesKept c s)
  | hash | encode | decode | lookup | orbq => exact .kept {}

/-- The hidden state of `t` is that of `s`, but for the search of BRUTE, and so are the two valid flags. -/
structure HiddenKept (s t : State) : Prop extends MemoriesKept s t where
  nrec : t.nrec = s.nrec := by rfl
  norb : t.norb = s.norb := by rfl
  nbase : t.nbase = s.nbase := by rfl
  start : t.start = s.start := by rfl
  phase : t.phase = s.phase := by rfl
  tableValid : t.tableValid = s.tableValid := by rfl
  indexValid : t.indexValid = s.indexValid := by rfl

/-- What one step of the whole can do to the hidden state: a reset; nothing, while the same command stays in
flight or none is; the fatal entry of a refused BUILD; the start of a command; the engine's own step. -/
theorem stepOn_hidden_cases {c : Config} {s t : State} (h : stepOn c s = .next t) :
    (∃ u, t = resetEngine u) ∨
      (HiddenKept s t ∧ (t.state = .busy → s.state = .busy ∧ t.lastop = s.lastop)) ∨
      (∃ e u, t = enterFatal e u ∧ HiddenKept s u) ∨
      (∃ i u, t = startCommand i u ∧ HiddenKept s u ∧ u.lastop = opcodeOf i ∧ issueCheck c i u = none) ∨
      ∃ i rest, s.state = .busy ∧ s.lastop = opcodeOf i ∧ t = bodyOn c i { s with host := rest } := by
  rcases stepOn_cases c s t h with ⟨rest, _, rfl⟩ | ⟨_, _, _, rfl⟩ | ⟨idx, v, rest, _, hw⟩ |
    ⟨_, _, _, rfl⟩ | ⟨rest, i, _, hb, hl, rfl⟩
  · exact .inl ⟨_, rfl⟩
  · exact .inr (.inl ⟨{}, fun hb => ⟨hb, rfl⟩⟩)
  · rcases hostWrite_cases c idx v _ t hw with rfl | ⟨_, r, _, _, _, rfl⟩ | ⟨_, _, _, _, rfl⟩ | ⟨_, _, i, _, rfl⟩
    · exact .inr (.inl ⟨{}, fun hb => ⟨hb, rfl⟩⟩)
    · obtain ⟨_, _, _, _, _, _, e⟩ := storeReg_shape r v { s with host := rest }
      rw [e]
      exact .inr (.inl ⟨{}, fun hb => ⟨hb, rfl⟩⟩)
    · exact .inr (.inl ⟨{}, fun hb => by simp [rejectWord] at hb⟩)
    · rcases issue_outcomes c i { s with host := rest } with ⟨e, he, _⟩ | ⟨he, _, _⟩ | ⟨_, hc, he⟩ <;> rw [he]
      · exact .inr (.inl ⟨{}, fun hb => by simp at hb⟩)
      · exact .inr (.inr (.inl ⟨_, _, rfl, {}⟩))
      · exact .inr (.inr (.inr (.inl ⟨i, _, rfl, {}, rfl, (issueCheck_congr c i rfl rfl).trans hc⟩)))
  · exact .inr (.inl ⟨{}, fun hb => ⟨hb, rfl⟩⟩)
  · exact .inr (.inr (.inr (.inr ⟨i, rest, hb, hl, rfl⟩)))

end Sys2Proof.Machine
end

section
/-! Every memory entry a command does not write keeps its value (rule R87). -/

namespace Sys2Proof.Machine

section
variable {c : Config} {i : Instr} {s t : State} (step : MemoryStep c i s t)
include step

/-- `T` changes only at BUILD's slot of a held input (R135). -/
theorem MemoryStep.memT_frame (o : Nat)
    (h : i = .build → ∀ w p, workerPos s w = some p → (c.H (blockInput p)).toNat ≠ o) :
    t.memT.read o = s.memT.read o := by
  cases step with
  | kept k => rw [k.memT]
  | slot w p hi held free =>
    rw [slotUpdate_free w free]
    exact Memory.read_write_other _ _ _ _ (h hi w p held).symm
  | _ => rfl

/-- `TAG` changes only at BUILD's slot of a held input, and in a fatal error (R135, R204). -/
theorem MemoryStep.memTag_frame (hf : t.state ≠ .fatal) (o : Nat)
    (h : i = .build → ∀ w p, workerPos s w = some p → (c.H (blockInput p)).toNat ≠ o) :
    t.memTag.read o = s.memTag.read o := by
  cases step with
  | kept k => rw [k.memTag]
  | fatal e n => exact absurd rfl hf
  | slot w p hi held free =>
    rw [slotUpdate_free w free]
    exact Memory.read_write_other _ _ _ _ (h hi w p held).symm
  | _ => rfl

/-- `REC` changes only at the place that a walk records (R151, R154, R171). -/
theorem MemoryStep.memRec_frame (k : Nat) (hw : i = .fwd ∨ i = .inv → k ≠ s.nrec + 1)
    (hd : i = .decomp → (s.phase = .scan → k ≠ 1) ∧ (s.phase = .walk → k ≠ s.nrec + 1)) :
    t.memRec.read k = s.memRec.read k := by
  cases step with
  | kept h => rw [h.memRec]
  | slot w p _ _ free => rw [slotUpdate_free w free]; rfl
  | record v hi =>
    refine Memory.read_write_other _ _ _ _ ?_
    rcases hi with hi | hi | ⟨hi, hp⟩
    · exact hw (.inl hi)
    · exact hw (.inr hi)
    · exact (hd hi).2 hp
  | startWalk hi hp => exact Memory.read_write_other _ _ _ _ ((hd hi).1 hp)
  | _ => rfl

/-- `OSEQ` changes only at the place of the element that DECOMP indexes (R171). -/
theorem MemoryStep.memOseq_frame (k : Nat) (h : i = .decomp → ∀ p, s.phase = .index p → k ≠ s.nbase + p) :
    t.memOseq.read k = s.memOseq.read k := by
  cases step with
  | kept h => rw [h.memOseq]
  | slot w p _ _ free => rw [slotUpdate_free w free]; rfl
  | indexed p hi hp => exact Memory.read_write_other _ _ _ _ (h hi p hp)
  | _ => rfl

/-- `ODIR` changes only at the entry of the orbit that DECOMP closes (R171). -/
theorem MemoryStep.memOdir_frame (k : Nat) (h : i = .decomp → k ≠ s.norb) :
    t.memOdir.read k = s.memOdir.read k := by
  cases step with
  | kept h => rw [h.memOdir]
  | slot w p _ _ free => rw [slotUpdate_free w free]; rfl
  | closed hi => exact Memory.read_write_other _ _ _ _ (h hi)
  | _ => rfl

/-- `OIDX` changes only at the element that DECOMP indexes, and in a fatal error (R171, R204). -/
theorem MemoryStep.memOidx_frame (hf : t.state ≠ .fatal) (w : Nat)
    (h : i = .decomp → ∀ p, s.phase = .index p → (readRec c s (p + 1)).toNat ≠ w) :
    t.memOidx.read w = s.memOidx.read w := by
  cases step with
  | kept h => rw [h.memOidx]
  | fatal e n => exact absurd rfl hf
  | slot w p _ _ free => rw [slotUpdate_free w free]; rfl
  | indexed p hi hp => exact Memory.read_write_other _ _ _ _ (h hi p hp).symm
  | _ => rfl

end

/-- Settles O22: the frame of each memory, by what the engine's own step can do to it. -/
theorem memoryFrame : Obligations.MemoryFrame := by
  intro c i s hb
  rw [execOn_busy c i s hb]
  have step := bodyOn_memoryStep c i s
  exact ⟨step.memT_frame, step.memTag_frame, step.memRec_frame, step.memOseq_frame, step.memOdir_frame,
    step.memOidx_frame⟩

end Sys2Proof.Machine
end

section
/-! The memory spaces stay in canonical form (log entries 6 and 7). -/

namespace Sys2Proof.Machine

/-- The outer blocks rise strictly. -/
theorem allBlocks_rising : allBlocks.Pairwise (fun a b => a.toNat < b.toNat) := by
  refine List.pairwise_map.2 (List.pairwise_lt_range.imp_of_mem fun {a b} ha hb hab => ?_)
  rw [List.mem_range] at ha hb
  simp only [BitVec.toNat_ofNat]
  omega

/-- Every outer block is one of the pending blocks at the start of a build (R132). -/
theorem mem_allBlocks (b : BitVec 16) : b ∈ allBlocks :=
  List.mem_map.2 ⟨b.toNat, List.mem_range.2 b.isLt, by simp⟩

/-- Blocks that rise strictly occur once. -/
theorem nodup_of_rising {l : List (BitVec 16)} (h : l.Pairwise (fun a b => a.toNat < b.toNat)) : l.Nodup :=
  h.imp fun hab e => absurd hab (by rw [e]; exact Nat.lt_irrefl _)

variable {c : Config} {s t : State}

theorem MemoriesKept.canonical (k : MemoriesKept s t) (h : MemoriesCanonical s) : MemoriesCanonical t := by
  unfold MemoriesCanonical
  rwa [k.memT, k.memTag, k.memRec, k.memOseq, k.memOdir, k.memOidx, k.cur, k.pending]

theorem enterFatal_canonical (e : EngineError) (h : MemoriesCanonical s) : MemoriesCanonical (enterFatal e s) := by
  obtain ⟨hT, _, hRec, hOseq, hOdir, _, _, _⟩ := h
  exact ⟨hT, rfl, hRec, hOseq, hOdir, rfl, rfl, .nil⟩

/-- A build starts with every outer block pending (R47, R132). -/
theorem startCommand_build_pending (s : State) : (startCommand .build s).pending = allBlocks := by
  simp only [startCommand, initHidden]

theorem startCommand_canonical (i : Instr) (h : MemoriesCanonical s) : MemoriesCanonical (startCommand i s) := by
  obtain ⟨hT, hTag, hRec, hOseq, hOdir, hOidx, hCur, hPending⟩ := h
  cases i with
  | build =>
    refine ⟨hT, rfl, hRec, hOseq, hOdir, hOidx, rfl, ?_⟩
    rw [startCommand_build_pending]
    exact allBlocks_rising
  | decomp => exact ⟨hT, hTag, hRec, hOseq, hOdir, rfl, hCur, hPending⟩
  | _ => exact ⟨hT, hTag, hRec, hOseq, hOdir, hOidx, hCur, hPending⟩

/-- Whatever the engine's own step does to the memories, it writes entries whole or empties a space. -/
theorem MemoryStep.canonical {i : Instr} (step : MemoryStep c i s t) (h : MemoriesCanonical s) :
    MemoriesCanonical t := by
  have ⟨hT, hTag, hRec, hOseq, hOdir, hOidx, hCur, hPending⟩ := h
  cases step with
  | kept k => exact k.canonical h
  | fatal e n => exact enterFatal_canonical (s := s) e h
  | claim w _ _ _ _ =>
    exact ⟨hT, hTag, hRec, hOseq, hOdir, hOidx, Memory.wf_write _ _ _ hCur,
      hPending.sublist (List.eraseIdx_sublist _ _)⟩
  | slot w p _ _ free =>
    rw [slotUpdate_free w free]
    exact ⟨Memory.wf_write _ _ _ hT, Memory.wf_write _ _ _ hTag, hRec, hOseq, hOdir, hOidx,
      Memory.wf_write _ _ _ hCur, hPending⟩
  | record v _ => exact ⟨hT, hTag, Memory.wf_write _ _ _ hRec, hOseq, hOdir, hOidx, hCur, hPending⟩
  | startWalk _ _ => exact ⟨hT, hTag, Memory.wf_write _ _ _ hRec, hOseq, hOdir, hOidx, hCur, hPending⟩
  | indexed p _ _ =>
    exact ⟨hT, hTag, hRec, Memory.wf_write _ _ _ hOseq, hOdir, Memory.wf_write _ _ _ hOidx, hCur, hPending⟩
  | closed _ => exact ⟨hT, hTag, hRec, hOseq, Memory.wf_write _ _ _ hOdir, hOidx, hCur, hPending⟩

/-- Every step keeps the canonical form, at any configuration. -/
theorem stepOn_canonical (h : MemoriesCanonical s) (hst : stepOn c s = .next t) : MemoriesCanonical t := by
  rcases stepOn_hidden_cases hst with ⟨u, rfl⟩ | ⟨k, _⟩ | ⟨e, u, rfl, k⟩ | ⟨i, u, rfl, k, _, _⟩ |
    ⟨i, rest, _, _, rfl⟩
  · exact ⟨rfl, rfl, rfl, rfl, rfl, rfl, rfl, .nil⟩
  · exact k.canonical h
  · exact enterFatal_canonical e (k.canonical h)
  · exact startCommand_canonical i (k.canonical h)
  · exact (bodyOn_memoryStep c i { s with host := rest }).canonical h

/-- Settles O55, by what a step can do to the hidden state. -/
theorem stepKeepsMemoriesCanonical : Obligations.StepKeepsMemoriesCanonical :=
  ⟨fun _ _ _ => stepOn_canonical, fun s _ h hst => stepOn_canonical h (step_eq_stepOn s ▸ hst)⟩

end Sys2Proof.Machine
end

section
/-! A build in flight is sound between its steps, under every schedule, and a valid table inverts `H` (rules R61,
R63, R131, R133 to R136). -/

namespace Sys2Proof.Machine

variable {c : Config} {s t : State}

/-! ### Flags and registers a build depends on -/

/-- A BUILD passes its issue check only while the table is not valid (R205). -/
theorem tableValid_of_issueCheck_build (h : issueCheck c .build s = none) : s.tableValid = false := by
  cases hv : s.tableValid with
  | false => rfl
  | true =>
    simp only [issueCheck, hv] at h
    split at h <;> cases h

/-- The command in flight passed its issue check (R39). -/
theorem issueCheck_of_busy {i : Instr} (h : StatusConsistent c s) (hb : s.state = .busy) (hl : s.lastop = opcodeOf i) :
    issueCheck c i s = none := by
  obtain ⟨_, j, hj, _, hc⟩ : NoError s ∧ InFlightAccepted c s := by simpa only [StateMeaning, hb] using h.1
  rwa [opcodeOf_inj i j (hl.symm.trans hj)]

/-- The engine's own step of another command than BUILD leaves the table alone, unless it is fatal. -/
theorem bodyOn_table_frame {i : Instr} (hb : s.state = .busy) (hi : i ≠ .build) :
    (bodyOn c i s).tableValid = false ∨
      (bodyOn c i s).tableValid = s.tableValid ∧ (bodyOn c i s).memT = s.memT ∧ (bodyOn c i s).memTag = s.memTag := by
  have memories : (bodyOn c i s).tableValid = false ∨
      (bodyOn c i s).memT = s.memT ∧ (bodyOn c i s).memTag = s.memTag := by
    have step := bodyOn_memoryStep c i s
    generalize bodyOn c i s = t at step ⊢
    cases step with
    | kept k => exact .inr ⟨k.memT, k.memTag⟩
    | fatal e n => exact .inl rfl
    | claim _ h => exact absurd h hi
    | slot _ _ h => exact absurd h hi
    | _ => exact .inr ⟨rfl, rfl⟩
  cases hv : (bodyOn c i s).tableValid with
  | false => exact .inl rfl
  | true =>
    obtain ⟨set, _⟩ := bodyOn_flags (c := c) (i := i) hb
    refine .inr ⟨?_, memories.resolve_left (by simp [hv])⟩
    cases hs : s.tableValid with
    | true => rfl
    | false => exact absurd (set hs hv).1 hi

/-! ### The table invariant depends on the table, the held and the pending blocks only -/

theorem readT_congr (h : t.memT = s.memT) (o : Word) : readT c t o = readT c s o := by simp only [readT, h]

theorem readTag_congr (h : t.memTag = s.memTag) (o : Word) : readTag t o = readTag s o := by simp only [readTag, h]

theorem workerPos_congr (h : t.cur = s.cur) (w : Nat) : workerPos t w = workerPos s w := by simp only [workerPos, h]

theorem BuildSound.congr (k : MemoriesKept s t) (h : BuildSound c s) : BuildSound c t := by
  obtain ⟨exist, one, claimed, once, tagged, holds, apart⟩ := h
  constructor <;> simpa only [Processed, k.pending, workerPos_congr k.cur, readTag_congr k.memTag, readT_congr k.memT]

/-- A table that is whole and correct. -/
def TableWhole (c : Config) (s : State) : Prop := (∀ o, readTag s o = true) ∧ TableCorrect c s

theorem TableWhole.congr (hT : t.memT = s.memT) (hTag : t.memTag = s.memTag) (h : TableWhole c s) : TableWhole c t := by
  simpa only [TableWhole, TableCorrect, readTag_congr hTag, readT_congr hT] using h

/-! ### The processed inputs -/

/-- Whether an input is processed depends on who holds its block, and on whether it is pending. -/
theorem processed_congr {i : Word} (pending : i.extractLsb' 16 16 ∈ t.pending ↔ i.extractLsb' 16 16 ∈ s.pending)
    (holder : ∀ v q, q.block = i.extractLsb' 16 16 → (workerPos t v = some q ↔ workerPos s v = some q)) :
    Processed t i ↔ Processed s i := by
  refine and_congr (not_congr pending) (forall_congr' fun v => forall_congr' fun q => ?_)
  exact ⟨fun h held hq => h ((holder v q hq).2 held) hq, fun h held hq => h ((holder v q hq).1 held) hq⟩

/-- Of a block that one worker holds, the inputs below its low index are processed. -/
theorem processed_iff_of_held {w : Nat} {p : BlockPos} {i : Word} (claimed : p.block ∉ s.pending)
    (held : workerPos s w = some p) (only : ∀ v q, workerPos s v = some q → q.block = p.block → q = p)
    (hi : i.extractLsb' 16 16 = p.block) : Processed s i ↔ (i.extractLsb' 0 16).toNat < p.low.toNat := by
  unfold Processed
  rw [hi]
  exact ⟨fun ⟨_, past⟩ => past w p held rfl, fun h => ⟨claimed, fun v q hv hq => only v q hv hq ▸ h⟩⟩

/-- Claiming a pending block processes nothing (R133). -/
theorem processed_claim {w : Nat} {b : BitVec 16} (idle : workerPos s w = none) (hb : b ∈ s.pending)
    (pending : ∀ x, x ∈ t.pending ↔ x ≠ b ∧ x ∈ s.pending)
    (cur : ∀ v, workerPos t v = if v = w then some ⟨b, 0⟩ else workerPos s v) (i : Word) :
    Processed t i ↔ Processed s i := by
  by_cases hi : i.extractLsb' 16 16 = b
  · refine ⟨fun ⟨_, past⟩ => ?_, fun ⟨claimed, _⟩ => absurd (hi ▸ hb) claimed⟩
    exact absurd (past w ⟨b, 0⟩ (by rw [cur, if_pos rfl]) hi.symm) (Nat.not_lt_zero _)
  · refine processed_congr (by simp [pending, hi]) fun v q hq => ?_
    rw [cur]
    split
    · next hv =>
      have : (⟨b, 0⟩ : BlockPos) ≠ q := fun e => hi (by rw [← hq, ← e])
      simp only [hv, idle, reduceCtorEq, Option.some.injEq, this]
    · exact Iff.rfl

/-- Where a worker goes after an input: it leaves the block after the last one, else it goes on in it (R135). -/
theorem nextBlockPos_cases (p : BlockPos) :
    (p.low.toNat = 65535 ∧ nextBlockPos p = none) ∨
      ∃ q, nextBlockPos p = some q ∧ q.block = p.block ∧ q.low.toNat = p.low.toNat + 1 := by
  unfold nextBlockPos
  split
  · next h => exact .inl ⟨by rw [h]; rfl, rfl⟩
  · next h =>
    refine .inr ⟨_, rfl, rfl, ?_⟩
    have hne : p.low.toNat ≠ 65535 := fun e => h (BitVec.eq_of_toNat_eq e)
    have := p.low.isLt
    rw [BitVec.toNat_add, show (1 : BitVec 16).toNat = 1 from rfl]
    omega

/-- An input is that of the worker at `p` when its block and its low index are. -/
theorem eq_blockInput_iff (i : Word) (p : BlockPos) :
    i = blockInput p ↔ i.extractLsb' 16 16 = p.block ∧ (i.extractLsb' 0 16).toNat = p.low.toNat := by
  constructor
  · rintro rfl
    exact ⟨blockInput_high p, congrArg _ (blockInput_low p)⟩
  · rintro ⟨hb, hl⟩
    rw [← blockInput_of_halves i, hb, BitVec.eq_of_toNat_eq hl]

/-- A block has one holder, at one place. -/
theorem BuildSound.holder_unique (h : BuildSound c s) {w v : Nat} {p q : BlockPos} (hp : workerPos s w = some p)
    (hq : workerPos s v = some q) (e : q.block = p.block) : v = w ∧ q = p := by
  obtain rfl := h.blockOfOneWorker v w q p hq hp e
  exact ⟨rfl, Option.some.inj (hq.symm.trans hp)⟩

section
variable {w : Nat} {p : BlockPos} (h : BuildSound c s) (held : workerPos s w = some p)
  (pending : t.pending = s.pending) (cur : ∀ v, workerPos t v = if v = w then nextBlockPos p else workerPos s v)
include h held cur

/-- After a slot update the block is still held by the worker that moved, if at all. -/
theorem holder_after_update {v : Nat} {q : BlockPos} (hq : workerPos t v = some q) :
    (v = w ∧ nextBlockPos p = some q ∧ q.block = p.block) ∨ (v ≠ w ∧ workerPos s v = some q ∧ q.block ≠ p.block) := by
  rw [cur] at hq
  split at hq
  · next hv =>
    refine .inl ⟨hv, hq, ?_⟩
    rcases nextBlockPos_cases p with ⟨_, e⟩ | ⟨r, e, hr, _⟩ <;> rw [e] at hq <;> cases hq
    exact hr
  · next hv => exact .inr ⟨hv, hq, fun e => hv (h.holder_unique held hq e).1⟩

include pending

/-- A slot update processes the input of the worker that moves, and no other (R135). -/
theorem processed_update (i : Word) : Processed t i ↔ Processed s i ∨ i = blockInput p := by
  rw [eq_blockInput_iff]
  by_cases hi : i.extractLsb' 16 16 = p.block
  · have low := (i.extractLsb' 0 16).isLt
    have claimed := h.claimedBlock w p held
    rw [processed_iff_of_held claimed held (fun v q hv e => (h.holder_unique held hv e).2) hi]
    rcases nextBlockPos_cases p with ⟨hl, e⟩ | ⟨q, e, hq, hl⟩
    · have : Processed t i := by
        refine ⟨by rwa [pending, hi], fun v r hv hr => ?_⟩
        rcases holder_after_update h held cur hv with ⟨_, e', _⟩ | ⟨_, _, hne⟩
        · rw [e] at e'
          cases e'
        · exact absurd (hr.trans hi) hne
      simp only [this, hi, true_and, true_iff]
      omega
    · have only (v : Nat) (r : BlockPos) (hv : workerPos t v = some r) (hr : r.block = q.block) : r = q := by
        rcases holder_after_update h held cur hv with ⟨_, e', _⟩ | ⟨_, _, hne⟩
        · exact Option.some.inj (e'.symm.trans e)
        · exact absurd (hr.trans hq) hne
      have moved : workerPos t w = some q := by rw [cur, if_pos rfl, e]
      rw [processed_iff_of_held (by rwa [pending, hq]) moved only (hi.trans hq.symm), hl]
      simp only [hi, true_and]
      omega
  · have same : Processed t i ↔ Processed s i := by
      refine processed_congr (by rw [pending]) fun v q hq => ?_
      have hne : q.block ≠ p.block := fun e => hi (hq.symm.trans e)
      constructor
      · intro hv
        rcases holder_after_update h held cur hv with ⟨_, _, e⟩ | ⟨_, hv', _⟩
        · exact absurd e hne
        · exact hv'
      · intro hv
        have : v ≠ w := fun e => hne (by rw [e, held] at hv; exact congrArg BlockPos.block (Option.some.inj hv).symm)
        rwa [cur, if_neg this]
    simp [same, hi]

end

/-! ### The steps of a build -/

/-- A build starts sound: every block is pending, no slot is tagged (R132). -/
theorem startCommand_build_sound (c : Config) (s : State) : BuildSound c (startCommand .build s) := by
  have idle (w : Nat) : workerPos (startCommand .build s) w = none := rfl
  have clear (o : Word) : readTag (startCommand .build s) o = false := rfl
  have pending := startCommand_build_pending s
  have none_processed (i : Word) : ¬ Processed (startCommand .build s) i :=
    fun ⟨claimed, _⟩ => claimed (pending ▸ mem_allBlocks _)
  exact
    { workerExists := fun w p hp => by simp [idle] at hp
      blockOfOneWorker := fun w w' p p' hp => by simp [idle] at hp
      claimedBlock := fun w p hp => by simp [idle] at hp
      pendingOnce := pending ▸ nodup_of_rising allBlocks_rising
      tagged := fun o => by simp [clear, none_processed]
      slotHolds := fun o ho => by simp [clear] at ho
      noCollision := fun i j hi => absurd hi (none_processed i) }

/-- A claim keeps a build sound (R133). -/
theorem BuildSound.claim {w : Nat} {b : BitVec 16} (h : BuildSound c s) (hw : w < c.nworkers)
    (idle : workerPos s w = none) (hb : b ∈ s.pending) (once : t.pending.Nodup)
    (pending : ∀ x, x ∈ t.pending ↔ x ≠ b ∧ x ∈ s.pending)
    (cur : ∀ v, workerPos t v = if v = w then some ⟨b, 0⟩ else workerPos s v) (hT : t.memT = s.memT)
    (hTag : t.memTag = s.memTag) : BuildSound c t := by
  have processed := processed_claim idle hb pending cur
  have holder {v : Nat} {p : BlockPos} (hp : workerPos t v = some p) :
      (v = w ∧ p.block = b) ∨ (workerPos s v = some p ∧ p.block ≠ b) := by
    rw [cur] at hp
    split at hp
    · next hv =>
      cases hp
      exact .inl ⟨hv, rfl⟩
    · exact .inr ⟨hp, fun e => h.claimedBlock v p hp (e ▸ hb)⟩
  refine ⟨fun v p hp => ?_, fun v v' p p' hp hp' e => ?_, fun v p hp => ?_, once, fun o => ?_, fun o ho => ?_,
    fun i j hi hj => ?_⟩
  · rcases holder hp with ⟨rfl, _⟩ | ⟨hs, _⟩
    · exact hw
    · exact h.workerExists v p hs
  · rcases holder hp with ⟨rfl, hb1⟩ | ⟨hs, hb1⟩ <;> rcases holder hp' with ⟨rfl, hb2⟩ | ⟨hs', hb2⟩
    · rfl
    · exact absurd (e.symm.trans hb1) hb2
    · exact absurd (e.trans hb2) hb1
    · exact h.blockOfOneWorker v v' p p' hs hs' e
  · rw [pending]
    rintro ⟨hne, hmem⟩
    rcases holder hp with ⟨_, e⟩ | ⟨hs, _⟩
    · exact hne e
    · exact h.claimedBlock v p hs hmem
  · simpa only [readTag_congr hTag, processed] using h.tagged o
  · rw [readTag_congr hTag] at ho
    rw [readT_congr hT]
    exact h.slotHolds o ho
  · exact h.noCollision i j ((processed i).1 hi) ((processed j).1 hj)

/-- A slot update at a clear tag keeps a build sound: no processed input has that slot (R135). -/
theorem BuildSound.update {w : Nat} {p : BlockPos} (h : BuildSound c s) (held : workerPos s w = some p)
    (free : readTag s (c.H (blockInput p)) = false) (pending : t.pending = s.pending)
    (cur : ∀ v, workerPos t v = if v = w then nextBlockPos p else workerPos s v)
    (hT : ∀ o, readT c t o = if o = c.H (blockInput p) then blockInput p else readT c s o)
    (hTag : ∀ o, readTag t o = if o = c.H (blockInput p) then true else readTag s o) : BuildSound c t := by
  have processed := processed_update h held pending cur
  have holder {v : Nat} {q : BlockPos} := holder_after_update (v := v) (q := q) h held cur
  have hw := h.workerExists w p held
  have fresh {i : Word} (hi : Processed s i) : c.H i ≠ c.H (blockInput p) := fun e =>
    absurd ((h.tagged _).2 ⟨i, hi, e⟩) (by simp [free])
  refine ⟨fun v q hq => ?_, fun v v' q q' hq hq' e => ?_, fun v q hq => ?_, pending ▸ h.pendingOnce, fun o => ?_,
    fun o ho => ?_, fun i j hi hj e => ?_⟩
  · rcases holder hq with ⟨rfl, _⟩ | ⟨_, hs, _⟩
    · exact hw
    · exact h.workerExists v q hs
  · rcases holder hq with ⟨rfl, _, hb1⟩ | ⟨_, hs, hb1⟩ <;> rcases holder hq' with ⟨rfl, _, hb2⟩ | ⟨_, hs', hb2⟩
    · rfl
    · exact absurd (e.symm.trans hb1) hb2
    · exact absurd (e.trans hb2) hb1
    · exact h.blockOfOneWorker v v' q q' hs hs' e
  · rw [pending]
    rcases holder hq with ⟨_, _, hb⟩ | ⟨_, hs, _⟩
    · rw [hb]
      exact h.claimedBlock w p held
    · exact h.claimedBlock v q hs
  · simp only [hTag, processed, or_and_right, exists_or, exists_eq_left, ← h.tagged]
    split
    · next e => simp [e]
    · next e => simp [Ne.symm e]
  · rw [hTag] at ho
    rw [hT]
    split at ho
    · next e => rw [if_pos e, e]
    · next e => rw [if_neg e, h.slotHolds o ho]
  · rcases (processed i).1 hi with hi | rfl <;> rcases (processed j).1 hj with hj | rfl
    · exact h.noCollision i j hi hj e
    · exact absurd e (fresh hi)
    · exact absurd e.symm (fresh hj)
    · rfl

/-- At the join every input has been processed (R136). -/
theorem BuildSound.all_processed (h : BuildSound c s) (join : enabledWorkers c s = []) (i : Word) : Processed s i := by
  have stuck (w : Nat) (hw : w < c.nworkers) : s.pending = [] ∧ workerPos s w = none := by
    have := mem_enabledWorkers c s w
    simpa [join, hw, not_or] using this
  have idle (w : Nat) : workerPos s w = none := by
    by_contra hne
    obtain ⟨p, hp⟩ := Option.ne_none_iff_exists'.1 hne
    exact hne (stuck w (h.workerExists w p hp)).2
  refine ⟨?_, fun w p hp => by simp [idle] at hp⟩
  rw [(stuck 0 (Nat.succ_pos _)).1]
  exact List.not_mem_nil

/-- At the join the table is whole and correct: `H` has no collision on all the inputs, so it reaches every slot
(R131, R136). -/
theorem BuildSound.tableWhole (h : BuildSound c s) (join : enabledWorkers c s = []) : TableWhole c s := by
  have all := h.all_processed join
  have injective : Function.Injective c.H := fun i j => h.noCollision i j (all i) (all j)
  have tagged (o : Word) : readTag s o = true := by
    have : Finite Word := Finite.of_equiv _ (BitVec.equivFin (m := 32)).symm.toEquiv
    obtain ⟨i, hi⟩ := Finite.surjective_of_injective injective o
    exact (h.tagged o).2 ⟨i, all i, hi⟩
  exact ⟨tagged, fun o => h.slotHolds o (tagged o)⟩

/-- The block that a claim takes is a pending one, and the others stay pending. -/
theorem claimStep_pending (h : s.pending.Nodup) (hp : s.pending ≠ []) (w : Nat) :
    s.pending.getD (claimedPlace c s) 0 ∈ s.pending ∧
      ∀ x, x ∈ (claimStep c w s).pending ↔ x ≠ s.pending.getD (claimedPlace c s) 0 ∧ x ∈ s.pending := by
  have place : claimedPlace c s < s.pending.length := Nat.mod_lt _ (List.length_pos_iff.2 hp)
  rw [List.getD_eq_getElem _ _ place]
  refine ⟨List.getElem_mem place, fun x => ?_⟩
  simp only [claimStep]
  rw [← h.erase_getElem _ place, h.mem_erase_iff]

/-- What a memory of written slots reads after a write of a Word. -/
theorem readT_write (c : Config) (s : State) (a v o : Word) :
    readT c { s with memT := s.memT.write a.toNat (some v) } o = if o = a then v else readT c s o := by
  simp only [readT, Memory.read_write s.memT a.toNat o.toNat (some v) (Option.some_ne_none v), ← BitVec.toNat_inj]
  split <;> rfl

theorem readTag_write (s : State) (a o : Word) :
    readTag { s with memTag := s.memTag.write a.toNat true } o = if o = a then true else readTag s o := by
  simp only [readTag, Memory.read_write s.memTag a.toNat o.toNat true (by decide), ← BitVec.toNat_inj]

/-- A worker's place after any write to `CUR` in canonical form. -/
theorem workerPos_write (s : State) (w v : Nat) (q : Option BlockPos) (canonical : Memory.wf s.cur = true) :
    workerPos { s with cur := s.cur.write w q } v = if v = w then q else workerPos s v := by
  simp only [workerPos]
  split
  · next e => rw [e, Memory.read_write_same_of_wf _ _ _ canonical]
  · next e => rw [Memory.read_write_other _ _ _ _ e]

/-- A step of a build in flight keeps it sound, or makes the table whole, or is fatal (R133 to R136). -/
theorem buildBody_table (h : BuildSound c s) (canonical : Memory.wf s.cur = true) :
    (BuildSound c (buildBody c s) ∧ (buildBody c s).tableValid = s.tableValid) ∨
      ((buildBody c s).state = .fatal ∧ (buildBody c s).tableValid = false) ∨
      ((buildBody c s).state = .done ∧ TableWhole c (buildBody c s)) := by
  rcases buildBody_cases c s with ⟨join, e⟩ | ⟨w, hw, ⟨idle, hp, e⟩ | ⟨p, held, e⟩⟩ <;> rw [e]
  · exact .inr (.inr ⟨rfl, (h.tableWhole join).congr rfl rfl⟩)
  · obtain ⟨hb, pending⟩ := claimStep_pending (c := c) h.pendingOnce hp w
    exact .inl ⟨h.claim hw idle hb (h.pendingOnce.sublist (List.eraseIdx_sublist _ _)) pending
      (fun v => workerPos_write s w v _ canonical) rfl rfl, rfl⟩
  · cases tag : readTag s (c.H (blockInput p)) with
    | true =>
      rw [slotUpdate_taken w tag]
      exact .inr (.inl ⟨rfl, rfl⟩)
    | false =>
      rw [slotUpdate_free w tag]
      exact .inl ⟨h.update held tag rfl (fun v => workerPos_write s w v _ canonical) (readT_write c s _ _)
        (readTag_write s _), rfl⟩

/-! ### Every step -/

/-- Starting a command keeps the table invariant: a build starts sound, and no other command touches the table. -/
theorem startCommand_tableInvariant {i : Instr} (hl : s.lastop = opcodeOf i) (hc : issueCheck c i s = none)
    (valid : s.tableValid = true → TableWhole c s) : TableInvariant c (startCommand i s) := by
  have inFlight (hl' : (startCommand i s).lastop = opcodeOf .build) : i = .build :=
    opcodeOf_inj _ _ (hl.symm.trans ((startCommand_lastop i s).symm.trans hl'))
  refine ⟨fun _ hl' => inFlight hl' ▸ startCommand_build_sound c s, fun hv => ?_⟩
  rw [startCommand_tableValid] at hv
  cases i with
  | build => simp [tableValid_of_issueCheck_build hc] at hv
  | _ => exact (valid hv).congr rfl rfl

/-- The engine's own step keeps the table invariant. -/
theorem bodyOn_tableInvariant {i : Instr} (hs : StatusConsistent c s) (hm : MemoriesCanonical s)
    (h : TableInvariant c s) (hb : s.state = .busy) (hl : s.lastop = opcodeOf i) : TableInvariant c (bodyOn c i s) := by
  obtain ⟨build, valid⟩ := h
  by_cases hi : i = .build
  · subst hi
    have invalid := tableValid_of_issueCheck_build (issueCheck_of_busy hs hb hl)
    obtain ⟨_, _, _, _, _, _, cur, _⟩ := hm
    simp only [bodyOn]
    rcases buildBody_table (build hb hl) cur with ⟨sound, e⟩ | ⟨fatal, e⟩ | ⟨done, whole⟩
    · exact ⟨fun _ _ => sound, fun hv => by simp [e, invalid] at hv⟩
    · exact ⟨fun hb' => by simp [fatal] at hb', fun hv => by simp [e] at hv⟩
    · exact ⟨fun hb' => by simp [done] at hb', fun _ => whole⟩
  · obtain ⟨_, _, _, _, _, _, lastop, _, _⟩ := bodyOn_frame c i s
    refine ⟨fun _ hl' => absurd (opcodeOf_inj _ _ (hl.symm.trans (lastop.symm.trans hl'))) hi, fun hv => ?_⟩
    rcases bodyOn_table_frame (c := c) hb hi with e | ⟨e, hT, hTag⟩
    · simp [e] at hv
    · exact TableWhole.congr hT hTag (valid (e ▸ hv))

/-- Where the hidden state is kept and no other command comes into flight, the table invariant is kept. -/
theorem HiddenKept.tableInvariant (k : HiddenKept s t)
    (inFlight : t.state = .busy → s.state = .busy ∧ t.lastop = s.lastop) (h : TableInvariant c s) :
    TableInvariant c t := by
  obtain ⟨build, valid⟩ := h
  refine ⟨fun hb hl => ?_, fun hv => TableWhole.congr k.memT k.memTag (valid (k.tableValid ▸ hv))⟩
  obtain ⟨hb', e⟩ := inFlight hb
  exact (build hb' (e ▸ hl)).congr k.toMemoriesKept

/-- Every step keeps the table invariant, at any configuration. -/
theorem stepOn_tableInvariant (hs : StatusConsistent c s) (hm : MemoriesCanonical s) (h : TableInvariant c s)
    (hst : stepOn c s = .next t) : TableInvariant c t := by
  rcases stepOn_hidden_cases hst with ⟨u, rfl⟩ | ⟨k, inFlight⟩ | ⟨e, u, rfl, _⟩ | ⟨i, u, rfl, k, hl, hc⟩ |
    ⟨i, rest, hb, hl, rfl⟩
  · exact ⟨fun hb => EngineState.noConfusion hb, fun hv => Bool.noConfusion hv⟩
  · exact k.tableInvariant inFlight h
  · exact ⟨fun hb => EngineState.noConfusion hb, fun hv => Bool.noConfusion hv⟩
  · exact startCommand_tableInvariant hl hc fun hv => TableWhole.congr k.memT k.memTag (h.2 (k.tableValid ▸ hv))
  · have rested : TableInvariant c { s with host := rest } :=
      HiddenKept.tableInvariant (s := s) {} (fun hb => ⟨hb, rfl⟩) h
    exact bodyOn_tableInvariant (s := { s with host := rest }) hs hm rested hb hl

/-- Settles O31, by what a step can do to the hidden state; the steps of a build are `buildBody_table`. -/
theorem stepKeepsTableInvariant : Obligations.StepKeepsTableInvariant :=
  ⟨fun _ _ _ => stepOn_tableInvariant, fun s _ hs hm h hst => stepOn_tableInvariant hs hm h (step_eq_stepOn s ▸ hst)⟩

end Sys2Proof.Machine
end

section
/-! A decomposition in flight is sound between its steps, and a valid index is whole and correct (rules R65, R66,
R171, R174). -/

namespace Sys2Proof.Machine

variable {c : Config} {s t : State}

/-! ### Reading the orbit memories -/

theorem readRec_congr {k : Nat} (h : t.memRec.read k = s.memRec.read k) : readRec c t k = readRec c s k := by
  simp only [readRec, h]

theorem readOseq_congr {k : Nat} (h : t.memOseq.read k = s.memOseq.read k) : readOseq c t k = readOseq c s k := by
  simp only [readOseq, h]

theorem readOdir_congr {k : Nat} (h : t.memOdir.read k = s.memOdir.read k) : readOdir c t k = readOdir c s k := by
  simp only [readOdir, h]

theorem readRec_of_read {k : Nat} {v : Word} (h : s.memRec.read k = some v) : readRec c s k = v := by
  simp only [readRec, h, Option.getD_some]

theorem readOseq_of_read {k : Nat} {v : Word} (h : s.memOseq.read k = some v) : readOseq c s k = v := by
  simp only [readOseq, h, Option.getD_some]

theorem readOdir_of_read {k : Nat} {d : OrbitDir} (h : s.memOdir.read k = some d) : readOdir c s k = d := by
  simp only [readOdir, h, Option.getD_some]

theorem isIndexed_of_read {w : Word} {e : OrbitPos} (h : s.memOidx.read w.toNat = some e) : isIndexed s w = true := by
  simp only [isIndexed, h, Option.isSome_some]

theorem read_of_isIndexed {w : Word} (h : isIndexed s w = true) : ∃ e, s.memOidx.read w.toNat = some e :=
  Option.isSome_iff_exists.1 h

theorem orbitLengthsBelow_congr {k : Nat} (h : ∀ id, id < k → s.memOdir.read id = t.memOdir.read id) :
    orbitLengthsBelow c t k = orbitLengthsBelow c s k := by
  unfold orbitLengthsBelow
  refine congrArg List.sum (List.map_congr_left fun id hid => ?_)
  rw [readOdir_congr (h id (List.mem_range.1 hid)).symm]

/-! ### One stored orbit -/

/-- What `OrbitsSound` says of one orbit. -/
structure OrbitAt (c : Config) (s : State) (id : Nat) : Prop where
  listed : s.memOdir.read id ≠ none
  length : 1 ≤ (readOdir c s id).len ∧ (readOdir c s id).len ≤ domainSize
  base : (readOdir c s id).base = orbitLengthsBelow c s id
  written : ∀ p, p < (readOdir c s id).len → s.memOseq.read ((readOdir c s id).base + p) ≠ none
  place : ∀ p, p < (readOdir c s id).len → s.memOidx.read (orbitElement c s id p).toNat = some ⟨id, p⟩
  successor : ∀ p, p < (readOdir c s id).len →
    orbitElement c s id ((p + 1) % (readOdir c s id).len) = c.H (orbitElement c s id p)

theorem orbitsSound_iff : OrbitsSound c s ↔ ∀ id, id < s.norb → OrbitAt c s id :=
  ⟨fun h id hid => ⟨h.listed id hid, h.length id hid, h.base id hid, fun p => h.written id p hid,
      fun p => h.place id p hid, fun p => h.successor id p hid⟩,
    fun h => ⟨fun id hid => (h id hid).listed, fun id hid => (h id hid).length, fun id hid => (h id hid).base,
      fun id p hid => (h id hid).written p, fun id p hid => (h id hid).place p, fun id p hid => (h id hid).successor p⟩⟩

/-- An orbit stays sound where the directory up to it, its elements and their index entries are kept. -/
theorem OrbitAt.of_agree {id : Nat} (h : OrbitAt c s id)
    (odir : ∀ k, k ≤ id → t.memOdir.read k = s.memOdir.read k)
    (oseq : ∀ p, p < (readOdir c s id).len →
      t.memOseq.read ((readOdir c s id).base + p) = s.memOseq.read ((readOdir c s id).base + p))
    (oidx : ∀ p, p < (readOdir c s id).len →
      t.memOidx.read (orbitElement c s id p).toNat = s.memOidx.read (orbitElement c s id p).toNat) :
    OrbitAt c t id := by
  have dir : readOdir c t id = readOdir c s id := readOdir_congr (odir id (Nat.le_refl _))
  have below : orbitLengthsBelow c t id = orbitLengthsBelow c s id :=
    orbitLengthsBelow_congr fun k hk => (odir k (Nat.le_of_lt hk)).symm
  have element (p : Nat) (hp : p < (readOdir c s id).len) : orbitElement c t id p = orbitElement c s id p := by
    simp only [orbitElement, dir]
    exact readOseq_congr (oseq p hp)
  constructor
  · rw [odir id (Nat.le_refl _)]
    exact h.listed
  · rw [dir]
    exact h.length
  · rw [dir, below]
    exact h.base
  · intro p hp
    rw [dir] at hp ⊢
    rw [oseq p hp]
    exact h.written p hp
  · intro p hp
    rw [dir] at hp
    rw [element p hp, oidx p hp]
    exact h.place p hp
  · intro p hp
    rw [dir] at hp ⊢
    rw [element p hp, element _ (Nat.mod_lt _ (Nat.zero_lt_of_lt hp))]
    exact h.successor p hp

/-- The orbit memories of `t` and its number of orbits are those of `s`. -/
structure OrbitsKept (s t : State) : Prop where
  memOidx : t.memOidx = s.memOidx := by rfl
  memOdir : t.memOdir = s.memOdir := by rfl
  memOseq : t.memOseq = s.memOseq := by rfl
  norb : t.norb = s.norb := by rfl

theorem OrbitsKept.sound (k : OrbitsKept s t) (h : OrbitsSound c s) : OrbitsSound c t := by
  rw [orbitsSound_iff] at h ⊢
  rw [k.norb]
  exact fun id hid => (h id hid).of_agree (by simp [k.memOdir]) (by simp [k.memOseq]) (by simp [k.memOidx])

theorem OrbitsKept.isIndexed (k : OrbitsKept s t) (w : Word) : isIndexed t w = isIndexed s w := by
  simp only [Machine.isIndexed, k.memOidx]

theorem OrbitsKept.readOdir (k : OrbitsKept s t) (id : Nat) : readOdir c t id = readOdir c s id :=
  readOdir_congr (by rw [k.memOdir])

theorem OrbitsKept.element (k : OrbitsKept s t) (id p : Nat) : orbitElement c t id p = orbitElement c s id p := by
  simp only [orbitElement, k.readOdir]
  exact readOseq_congr (by rw [k.memOseq])

theorem OrbitsKept.lengthSum (k : OrbitsKept s t) : orbitLengthSum c t = orbitLengthSum c s := by
  unfold orbitLengthSum
  rw [k.norb]
  exact orbitLengthsBelow_congr fun id _ => by rw [k.memOdir]

/-! ### A valid index -/

/-- An index that is whole and correct, over sound orbits. -/
def IndexWhole (c : Config) (s : State) : Prop := (∀ w, isIndexed s w = true) ∧ OrbitsSound c s ∧ IndexCorrect c s

theorem OrbitsKept.indexWhole (k : OrbitsKept s t) (h : IndexWhole c s) : IndexWhole c t := by
  obtain ⟨whole, sound, correct⟩ := h
  refine ⟨fun w => (k.isIndexed w).trans (whole w), k.sound sound, ?_⟩
  simpa only [IndexCorrect, readOidx, Machine.readOdir, readOseq, k.memOidx, k.memOdir, k.memOseq, k.norb] using correct

/-- An index in which every entry names the place of its Word in a sound orbit is correct (R66, R172). -/
theorem indexWhole_of_placed (sound : OrbitsSound c s) (whole : ∀ w, isIndexed s w = true)
    (placed : ∀ (w : Word) e, s.memOidx.read w.toNat = some e →
      e.id < s.norb ∧ e.pos < (readOdir c s e.id).len ∧ orbitElement c s e.id e.pos = w) : IndexWhole c s := by
  refine ⟨whole, sound, fun w => ?_⟩
  obtain ⟨e, he⟩ := read_of_isIndexed (whole w)
  obtain ⟨hid, hpos, helement⟩ := placed w e he
  rw [show readOidx c s w = e by simp only [readOidx, he, Option.getD_some]]
  exact ⟨hid, hpos, helement, fun p hp => sound.successor e.id p hid hp⟩

/-! ### The steps of a decomposition -/

/-- Every entry of the index names a stored orbit while no orbit is being indexed. -/
theorem DecompSound.placed_stored (h : DecompSound c s) (hp : ∀ p, s.phase ≠ .index p) {w : Word} {e : OrbitPos}
    (he : s.memOidx.read w.toNat = some e) :
    e.id < s.norb ∧ e.pos < (readOdir c s e.id).len ∧ orbitElement c s e.id e.pos = w :=
  (h.placed w e he).resolve_right fun ⟨_, p, hp', _⟩ => hp p hp'

/-- A step that stores nothing, taken while no orbit is being indexed, keeps a decomposition sound if it keeps what
is said of the candidates passed and of the walk. -/
theorem DecompSound.of_kept (h : DecompSound c s) (hp : ∀ p, s.phase ≠ .index p) (k : OrbitsKept s t)
    (nbase : t.nbase = s.nbase) (covered : ∀ w : Word, w.toNat < t.start → isIndexed t w = true)
    (walk : t.phase ≠ .scan → OrbitWalkSound c t) (indexing : ∀ p, t.phase = .index p → OrbitIndexing c t p) :
    DecompSound c t where
  orbits := k.sound h.orbits
  used := by rw [nbase, k.lengthSum, h.used]
  covered := covered
  placed w e he := by
    rw [k.memOidx] at he
    rw [k.norb, k.readOdir, k.element]
    exact .inl (h.placed_stored hp he)
  walk := walk
  indexing := indexing

/-- A decomposition starts sound: nothing is indexed (R171). -/
theorem startCommand_decomp_sound (c : Config) (s : State) : DecompSound c (startCommand .decomp s) where
  orbits := orbitsSound_iff.2 fun _ hid => absurd hid (Nat.not_lt_zero _)
  used := rfl
  covered _ hw := absurd hw (Nat.not_lt_zero _)
  placed w e he := by simp [startCommand, initHidden, Memory.unlisted] at he
  walk hp := absurd rfl hp
  indexing _ hp := DecompPhase.noConfusion hp

/-- The start Word is the Word of its number. -/
theorem startWord_eq {w : Word} (h : w.toNat = s.start) : startWord s = w := by
  rw [startWord, ← h, BitVec.ofNat_toNat, BitVec.setWidth_eq]

/-- Once the start Word is indexed, so is every candidate up to it. -/
theorem DecompSound.covered_next (h : DecompSound c s) (hi : isIndexed s (startWord s) = true) (w : Word)
    (hw : w.toNat < s.start + 1) : isIndexed s w = true := by
  rcases Nat.lt_succ_iff_lt_or_eq.1 hw with hw | hw
  · exact h.covered w hw
  · exact startWord_eq hw ▸ hi

/-- Skipping an indexed candidate (R171). -/
theorem DecompSound.skip (h : DecompSound c s) (hp : s.phase = .scan) (hi : isIndexed s (startWord s) = true) :
    DecompSound c (nextStart s) :=
  h.of_kept (by simp [hp]) {} rfl (h.covered_next hi) (fun hp' => absurd rfl hp') fun _ hp' => by simp at hp'

/-- Starting a walk at a candidate (R171). -/
theorem DecompSound.startWalk (h : DecompSound c s) (hp : s.phase = .scan) :
    DecompSound c { s with nrec := 1, memRec := s.memRec.write 1 (some (startWord s)), phase := .walk } := by
  have first := Memory.read_write_same s.memRec 1 (some (startWord s)) (Option.some_ne_none _)
  refine h.of_kept (by simp [hp]) {} rfl h.covered (fun _ => ?_) fun _ hp' => DecompPhase.noConfusion hp'
  refine ⟨Nat.le_refl 1, first, fun k h1 hk => ?_, fun k h1 hk => absurd h1 (Nat.not_le_of_lt hk)⟩
  rw [Nat.le_antisymm hk h1, first]
  exact Option.some_ne_none _

/-- A walk goes on being sound when the image of its last value is recorded (R171). -/
theorem OrbitWalkSound.record (h : OrbitWalkSound c s) :
    OrbitWalkSound c (recordValue (c.H (readRec c s s.nrec)) s) := by
  obtain ⟨nonempty, first, written, image⟩ := h
  have last := Memory.read_write_same s.memRec (s.nrec + 1) (some (c.H (readRec c s s.nrec))) (Option.some_ne_none _)
  have before {k : Nat} (hk : k ≤ s.nrec) :
      (recordValue (c.H (readRec c s s.nrec)) s).memRec.read k = s.memRec.read k :=
    Memory.read_write_other _ _ _ _ (by omega)
  refine ⟨Nat.le_succ_of_le nonempty, (before nonempty).trans first, fun k h1 hk => ?_, fun k h1 hk => ?_⟩
  · rcases Nat.le_succ_iff.1 hk with hk | rfl
    · rw [before hk]
      exact written k h1 hk
    · rw [recordValue_memRec, last]
      exact Option.some_ne_none _
  · have hk' : k ≤ s.nrec := Nat.le_of_lt_succ hk
    rw [readRec_congr (before hk')]
    rcases Nat.lt_or_eq_of_le hk' with hk' | rfl
    · rw [readRec_congr (before hk'), image k h1 hk']
    · exact readRec_of_read last

theorem DecompSound.record (h : DecompSound c s) (hp : s.phase = .walk) :
    DecompSound c (recordValue (c.H (readRec c s s.nrec)) s) :=
  h.of_kept (by simp [hp]) {} rfl h.covered (fun _ => (h.walk (by simp [hp])).record) fun _ hp' => by simp [hp] at hp'

/-- The walk closes, and no value is indexed yet (R171). -/
theorem DecompSound.closeWalk (h : DecompSound c s) (hp : s.phase = .walk)
    (closed : c.H (readRec c s s.nrec) = startWord s) : DecompSound c { s with phase := .index 0 } := by
  obtain ⟨nonempty, first, written, image⟩ := h.walk (by simp [hp])
  refine h.of_kept (by simp [hp]) {} rfl h.covered (fun _ => ⟨nonempty, first, written, image⟩) fun p hp' => ?_
  cases hp'
  exact ⟨Nat.zero_le _, closed, fun k hk => absurd hk (Nat.not_lt_zero k), fun k hk => absurd hk (Nat.not_lt_zero k)⟩

/-- The state after one element is indexed at position `p` (R171). -/
def indexedAt (c : Config) (p : Nat) (s : State) : State :=
  { s with
    memOidx := s.memOidx.write (readRec c s (p + 1)).toNat (some ⟨s.norb, p⟩)
    memOseq := s.memOseq.write (s.nbase + p) (some (readRec c s (p + 1)))
    phase := .index (p + 1) }

section
variable {p : Nat}

theorem indexedAt_oidx_same (c : Config) (p : Nat) (s : State) :
    (indexedAt c p s).memOidx.read (readRec c s (p + 1)).toNat = some ⟨s.norb, p⟩ :=
  Memory.read_write_same _ _ _ (Option.some_ne_none _)

/-- Indexing a Word that is not indexed keeps every entry of the index. -/
theorem indexedAt_oidx_kept (free : isIndexed s (readRec c s (p + 1)) = false) {w : Word} {e : OrbitPos}
    (he : s.memOidx.read w.toNat = some e) : (indexedAt c p s).memOidx.read w.toNat = some e := by
  refine (Memory.read_write_other _ _ _ _ fun h => ?_).trans he
  rw [BitVec.toNat_inj.1 h] at he
  simp [isIndexed_of_read he] at free

theorem indexedAt_oseq (c : Config) (p : Nat) (s : State) (k : Nat) :
    (indexedAt c p s).memOseq.read k = if k = s.nbase + p then some (readRec c s (p + 1)) else s.memOseq.read k :=
  Memory.read_write _ _ _ _ (Option.some_ne_none _)

/-- The orbits already stored lie below the place of a new element. -/
theorem DecompSound.below_nbase (h : DecompSound c s) {id q : Nat} (hid : id < s.norb)
    (hq : q < (readOdir c s id).len) :
    (readOdir c s id).base + q < s.nbase := by
  have := h.orbits.end_le id hid
  have := h.used
  omega

theorem DecompSound.indexedAt_element (h : DecompSound c s) {id q : Nat} (hid : id < s.norb)
    (hq : q < (readOdir c s id).len) :
    orbitElement c (indexedAt c p s) id q = orbitElement c s id q :=
  readOseq_congr (by
    rw [show readOdir c (indexedAt c p s) id = readOdir c s id from rfl, indexedAt_oseq,
      if_neg (by have := h.below_nbase hid hq; omega)])

variable (h : DecompSound c s) (hp : s.phase = .index p) (free : isIndexed s (readRec c s (p + 1)) = false)
include h free

/-- Indexing an element leaves the stored orbits alone. -/
theorem DecompSound.indexedAt_orbit {id : Nat} (hid : id < s.norb) : OrbitAt c (indexedAt c p s) id := by
  have orbit := orbitsSound_iff.1 h.orbits id hid
  refine orbit.of_agree (fun _ _ => rfl) (fun q hq => ?_) fun q hq => ?_
  · rw [indexedAt_oseq, if_neg (by have := h.below_nbase hid hq; omega)]
  · rw [orbit.place q hq]
    exact indexedAt_oidx_kept free (orbit.place q hq)

include hp

/-- One more value of a closed walk is indexed (R171). -/
theorem DecompSound.indexedAt_indexing (hlt : p < s.nrec) : OrbitIndexing c (indexedAt c p s) (p + 1) := by
  obtain ⟨within, closed, stored, place⟩ := h.indexing p hp
  refine ⟨hlt, closed, fun k hk => ?_, fun k hk => ?_⟩
  · rw [show (indexedAt c p s).nbase = s.nbase from rfl, indexedAt_oseq]
    rcases Nat.lt_succ_iff_lt_or_eq.1 hk with hk | rfl
    · rw [if_neg (by omega)]
      exact stored k hk
    · rw [if_pos rfl]
      rfl
  · rcases Nat.lt_succ_iff_lt_or_eq.1 hk with hk | rfl
    · exact indexedAt_oidx_kept free (place k hk)
    · exact indexedAt_oidx_same c k s

/-- Indexing an element keeps a decomposition sound (R171). -/
theorem DecompSound.indexElement (hlt : p < s.nrec) : DecompSound c (indexedAt c p s) where
  orbits := orbitsSound_iff.2 fun _ => h.indexedAt_orbit free
  used := h.used
  covered w hw := by
    obtain ⟨e, he⟩ := read_of_isIndexed (h.covered w hw)
    exact isIndexed_of_read (indexedAt_oidx_kept free he)
  placed w e he := by
    by_cases hw : w = readRec c s (p + 1)
    · rw [hw, indexedAt_oidx_same] at he
      cases he
      exact .inr ⟨rfl, p + 1, rfl, Nat.lt_succ_self p, hw.symm⟩
    · have he' : s.memOidx.read w.toNat = some e :=
        (Memory.read_write_other _ _ _ _ fun h => hw (BitVec.toNat_inj.1 h)).symm.trans he
      rcases h.placed w e he' with ⟨hid, hpos, element⟩ | ⟨hid, q, hq, hpos, value⟩
      · exact .inl ⟨hid, hpos, (h.indexedAt_element hid hpos).trans element⟩
      · cases hp.symm.trans hq
        exact .inr ⟨hid, p + 1, rfl, Nat.lt_succ_of_lt hpos, value⟩
  walk _ := by
    obtain ⟨nonempty, first, written, image⟩ := h.walk (by simp [hp])
    exact ⟨nonempty, first, written, image⟩
  indexing q hq := by
    cases hq
    exact h.indexedAt_indexing hp free hlt

end

/-! ### Closing an orbit -/

theorem closeOrbit_odir (s : State) (k : Nat) :
    (closeOrbit s).memOdir.read k = if k = s.norb then some ⟨s.nbase, s.nrec⟩ else s.memOdir.read k :=
  Memory.read_write _ _ _ _ (Option.some_ne_none _)

theorem closeOrbit_readOdir_new (c : Config) (s : State) : readOdir c (closeOrbit s) s.norb = ⟨s.nbase, s.nrec⟩ :=
  readOdir_of_read (by rw [closeOrbit_odir, if_pos rfl])

theorem closeOrbit_readOdir_old (c : Config) {id : Nat} (hid : id < s.norb) :
    readOdir c (closeOrbit s) id = readOdir c s id :=
  readOdir_congr (by rw [closeOrbit_odir, if_neg (Nat.ne_of_lt hid)])

theorem closeOrbit_element_old (c : Config) {id : Nat} (hid : id < s.norb) (p : Nat) :
    orbitElement c (closeOrbit s) id p = orbitElement c s id p := by
  simp only [orbitElement, closeOrbit_readOdir_old c hid]
  rfl

theorem closeOrbit_lengthsBelow (c : Config) (s : State) :
    orbitLengthsBelow c (closeOrbit s) s.norb = orbitLengthSum c s :=
  orbitLengthsBelow_congr fun id hid => by rw [closeOrbit_odir, if_neg (Nat.ne_of_lt hid)]

section
variable (h : DecompSound c s) (hp : s.phase = .index s.nrec)
include h hp

/-- The elements of the closed orbit are the recorded values (R171). -/
theorem DecompSound.closeOrbit_element {q : Nat} (hq : q < s.nrec) :
    orbitElement c (closeOrbit s) s.norb q = readRec c s (q + 1) := by
  simp only [orbitElement, closeOrbit_readOdir_new]
  exact readOseq_of_read ((h.indexing _ hp).stored q hq)

/-- The recorded values follow `H`, the last to the first (R171, R172). -/
theorem DecompSound.recorded_cycle {q : Nat} (hq : q < s.nrec) :
    readRec c s ((q + 1) % s.nrec + 1) = c.H (readRec c s (q + 1)) := by
  have walk := h.walk (by simp [hp])
  rcases Nat.lt_or_eq_of_le (Nat.succ_le_of_lt hq) with hlt | hlast
  · rw [Nat.mod_eq_of_lt hlt]
    exact walk.image (q + 1) (Nat.le_add_left 1 q) hlt
  · rw [show q + 1 = s.nrec from hlast, Nat.mod_self, (h.indexing _ hp).closed]
    exact readRec_of_read walk.first

/-- The orbit that is closed is sound (R171). -/
theorem DecompSound.closeOrbit_new (hn : s.nrec ≤ domainSize) : OrbitAt c (closeOrbit s) s.norb := by
  have dir := closeOrbit_readOdir_new c s
  have indexing := h.indexing _ hp
  have walk := h.walk (by simp [hp])
  constructor
  · rw [closeOrbit_odir, if_pos rfl]
    exact Option.some_ne_none _
  · rw [dir]
    exact ⟨walk.nonempty, hn⟩
  · rw [dir, closeOrbit_lengthsBelow]
    exact h.used
  · intro q hq
    rw [dir] at hq ⊢
    exact fun e => Option.some_ne_none _ ((indexing.stored q hq).symm.trans e)
  · intro q hq
    rw [dir] at hq
    rw [h.closeOrbit_element hp hq]
    exact indexing.place q hq
  · intro q hq
    rw [dir] at hq ⊢
    rw [h.closeOrbit_element hp hq, h.closeOrbit_element hp (Nat.mod_lt _ (Nat.zero_lt_of_lt hq))]
    exact h.recorded_cycle hp hq

/-- Closing an orbit keeps a decomposition sound: its start Word is the first element (R171). -/
theorem DecompSound.closeOrbit (hn : s.nrec ≤ domainSize) : DecompSound c (closeOrbit s) where
  orbits := orbitsSound_iff.2 fun id hid => by
    rcases Nat.lt_succ_iff_lt_or_eq.1 hid with hid | rfl
    · refine (orbitsSound_iff.1 h.orbits id hid).of_agree (fun k hk => ?_) (fun _ _ => rfl) fun _ _ => rfl
      rw [closeOrbit_odir, if_neg (by omega)]
    · exact h.closeOrbit_new hp hn
  used := by
    rw [orbitLengthSum, show (Machine.closeOrbit s).norb = s.norb + 1 from rfl, orbitLengthsBelow_succ,
      closeOrbit_lengthsBelow, closeOrbit_readOdir_new, ← h.used]
    rfl
  covered := by
    have walk := h.walk (by simp [hp])
    have first := (h.indexing _ hp).place 0 walk.nonempty
    rw [readRec_of_read walk.first] at first
    exact h.covered_next (isIndexed_of_read first)
  placed w e he := by
    refine .inl ?_
    rcases h.placed w e he with ⟨hid, hpos, element⟩ | ⟨hid, p, hp', hpos, value⟩
    · rw [closeOrbit_readOdir_old c hid, closeOrbit_element_old c hid]
      exact ⟨Nat.lt_succ_of_lt hid, hpos, element⟩
    · cases hp.symm.trans hp'
      rw [hid, closeOrbit_readOdir_new, h.closeOrbit_element hp hpos]
      exact ⟨Nat.lt_succ_self _, hpos, value⟩
  walk hp' := absurd rfl hp'
  indexing _ hp' := DecompPhase.noConfusion hp'

end

/-- Once the candidates are exhausted the index is whole and correct (R174). -/
theorem DecompSound.indexWhole (h : DecompSound c s) (hp : s.phase = .scan) (hs : s.start = domainSize) :
    IndexWhole c s :=
  indexWhole_of_placed h.orbits (fun w => h.covered w (hs ▸ w.isLt)) fun _ _ => h.placed_stored (by simp [hp])

/-- A step of a decomposition in flight keeps it sound, or makes the index whole, or is fatal (R171 to R174). -/
theorem decompBody_index (h : DecompSound c s) (hn : s.nrec ≤ domainSize) :
    (DecompSound c (decompBody c s) ∧ (decompBody c s).indexValid = s.indexValid) ∨
      ((decompBody c s).state = .fatal ∧ (decompBody c s).indexValid = false) ∨
      ((decompBody c s).state = .done ∧ IndexWhole c (decompBody c s)) := by
  rcases decompBody_cases c s with ⟨hp, hs, e⟩ | ⟨hp, _, hi, e⟩ | ⟨hp, _, _, e⟩ | ⟨hp, closed, e⟩ | ⟨_, _, _, e⟩ |
    ⟨hp, _, _, e⟩ | ⟨p, _, _, _, e⟩ | ⟨p, hp, hlt, free, e⟩ | ⟨p, hp, hle, e⟩ <;> rw [e]
  · exact .inr (.inr ⟨rfl, OrbitsKept.indexWhole (s := s) {} (h.indexWhole hp hs)⟩)
  · exact .inl ⟨h.skip hp hi, rfl⟩
  · exact .inl ⟨h.startWalk hp, rfl⟩
  · exact .inl ⟨h.closeWalk hp closed, rfl⟩
  · exact .inr (.inl ⟨rfl, rfl⟩)
  · exact .inl ⟨h.record hp, rfl⟩
  · exact .inr (.inl ⟨rfl, rfl⟩)
  · exact .inl ⟨h.indexElement hp free hlt, rfl⟩
  · obtain rfl : p = s.nrec := Nat.le_antisymm (h.indexing p hp).within hle
    exact .inl ⟨h.closeOrbit hp hn, rfl⟩

/-! ### Every step -/

/-- A DECOMP passes its issue check only while the index is not valid (R205). -/
theorem indexValid_of_issueCheck_decomp (h : issueCheck c .decomp s = none) : s.indexValid = false := by
  cases hv : s.indexValid with
  | false => rfl
  | true => simp [issueCheck, hv] at h

/-- What is said of a decomposition in flight depends on the hidden state only. -/
theorem DecompSound.congr (k : HiddenKept s t) (h : DecompSound c s) : DecompSound c t := by
  have orbitsKept : OrbitsKept s t := ⟨k.memOidx, k.memOdir, k.memOseq, k.norb⟩
  have recorded (n : Nat) : readRec c t n = readRec c s n := readRec_congr (by rw [k.memRec])
  have begins : startWord t = startWord s := by rw [startWord, startWord, k.start]
  constructor
  · exact orbitsKept.sound h.orbits
  · rw [k.nbase, orbitsKept.lengthSum, h.used]
  · simpa only [orbitsKept.isIndexed, k.start] using h.covered
  · simpa only [k.memOidx, k.norb, orbitsKept.readOdir, orbitsKept.element, k.phase, recorded] using h.placed
  · rw [k.phase]
    intro hp
    obtain ⟨nonempty, first, written, image⟩ := h.walk hp
    constructor <;> simpa only [k.nrec, k.memRec, begins, recorded]
  · rw [k.phase]
    intro p hp
    obtain ⟨within, closed, stored, place⟩ := h.indexing p hp
    constructor <;> simpa only [k.nrec, k.memOseq, k.memOidx, k.nbase, k.norb, begins, recorded]

/-- Where the hidden state is kept and no other command comes into flight, the index invariant is kept. -/
theorem HiddenKept.indexInvariant (k : HiddenKept s t)
    (inFlight : t.state = .busy → s.state = .busy ∧ t.lastop = s.lastop) (h : IndexInvariant c s) :
    IndexInvariant c t := by
  obtain ⟨decomp, valid⟩ := h
  refine ⟨fun hb hl => ?_, fun hv => ?_⟩
  · obtain ⟨hb', e⟩ := inFlight hb
    exact (decomp hb' (e ▸ hl)).congr k
  · exact OrbitsKept.indexWhole ⟨k.memOidx, k.memOdir, k.memOseq, k.norb⟩ (valid (k.indexValid ▸ hv))

/-- Starting a command keeps the index invariant: a decomposition starts sound, and no other command touches the
Orbit Index. -/
theorem startCommand_indexInvariant {i : Instr} (hl : s.lastop = opcodeOf i) (hc : issueCheck c i s = none)
    (valid : s.indexValid = true → IndexWhole c s) : IndexInvariant c (startCommand i s) := by
  have inFlight (hl' : (startCommand i s).lastop = opcodeOf .decomp) : i = .decomp :=
    opcodeOf_inj _ _ (hl.symm.trans ((startCommand_lastop i s).symm.trans hl'))
  refine ⟨fun _ hl' => inFlight hl' ▸ startCommand_decomp_sound c s, fun hv => ?_⟩
  rw [startCommand_indexValid] at hv
  cases i with
  | decomp => simp [indexValid_of_issueCheck_decomp hc] at hv
  | _ => exact OrbitsKept.indexWhole (s := s) {} (valid hv)

/-- The engine's own step keeps the index invariant. -/
theorem bodyOn_indexInvariant {i : Instr} (hs : StatusConsistent c s) (hn : s.nrec ≤ domainSize)
    (h : IndexInvariant c s) (hb : s.state = .busy) (hl : s.lastop = opcodeOf i) : IndexInvariant c (bodyOn c i s) := by
  obtain ⟨decomp, valid⟩ := h
  by_cases hi : i = .decomp
  · subst hi
    have invalid := indexValid_of_issueCheck_decomp (issueCheck_of_busy hs hb hl)
    simp only [bodyOn]
    rcases decompBody_index (decomp hb hl) hn with ⟨sound, e⟩ | ⟨fatal, e⟩ | ⟨done, whole⟩
    · exact ⟨fun _ _ => sound, fun hv => by simp [e, invalid] at hv⟩
    · exact ⟨fun hb' => by simp [fatal] at hb', fun hv => by simp [e] at hv⟩
    · exact ⟨fun hb' => by simp [done] at hb', fun _ => whole⟩
  · obtain ⟨_, _, _, _, _, _, lastop, _, _⟩ := bodyOn_frame c i s
    refine ⟨fun _ hl' => absurd (opcodeOf_inj _ _ (hl.symm.trans (lastop.symm.trans hl'))) hi, fun hv => ?_⟩
    obtain ⟨_, _, ⟨_, e, _⟩ | ⟨e, norb, oidx, odir, oseq⟩⟩ := bodyOn_orbit_frame c i s hi
    · simp [e] at hv
    · exact OrbitsKept.indexWhole ⟨oidx, odir, oseq, norb⟩ (valid (e ▸ hv))

/-- Every step keeps the index invariant, at any configuration. -/
theorem stepOn_indexInvariant (hs : StatusConsistent c s) (hw : WalkCountersInRange s) (h : IndexInvariant c s)
    (hst : stepOn c s = .next t) : IndexInvariant c t := by
  rcases stepOn_hidden_cases hst with ⟨u, rfl⟩ | ⟨k, inFlight⟩ | ⟨e, u, rfl, _⟩ | ⟨i, u, rfl, k, hl, hc⟩ |
    ⟨i, rest, hb, hl, rfl⟩
  · exact ⟨fun hb => EngineState.noConfusion hb, fun hv => Bool.noConfusion hv⟩
  · exact k.indexInvariant inFlight h
  · exact ⟨fun hb => EngineState.noConfusion hb, fun hv => Bool.noConfusion hv⟩
  · exact startCommand_indexInvariant hl hc fun hv =>
      OrbitsKept.indexWhole ⟨k.memOidx, k.memOdir, k.memOseq, k.norb⟩ (h.2 (k.indexValid ▸ hv))
  · have rested : IndexInvariant c { s with host := rest } :=
      HiddenKept.indexInvariant (s := s) {} (fun hb => ⟨hb, rfl⟩) h
    exact bodyOn_indexInvariant (s := { s with host := rest }) hs hw.1 rested hb hl

/-- Settles O60, by what a step can do to the hidden state; the steps of a decomposition are `decompBody_index`. -/
theorem stepKeepsIndexInvariant : Obligations.StepKeepsIndexInvariant :=
  ⟨fun _ _ _ => stepOn_indexInvariant, fun s _ hs hw h hst => stepOn_indexInvariant hs hw h (step_eq_stepOn s ▸ hst)⟩

end Sys2Proof.Machine
end

section
/-! While the table is not valid, its contents affect nothing but themselves (rules R77, R138). -/

namespace Sys2Proof.Machine

/-- The state with other contents of the Preimage Table. -/
def State.withT (s : State) (m : Memory (Option Word)) : State := { s with memT := m }

@[simp] theorem withT_phase (s : State) (m : Memory (Option Word)) : (s.withT m).phase = s.phase := rfl
@[simp] theorem withT_bruteAt (s : State) (m : Memory (Option Word)) : (s.withT m).bruteAt = s.bruteAt := rfl
@[simp] theorem withT_host (s : State) (m : Memory (Option Word)) : (s.withT m).host = s.host := rfl

variable {c : Config} {s t : State} (m : Memory (Option Word))

/-! ### The engine's own step -/

theorem walkStep_withT (next : Word → Word) : walkStep c next (s.withT m) = (walkStep c next s).withT m := by
  simp only [walkStep, apply_ite (State.withT · m)]
  rfl

theorem decompBody_withT : decompBody c (s.withT m) = (decompBody c s).withT m := by
  unfold decompBody
  rw [withT_phase]
  cases s.phase with
  | scan =>
    simp only [scanStep, apply_ite (State.withT · m)]
    rfl
  | walk =>
    simp only [orbitWalkStep, apply_ite (State.withT · m)]
    rfl
  | index p =>
    simp only [indexStep, indexElement, apply_ite (State.withT · m)]
    rfl

theorem orbrdBody_withT : orbrdBody c (s.withT m) = (orbrdBody c s).withT m := by
  simp only [orbrdBody, readElement, apply_ite (State.withT · m)]
  rfl

theorem bruteBody_withT : bruteBody c (s.withT m) = (bruteBody c s).withT m := by
  unfold bruteBody
  rw [withT_bruteAt]
  cases s.bruteAt with
  | none => rfl
  | some k =>
    simp only [testCandidate, apply_ite (State.withT · m)]
    rfl

/-- A slot update writes `T` and reads `TAG` only (R135). -/
theorem slotUpdate_withT (w : Nat) (p : BlockPos) :
    ∃ m', slotUpdate c w p (s.withT m) = (slotUpdate c w p s).withT m' := by
  cases tag : readTag s (c.H (blockInput p)) with
  | true =>
    rw [slotUpdate_taken w tag, slotUpdate_taken (s := s.withT m) w tag]
    exact ⟨m, rfl⟩
  | false =>
    rw [slotUpdate_free w tag, slotUpdate_free (s := s.withT m) w tag]
    exact ⟨_, rfl⟩

theorem buildBody_withT : ∃ m', buildBody c (s.withT m) = (buildBody c s).withT m' := by
  unfold buildBody
  rw [show enabledWorkers c (s.withT m) = enabledWorkers c s from rfl,
    show movingWorker c (s.withT m) = movingWorker c s from rfl]
  cases enabledWorkers c s with
  | nil => exact ⟨m, rfl⟩
  | cons _ _ =>
    simp only [workerStep]
    rw [show workerPos (s.withT m) (movingWorker c s) = workerPos s (movingWorker c s) from rfl]
    cases workerPos s (movingWorker c s) with
    | none => exact ⟨m, rfl⟩
    | some p =>
      obtain ⟨m', e⟩ := slotUpdate_withT (c := c) (s := s) m (movingWorker c s) p
      exact ⟨m', by simp only [e]; rfl⟩

/-- LOOKUP and INV, which read `T`, pass their issue check only while the table is valid (R139, R154, R205). -/
theorem tableValid_of_issueCheck {i : Instr} (hi : i = .lookup ∨ i = .inv) (h : issueCheck c i s = none) :
    s.tableValid = true := by
  rcases hi with rfl | rfl <;> simpa [issueCheck] using h

/-- The engine's own step of a command that passed its issue check while the table is not valid (R138). -/
theorem bodyOn_withT {i : Instr} (hc : issueCheck c i s = none) (hv : s.tableValid = false) :
    ∃ m', bodyOn c i (s.withT m) = (bodyOn c i s).withT m' := by
  have valid (hi : i = .lookup ∨ i = .inv) : False := by simp [tableValid_of_issueCheck hi hc] at hv
  cases i with
  | build => exact buildBody_withT m
  | lookup => exact absurd (.inl rfl) valid
  | inv => exact absurd (.inr rfl) valid
  | fwd => exact ⟨m, walkStep_withT m c.H⟩
  | decomp => exact ⟨m, decompBody_withT m⟩
  | orbrd => exact ⟨m, orbrdBody_withT m⟩
  | brute => exact ⟨m, bruteBody_withT m⟩
  | hash | encode | decode | orbq => exact ⟨m, rfl⟩

/-! ### A host write -/

theorem startCommand_withT (i : Instr) : startCommand i (s.withT m) = (startCommand i s).withT m := by
  cases i <;> simp only [startCommand, initHidden, State.withT]

theorem raise_withT (e : EngineError) : raise e (s.withT m) = (raise e s).withT m := by
  simp only [raise, apply_ite (State.withT · m)]
  rfl

theorem issue_withT (i : Instr) : issue c i (s.withT m) = (issue c i s).withT m := by
  unfold issue
  rw [show noteAccepted (opcodeOf i) (s.withT m) = (noteAccepted (opcodeOf i) s).withT m from rfl,
    issueCheck_congr c i (t := s.withT m) (s := s) rfl rfl, startCommand_withT]
  simp only [raise_withT, apply_ite (State.withT · m)]
  cases issueCheck c i s <;> rfl

theorem storeReg_withT (r : Reg) (v : Count) : storeReg r v (s.withT m) = (storeReg r v s).withT m := by
  cases r with
  | alen =>
    simp only [storeReg, writeAlen, apply_dite (State.withT · m)]
    rfl
  | _ => rfl

theorem writeCmd_withT {v : Count} (acc : acceptsWrites s = true)
    (h : writeCmd (fun i u => .next (execOn c i u)) v s = .next t) :
    writeCmd (fun i u => .next (execOn c i u)) v (s.withT m) = .next (t.withT m) := by
  cases hd : Sys2Proof.decode (low32 v) with
  | illegal why =>
    rw [writeCmd_illegal hd] at h ⊢
    cases h
    rfl
  | command i =>
    have word := eq_encode_of_decode _ i hd
    rw [writeCmd_encode word] at h ⊢
    rw [execOn_accepting c i s acc] at h
    rw [execOn_accepting c i (s.withT m) acc, issue_withT]
    cases h
    rfl

/-- A host write neither reads nor writes `T`. -/
theorem hostWrite_withT {idx : Nat} {v : Count}
    (h : hostWrite (fun i u => .next (execOn c i u)) c idx v s = .next t) :
    hostWrite (fun i u => .next (execOn c i u)) c idx v (s.withT m) = .next (t.withT m) := by
  cases acc : acceptsWrites s with
  | false =>
    rw [hostWrite_not_accepting _ _ _ _ _ acc] at h
    cases h
    exact hostWrite_not_accepting _ _ _ _ _ acc
  | true =>
    cases hr : regAt c idx with
    | none =>
      rw [hostWrite_unassigned _ _ _ _ _ hr] at h
      cases h
      exact hostWrite_unassigned _ _ _ _ _ hr
    | some r =>
      obtain ⟨rfl, hp⟩ := regAt_eq_some c idx r hr
      by_cases hc : r = .cmd
      · subst hc
        exact (hostWrite_cmd _ c v (s.withT m) acc).trans
          (writeCmd_withT m acc ((hostWrite_cmd _ c v s acc).symm.trans h))
      · rw [hostWrite_register _ _ _ _ _ acc hp hc] at h
        cases h
        exact (hostWrite_register _ _ _ _ (s.withT m) acc hp hc).trans (congrArg _ (storeReg_withT m r v))

/-! ### Every step -/

theorem engineMove_withT (hs : StatusConsistent c s) (hv : s.tableValid = false)
    (h : engineMove (fun i u => .next (execOn c i u)) s = .next t) :
    ∃ m', engineMove (fun i u => .next (execOn c i u)) (s.withT m) = .next (t.withT m') := by
  rcases engineMove_move c s t h with ⟨hb, rfl⟩ | ⟨i, hb, hl, rfl⟩
  · exact ⟨m, if_neg hb⟩
  · obtain ⟨m', e⟩ := bodyOn_withT m (issueCheck_of_busy hs hb hl) hv
    refine ⟨m', (engineMove_busy (s := s.withT m) hb hl).trans ?_⟩
    rw [execOn_busy c i (s.withT m) hb, e]

/-- A move of the host, or of the engine that it lets move. -/
theorem hostMove_withT {move : HostStep} {rest : List HostStep} (hs : StatusConsistent c s) (hv : s.tableValid = false)
    (h : hostMove (fun i u => .next (execOn c i u)) c move rest s = .next t) :
    ∃ m', hostMove (fun i u => .next (execOn c i u)) c move rest (s.withT m) = .next (t.withT m') := by
  cases move with
  | read idx =>
    cases h
    refine ⟨m, ?_⟩
    rw [hostMove, hostRead_congr c s (s.withT m) rfl rfl ⟨rfl, rfl, rfl⟩ ⟨rfl, rfl, rfl, rfl, rfl⟩ rfl rfl]
    rfl
  | write idx v => exact ⟨m, hostWrite_withT (s := { s with host := rest }) m h⟩
  | reset =>
    cases h
    exact ⟨[], rfl⟩
  | pause => exact engineMove_withT (s := { s with host := rest }) m hs hv h
  | wait =>
    by_cases hb : s.state = .busy
    · obtain ⟨m', e⟩ := engineMove_withT m hs hv ((if_pos hb).symm.trans h)
      exact ⟨m', (if_pos hb).trans e⟩
    · cases (if_neg hb).symm.trans h
      exact ⟨m, if_neg hb⟩

/-- Settles O10, by whose move it is. -/
theorem invalidTableIsUnobservable : Obligations.InvalidTableIsUnobservable := by
  intro c s m t hs hv h
  change ∃ m', turn _ c (s.withT m) = .next (t.withT m')
  unfold stepOn turn at h
  unfold turn
  rw [withT_host]
  cases hh : s.host with
  | nil =>
    rw [hh] at h
    exact engineMove_withT m hs hv h
  | cons move rest =>
    rw [hh] at h
    exact hostMove_withT m hs hv h

end Sys2Proof.Machine
end

section
/-! The decoder against the encoder, and the illegal words (rules R90, R91, R93, R95). -/

namespace Sys2Proof.Machine

/-- A word is rejected exactly when it is no command's word. -/
theorem decode_illegal_iff (w : Word) : (∃ why, Sys2Proof.decode w = .illegal why) ↔ ¬ ∃ i, w = encode i := by
  constructor
  · rintro ⟨why, hw⟩ ⟨i, rfl⟩
    rw [decode_encode] at hw
    cases hw
  · intro hn
    cases hd : Sys2Proof.decode w with
    | command i => exact absurd ⟨i, eq_encode_of_decode w i hd⟩ hn
    | illegal why => exact ⟨why, rfl⟩

/-- The command words as numbers, second column of R91. -/
theorem exists_eq_encode_iff (w : Word) : (∃ i, w = encode i) ↔
    w.toNat = 0x01 ∨ w.toNat = 0x02 ∨ w.toNat = 0x03 ∨ w.toNat = 0x10 ∨ w.toNat = 0x11 ∨ w.toNat = 0x20 ∨
      w.toNat = 0x21 ∨ w.toNat = 0x30 ∨ w.toNat = 0x31 ∨ w.toNat = 0x32 ∨ w.toNat = 0x40 := by
  constructor
  · rintro ⟨i, rfl⟩
    cases i <;> decide
  · have word (i : Instr) (h : w.toNat = (encode i).toNat) : ∃ i, w = encode i := ⟨i, BitVec.eq_of_toNat_eq h⟩
    rintro (h | h | h | h | h | h | h | h | h | h | h)
    exacts [word .hash h, word .encode h, word .decode h, word .build h, word .lookup h, word .fwd h,
      word .inv h, word .decomp h, word .orbq h, word .orbrd h, word .brute h]

/-- Settles O2: the decoder undoes the encoder and reads a command from its own word only, and the numbers that are
no command's word are those of R93's ranges. -/
theorem decoderMatchesWholeWord : Obligations.DecoderMatchesWholeWord := by
  refine ⟨fun w i => ⟨eq_encode_of_decode w i, ?_⟩, fun w => ?_⟩
  · rintro rfl
    exact decode_encode i
  · rw [decode_illegal_iff, exists_eq_encode_iff]
    omega

/-- Settles O1: each of the eleven words is its command's `encode`. -/
theorem commandWordsDecode : Obligations.CommandWordsDecode :=
  ⟨decode_encode .hash, decode_encode .encode, decode_encode .decode, decode_encode .build, decode_encode .lookup,
    decode_encode .fwd, decode_encode .inv, decode_encode .decomp, decode_encode .orbq, decode_encode .orbrd,
    decode_encode .brute⟩

end Sys2Proof.Machine
end

section
/-! The codec and the reference primitive: bytes and numbers (rules R110 to R112), the closed form and the inverse of
`Href` (rule R117), and the three commands of this unit (rules R118 to R120). -/

namespace Sys2Proof.Machine

/-! ### The codec -/

/-- The bytes of a Word as numbers (R110). -/
theorem encodeWord_toNat (w : Word) :
    (encodeWord w).b0.toNat = w.toNat / 2 ^ 24 ∧ (encodeWord w).b1.toNat = w.toNat / 2 ^ 16 % 256 ∧
      (encodeWord w).b2.toNat = w.toNat / 2 ^ 8 % 256 ∧ (encodeWord w).b3.toNat = w.toNat % 256 := by
  have := w.isLt
  refine ⟨?_, ?_, ?_, ?_⟩ <;> simp only [encodeWord, BitVec.extractLsb'_toNat, Nat.shiftRight_eq_div_pow] <;> omega

theorem decodeBuffer_encodeWord (w : Word) : decodeBuffer (encodeWord w) = w := by
  obtain ⟨h0, h1, h2, h3⟩ := encodeWord_toNat w
  apply BitVec.eq_of_toNat_eq
  rw [decodeBuffer_toNat, h0, h1, h2, h3]
  omega

theorem encodeWord_decodeBuffer (b : Buffer) : encodeWord (decodeBuffer b) = b := by
  obtain ⟨b0, b1, b2, b3⟩ := b
  simp only [encodeWord, decodeBuffer, Buffer.mk.injEq]
  refine ⟨?_, ?_, ?_, BitVec.extractLsb'_append_eq_right⟩
  · iterate 2 rw [BitVec.extractLsb'_append_eq_of_le (by decide)]
    exact BitVec.extractLsb'_append_eq_left
  · rw [BitVec.extractLsb'_append_eq_of_le (by decide), BitVec.extractLsb'_append_eq_of_le (by decide)]
    exact BitVec.extractLsb'_append_eq_right
  · rw [BitVec.extractLsb'_append_eq_of_le (by decide)]
    exact BitVec.extractLsb'_append_eq_right

/-- Settles O23: the codec's bytes and number, and the two round trips. -/
theorem codecIsBigEndianAndInverse : Obligations.CodecIsBigEndianAndInverse :=
  ⟨encodeWord_toNat, decodeBuffer_toNat, decodeBuffer_encodeWord, encodeWord_decodeBuffer⟩

/-! ### The byte swap -/

/-- A buffer read from its other end. -/
def reverseBuffer (b : Buffer) : Buffer := ⟨b.b3, b.b2, b.b1, b.b0⟩

theorem bswap32_eq_decodeBuffer (w : Word) : bswap32 w = decodeBuffer (reverseBuffer (encodeWord w)) := rfl

theorem bswap32_bswap32 (w : Word) : bswap32 (bswap32 w) = w := by
  rw [bswap32_eq_decodeBuffer (bswap32 w), bswap32_eq_decodeBuffer w, encodeWord_decodeBuffer]
  exact decodeBuffer_encodeWord w

theorem bswap32_xor (x y : Word) : bswap32 (x ^^^ y) = bswap32 x ^^^ bswap32 y := by
  unfold bswap32
  rw [BitVec.xor_append, BitVec.xor_append, BitVec.xor_append]
  simp only [BitVec.extractLsb'_xor]

/-- A buffer's Word is the sum over GF(2) of its bytes, each in its place. -/
theorem decodeBuffer_eq_xor (b : Buffer) :
    decodeBuffer b = b.b3.setWidth 32 ^^^ b.b2.setWidth 32 <<< 8 ^^^ b.b1.setWidth 32 <<< 16 ^^^
      b.b0.setWidth 32 <<< 24 := by
  -- Bit `i` of the right side is a bit of the byte that covers place `i`; the other three have none there.
  apply BitVec.eq_of_getLsbD_eq
  intro i hi
  simp only [decodeBuffer, BitVec.getLsbD_append, BitVec.getLsbD_xor, BitVec.getLsbD_shiftLeft,
    BitVec.getLsbD_setWidth]
  grind

/-! ### One shift of the CRC -/

/-- A bit of a shift: the next bit, and the feedback if bit 0 is shifted out. -/
theorem crcShift_getLsbD (x : Word) (i : Nat) :
    (crcShift x).getLsbD i = (x.getLsbD (i + 1) ^^ (x.getLsbD 0 && (0xEDB88320#32).getLsbD i)) := by
  unfold crcShift
  cases x.getLsbD 0 <;> simp [BitVec.getLsbD_ushiftRight, Nat.add_comm]

theorem crcUnshift_getLsbD_zero (x : Word) : (crcUnshift x).getLsbD 0 = x.getLsbD 31 := by
  unfold crcUnshift
  cases x.getLsbD 31 <;> simp

theorem crcUnshift_getLsbD_succ (x : Word) (i : Nat) (hi : i < 31) :
    (crcUnshift x).getLsbD (i + 1) = (x.getLsbD i ^^ (x.getLsbD 31 && (0xEDB88320#32).getLsbD i)) := by
  have : i + 1 < 32 := by omega
  unfold crcUnshift
  cases x.getLsbD 31 <;> simp [BitVec.getLsbD_shiftLeft, BitVec.getLsbD_or, this, -BitVec.getLsbD_eq_getElem]

/-- Bit 31 of a shift is the bit shifted out, since the polynomial has bit 31 (R117). -/
theorem crcShift_getLsbD_top (x : Word) : (crcShift x).getLsbD 31 = x.getLsbD 0 := by
  have poly : (0xEDB88320#32).getLsbD 31 = true := rfl
  rw [crcShift_getLsbD, BitVec.getLsbD_of_ge x 32 le_rfl, poly, Bool.and_true, Bool.false_xor]

theorem crcUnshift_crcShift : Function.LeftInverse crcUnshift crcShift := by
  intro x
  apply BitVec.eq_of_getLsbD_eq
  rintro (_ | i) hi
  · rw [crcUnshift_getLsbD_zero, crcShift_getLsbD_top]
  · rw [crcUnshift_getLsbD_succ _ _ (by omega), crcShift_getLsbD_top, crcShift_getLsbD]
    simp

theorem crcShift_crcUnshift : Function.RightInverse crcUnshift crcShift := by
  intro x
  apply BitVec.eq_of_getLsbD_eq
  intro i hi
  rw [crcShift_getLsbD, crcUnshift_getLsbD_zero]
  obtain hlt | rfl : i < 31 ∨ i = 31 := by omega
  · rw [crcUnshift_getLsbD_succ _ _ hlt]
    simp
  · simp

/-- A shift is linear over GF(2). -/
theorem crcShift_xor : Function.Semiconj₂ crcShift (· ^^^ ·) (· ^^^ ·) := by
  intro x y
  apply BitVec.eq_of_getLsbD_eq
  intro i _
  simp only [crcShift_getLsbD, BitVec.getLsbD_xor, Bool.and_xor_distrib_right]
  simp only [Bool.xor_assoc, Bool.xor_left_comm]

/-- A byte that is not yet at bit 0 is only shifted down (R117). -/
theorem crcShift_byte (b : Byte) (k : Nat) (hk : k < 24) :
    crcShift (b.setWidth 32 <<< (k + 1)) = b.setWidth 32 <<< k := by
  -- Bit 0 of the moved byte is clear, so no feedback; its bit 32, shifted in, is past the byte since `k < 24`.
  apply BitVec.eq_of_getLsbD_eq
  intro i hi
  simp only [crcShift_getLsbD, BitVec.getLsbD_shiftLeft, BitVec.getLsbD_setWidth]
  grind

/-! ### A number of shifts -/

theorem crcShifts_eq_iterate (k : Nat) : crcShifts k = crcShift^[k] := by
  induction k with
  | zero => rfl
  | succ k ih => funext x; exact congrFun ih (crcShift x)

theorem crcUnshifts_eq_iterate (k : Nat) : crcUnshifts k = crcUnshift^[k] := by
  induction k with
  | zero => rfl
  | succ k ih => funext x; exact congrFun ih (crcUnshift x)

theorem crcUnshifts_crcShifts (k : Nat) (x : Word) : crcUnshifts k (crcShifts k x) = x := by
  rw [crcUnshifts_eq_iterate, crcShifts_eq_iterate]
  exact crcUnshift_crcShift.iterate k x

theorem crcShifts_crcUnshifts (k : Nat) (x : Word) : crcShifts k (crcUnshifts k x) = x := by
  rw [crcUnshifts_eq_iterate, crcShifts_eq_iterate]
  exact crcShift_crcUnshift.iterate k x

theorem crcShifts_xor (k : Nat) (x y : Word) : crcShifts k (x ^^^ y) = crcShifts k x ^^^ crcShifts k y := by
  rw [crcShifts_eq_iterate]
  exact crcShift_xor.iterate k x y

theorem crcShifts_add (j k : Nat) (x : Word) : crcShifts (j + k) x = crcShifts j (crcShifts k x) := by
  simp only [crcShifts_eq_iterate, Function.iterate_add_apply]

/-- A byte does not meet the feedback before it is shifted down to bit 0 (R117). -/
theorem crcShifts_byte (b : Byte) (k : Nat) (hk : k ≤ 24) : crcShifts k (b.setWidth 32 <<< k) = b.setWidth 32 := by
  induction k with
  | zero => simp [crcShifts]
  | succ k ih =>
    rw [crcShifts, crcShift_byte b k (by omega), ih (by omega)]

/-- The next message byte may as well be added, in its place, before the shifts so far. -/
theorem crcByte_crcShifts (k : Nat) (hk : k ≤ 24) (x : Word) (b : Byte) :
    crcByte (crcShifts k x) b = crcShifts (8 + k) (x ^^^ b.setWidth 32 <<< k) := by
  rw [crcShifts_add, crcShifts_xor k, crcShifts_byte b k hk, crcByte]

/-! ### The closed form and its inverse -/

theorem crc32ref_eq (b : Buffer) : crc32ref b = ~~~ crcShifts 32 (~~~ decodeBuffer (reverseBuffer b)) := by
  have init : crc32ref b =
      crcByte (crcByte (crcByte (crcByte (crcShifts 0 (BitVec.allOnes 32)) b.b0) b.b1) b.b2) b.b3 ^^^
        BitVec.allOnes 32 := rfl
  rw [init, crcByte_crcShifts 0 (by decide), crcByte_crcShifts 8 (by decide), crcByte_crcShifts 16 (by decide),
    crcByte_crcShifts 24 (by decide), BitVec.xor_allOnes, decodeBuffer_eq_xor,
    ← BitVec.allOnes_xor (x := _ ^^^ _)]
  simp only [reverseBuffer, BitVec.xor_assoc, BitVec.shiftLeft_zero]

theorem href_eq_hrefClosed (x : Word) : Href x = hrefClosed x := crc32ref_eq (encodeWord x)

theorem hrefInv_href (x : Word) : hrefInv (Href x) = x := by
  rw [href_eq_hrefClosed, hrefClosed, hrefInv, BitVec.not_not, crcUnshifts_crcShifts, BitVec.not_not,
    bswap32_bswap32]

theorem href_hrefInv (o : Word) : Href (hrefInv o) = o := by
  rw [href_eq_hrefClosed, hrefClosed, hrefInv, bswap32_bswap32, BitVec.not_not, crcShifts_crcUnshifts,
    BitVec.not_not]

/-- `Href` is a linear map over GF(2) and a constant. -/
theorem href_eq_xor_href_zero (x : Word) : Href x = crcShifts 32 (bswap32 x) ^^^ Href 0 := by
  have zero : ~~~ bswap32 0 = BitVec.allOnes 32 := rfl
  rw [href_eq_hrefClosed, href_eq_hrefClosed, hrefClosed, hrefClosed, zero, ← BitVec.xor_allOnes (x := bswap32 x),
    crcShifts_xor, BitVec.not_xor_right]

/-- `Href` is affine over GF(2) (R117). -/
theorem href_xor (x y : Word) : Href (x ^^^ y) = Href x ^^^ Href y ^^^ Href 0 := by
  rw [href_eq_xor_href_zero x, href_eq_xor_href_zero y, href_eq_xor_href_zero (x ^^^ y), bswap32_xor, crcShifts_xor]
  generalize crcShifts 32 (bswap32 x) = a, crcShifts 32 (bswap32 y) = b, Href 0 = z
  rw [BitVec.xor_assoc (a ^^^ z), BitVec.xor_assoc b, BitVec.xor_self, BitVec.xor_zero]
  ac_rfl

/-- Settles O27: the closed form makes `Href` shifts between two involutions, each of them invertible and affine. -/
theorem referencePrimitiveIsBijective : Obligations.ReferencePrimitiveIsBijective :=
  ⟨Function.bijective_iff_has_inverse.mpr ⟨hrefInv, hrefInv_href, href_hrefInv⟩, href_eq_hrefClosed, href_hrefInv,
    hrefInv_href, href_xor⟩

/-! ### The three commands -/

/-- On the machine at hand, a command that passes its checks is started (R39). -/
theorem exec_start {i : Instr} {s : State} (acc : acceptsWrites s = true) (hu : unitPresent Config.here i = true)
    (hc : issueCheck Config.here i s = none) : exec i s = .next (startCommand i (noteAccepted (opcodeOf i) s)) := by
  rw [exec_eq_execOn, execOn_start acc hu hc]

/-- On the machine at hand, a command in flight takes a step of its pseudocode (R22). -/
theorem exec_busy {i : Instr} {s : State} (busy : s.state = .busy) : exec i s = .next (bodyOn Config.here i s) := by
  rw [exec_eq_execOn, execOn_busy _ _ _ busy]

/-- Settles O24: HASH has no check that can refuse it, its body is the completion, and the three values of `Href` are
computed. -/
theorem hashCompletes : Obligations.HashCompletes :=
  ⟨fun _ acc => exec_start acc rfl rfl, fun _ busy => exec_busy busy, rfl,
    by decide +kernel, by decide +kernel, by decide +kernel⟩

/-- Settles O25: ENCODE has no check that can refuse it, and its body is the completion. -/
theorem encodeCompletes : Obligations.EncodeCompletes :=
  ⟨fun _ acc => exec_start acc rfl rfl, fun _ busy => exec_busy busy, rfl, by decide⟩

/-- Settles O26: DECODE has no check that can refuse it, and its body is the completion. -/
theorem decodeCompletes : Obligations.DecodeCompletes :=
  ⟨fun _ acc => exec_start acc rfl rfl, fun _ busy => exec_busy busy, rfl, by decide⟩

end Sys2Proof.Machine
end

section
/-! The Preimage Table's commands (`41_table.md`): what one step of BUILD does, that BUILD ends under every schedule,
with the inverse of `H` if it is a bijection and in `FATAL` if not, and LOOKUP. -/

namespace Sys2Proof.Machine

variable {c : Config} {s t u : State}

/-! ### Bijections on Words: they are finitely many, so one half of `Bijective(H)` is enough -/

theorem bijectiveH_of_injective (h : Function.Injective c.H) : c.BijectiveH := Finite.injective_iff_bijective.1 h

theorem bijectiveH_of_surjective (h : Function.Surjective c.H) : c.BijectiveH := Finite.surjective_iff_bijective.1 h

/-- A correct table of an injective `H` holds at each checksum the one input that has it (R131). -/
theorem TableCorrect.readT_checksum (h : TableCorrect c s) (injective : Function.Injective c.H) (i : Word) :
    readT c s (c.H i) = i :=
  injective (h (c.H i))

/-- Settles O32: a correct table gives every slot a preimage, so `H` is surjective, and so a bijection. -/
theorem validTableInvertsH : Obligations.ValidTableInvertsH := by
  intro c s ⟨_, valid⟩ hv
  obtain ⟨_, correct⟩ := valid hv
  have bijective : c.BijectiveH := bijectiveH_of_surjective fun o => ⟨_, correct o⟩
  exact ⟨bijective, correct.readT_checksum bijective.1⟩

/-! ### LOOKUP -/

theorem readT_of_read {o x : Word} (h : s.memT.read o.toNat = some x) : readT c s o = x := by
  simp only [readT, h, Option.getD_some]

/-- Settles O30: LOOKUP's body is the completion, with the slot that stands written. -/
theorem lookupCompletes : Obligations.LookupCompletes := by
  intro s x busy written
  have slot : readT Config.here s (wordOperand s) = x := readT_of_read written
  rw [exec_busy busy, bodyOn, lookupBody, slot]
  rfl

/-! ### One step of BUILD -/

/-- No worker has an enabled step exactly at the join: no block pending, every worker idle (R136). -/
theorem enabledWorkers_eq_nil_iff :
    enabledWorkers c s = [] ↔ s.pending = [] ∧ ∀ w, w < c.nworkers → workerPos s w = none := by
  simp only [List.eq_nil_iff_forall_not_mem (l := enabledWorkers c s), mem_enabledWorkers, not_and, not_or, not_not]
  exact ⟨fun h => ⟨(h 0 (Nat.succ_pos _)).1, fun w hw => (h w hw).2⟩, fun ⟨hp, idle⟩ w hw => ⟨hp, idle w hw⟩⟩

theorem buildBody_join (join : enabledWorkers c s = []) : buildBody c s = joinStep s := by
  simp only [buildBody, join]

/-- Settles O29: at the join BUILD's body is the join step. -/
theorem buildJoinCompletes : Obligations.BuildJoinCompletes := by
  intro s busy pending idle
  rw [exec_busy busy, bodyOn, buildBody_join (enabledWorkers_eq_nil_iff.2 ⟨pending, idle⟩)]
  rfl

/-- What one step of a build can do, by the tag of the slot that is updated (R133, R135, R136). -/
theorem buildBody_outcomes (c : Config) (s : State) :
    (enabledWorkers c s = [] ∧ buildBody c s = joinStep s) ∨
      ∃ w, w < c.nworkers ∧
        ((workerPos s w = none ∧ s.pending ≠ [] ∧ buildBody c s = spendDraws (claimStep c w s)) ∨
          ∃ p, workerPos s w = some p ∧
            ((readTag s (c.H (blockInput p)) = false ∧
                buildBody c s =
                  { s with
                    memT := s.memT.write (c.H (blockInput p)).toNat (some (blockInput p))
                    memTag := s.memTag.write (c.H (blockInput p)).toNat true
                    cur := s.cur.write w (nextBlockPos p)
                    draws := s.draws + 2 }) ∨
              (readTag s (c.H (blockInput p)) = true ∧
                buildBody c s = spendDraws (enterFatal (.invariant .slotCollision (c.H (blockInput p))) s)))) := by
  rcases buildBody_cases c s with join | ⟨w, hw, claim | ⟨p, held, e⟩⟩
  · exact .inl join
  · exact .inr ⟨w, hw, .inl claim⟩
  · refine .inr ⟨w, hw, .inr ⟨p, held, ?_⟩⟩
    rw [e]
    cases tag : readTag s (c.H (blockInput p)) with
    | false => exact .inl ⟨rfl, by rw [slotUpdate_free w tag]; rfl⟩
    | true => exact .inr ⟨rfl, by rw [slotUpdate_taken w tag]⟩

/-- A claim takes the block at some place of `PENDING`, with its first input next (R133). -/
theorem claimStep_eq (hp : s.pending ≠ []) (w : Nat) :
    ∃ k, ∃ h : k < s.pending.length,
      claimStep c w s = { s with pending := s.pending.eraseIdx k, cur := s.cur.write w (some ⟨s.pending[k], 0⟩) } := by
  have place : claimedPlace c s < s.pending.length := Nat.mod_lt _ (List.length_pos_iff.2 hp)
  exact ⟨claimedPlace c s, place, by rw [claimStep, List.getD_eq_getElem _ _ place]⟩

theorem length_claimStep_pending (hp : s.pending ≠ []) (w : Nat) :
    (claimStep c w s).pending.length + 1 = s.pending.length :=
  List.length_eraseIdx_add_one (Nat.mod_lt _ (List.length_pos_iff.2 hp))

/-- The place after `(b, j)` in the spec's words: `(b, j + 1)`, or none after 65535 (R135). -/
theorem nextBlockPos_eq (b j : BitVec 16) :
    nextBlockPos ⟨b, j⟩ = if j.toNat = 65535 then none else some ⟨b, j + 1⟩ := by
  simp only [nextBlockPos, ← BitVec.toNat_inj, show (0xFFFF#16).toNat = 65535 from rfl]

/-- `ERRINFO` of a slot collision is the slot (R202, kind 0). -/
theorem errorInfo_slotCollision (o : Word) : errorInfo (.invariant .slotCollision o) = o.setWidth 64 := by
  simp [errorInfo, kindBits]

/-- Settles O28: the join is ruled out by the enabled worker, and the other outcomes of BUILD's body are a claim, a
slot update at a clear tag, and the fatal entry at a set one. -/
theorem buildTakesOneWorkerStep : Obligations.BuildTakesOneWorkerStep := by
  intro s busy ⟨v, hv, enabled⟩
  have moving : enabledWorkers Config.here s ≠ [] :=
    List.ne_nil_of_mem ((mem_enabledWorkers Config.here s v).2 ⟨hv, enabled⟩)
  rw [exec_busy busy, bodyOn]
  rcases buildBody_outcomes Config.here s with ⟨join, _⟩ | ⟨w, hw, ⟨idle, hp, e⟩ | ⟨⟨b, j⟩, held, tag⟩⟩
  · exact absurd join moving
  · obtain ⟨k, hk, claim⟩ := claimStep_eq (c := Config.here) hp w
    exact ⟨w, hw, .inl ⟨idle, k, hk, by rw [e, claim]; rfl⟩⟩
  · refine ⟨w, hw, .inr ⟨b, j, held, _, _, blockInput_toNat ⟨b, j⟩, rfl, tag.imp ?_ ?_⟩⟩
    · exact fun ⟨free, e⟩ => ⟨free, by rw [e, nextBlockPos_eq]⟩
    · exact fun ⟨taken, e⟩ => ⟨taken, by rw [e, ← errorInfo_slotCollision]; rfl⟩

/-! ### The work a build has left -/

/-- How many inputs a worker has left in the block it holds (R134). -/
def inputsLeft : Option BlockPos → Nat
  | none => 0
  | some p => 65536 - p.low.toNat

/-- How many claims and slot updates a build has left: a claim and 65536 slot updates for each pending block, and
the slot updates of the blocks already held (R133 to R135). -/
def buildWork (c : Config) (s : State) : Nat :=
  s.pending.length * 65537 + ∑ w ∈ Finset.range c.nworkers, inputsLeft (workerPos s w)

/-- A slot update leaves its worker one input less (R135). -/
theorem inputsLeft_nextBlockPos (p : BlockPos) : inputsLeft (nextBlockPos p) + 1 = inputsLeft (some p) := by
  have := p.low.isLt
  rcases nextBlockPos_cases p with ⟨hl, e⟩ | ⟨q, e, _, hl⟩ <;> simp only [e, inputsLeft, hl]
  omega

/-- Where one worker moves, the inputs left change by its own. -/
theorem sum_inputsLeft_move {w : Nat} {q : Option BlockPos} (hw : w < c.nworkers)
    (cur : ∀ v, workerPos t v = if v = w then q else workerPos s v) :
    ∑ v ∈ Finset.range c.nworkers, inputsLeft (workerPos t v) + inputsLeft (workerPos s w) =
      ∑ v ∈ Finset.range c.nworkers, inputsLeft (workerPos s v) + inputsLeft q := by
  have hm := Finset.mem_range.2 hw
  have others : ∑ v ∈ (Finset.range c.nworkers).erase w, inputsLeft (workerPos t v) =
      ∑ v ∈ (Finset.range c.nworkers).erase w, inputsLeft (workerPos s v) :=
    Finset.sum_congr rfl fun v hv => by rw [cur, if_neg (Finset.ne_of_mem_erase hv)]
  rw [← Finset.add_sum_erase _ _ hm, ← Finset.add_sum_erase _ (fun v => inputsLeft (workerPos s v)) hm, others, cur,
    if_pos rfl]
  omega

/-- A claim is one step of the work: the block's 65536 inputs remain (R133). -/
theorem buildWork_claim {w : Nat} {b : BitVec 16} (hw : w < c.nworkers) (idle : workerPos s w = none)
    (removed : t.pending.length + 1 = s.pending.length)
    (cur : ∀ v, workerPos t v = if v = w then some ⟨b, 0⟩ else workerPos s v) :
    buildWork c t + 1 = buildWork c s := by
  have moved := sum_inputsLeft_move hw cur
  rw [idle, show inputsLeft none = 0 from rfl, show inputsLeft (some ⟨b, 0⟩) = 65536 from rfl] at moved
  simp only [buildWork, ← removed]
  omega

/-- A slot update is one step of the work (R135). -/
theorem buildWork_update {w : Nat} {p : BlockPos} (hw : w < c.nworkers) (held : workerPos s w = some p)
    (pending : t.pending = s.pending) (cur : ∀ v, workerPos t v = if v = w then nextBlockPos p else workerPos s v) :
    buildWork c t + 1 = buildWork c s := by
  have moved := sum_inputsLeft_move hw cur
  rw [held, ← inputsLeft_nextBlockPos p] at moved
  simp only [buildWork, pending]
  omega

/-- At the join no work is left (R136). -/
theorem buildWork_join (join : enabledWorkers c s = []) : buildWork c s = 0 := by
  obtain ⟨pending, idle⟩ := enabledWorkers_eq_nil_iff.1 join
  have none_left : ∑ w ∈ Finset.range c.nworkers, inputsLeft (workerPos s w) = 0 :=
    Finset.sum_eq_zero fun w hw => by rw [idle w (Finset.mem_range.1 hw), inputsLeft]
  rw [buildWork, pending, none_left, List.length_nil]

/-- A build starts with 65536 claims and `2^32` slot updates to make (R132, R141). -/
theorem buildWork_start (c : Config) (s : State) : buildWork c (startCommand .build s) = 65536 + 2 ^ 32 := by
  have idle (w : Nat) : workerPos (startCommand .build s) w = none := rfl
  have blocks : allBlocks.length = 65536 := by rw [allBlocks, List.length_map, List.length_range]
  simp only [buildWork, idle, inputsLeft, Finset.sum_const_zero, startCommand_build_pending, blocks]
  norm_num

/-! ### A build in flight -/

/-- Two distinct inputs have the checksum `o` (R137). -/
def SharedSlot (c : Config) (o : Word) : Prop := ∃ i j, i ≠ j ∧ c.H i = o ∧ c.H j = o

/-- Every tagged slot has been written. -/
def TaggedWritten (s : State) : Prop := ∀ o, readTag s o = true → ∃ i, s.memT.read o.toNat = some i

/-- What a build that `s` accepted has changed while it is in flight: the status, the table, its own hidden state and
the counter of free choices. -/
def BuildFrame (s u : State) : Prop :=
  ∃ memT memTag pending cur draws,
    u = { s with state := .busy, lastop := 0x10, err := none, errinfo := 0, memT := memT, memTag := memTag,
                 pending := pending, cur := cur, draws := draws }

theorem BuildFrame.update (h : BuildFrame s u) (memT : Memory (Option Word)) (memTag : Memory Bool)
    (pending : List (BitVec 16)) (cur : Memory (Option BlockPos)) (draws : Nat) :
    BuildFrame s { u with memT := memT, memTag := memTag, pending := pending, cur := cur, draws := draws } := by
  obtain ⟨_, _, _, _, _, rfl⟩ := h
  exact ⟨_, _, _, _, _, rfl⟩

/-- `u` is a state between the steps of the build that `s` accepted. -/
structure BuildRunning (c : Config) (s u : State) : Prop where
  frame : BuildFrame s u
  sound : BuildSound c u
  canonical : Memory.wf u.cur = true
  written : TaggedWritten u

theorem BuildRunning.busy (h : BuildRunning c s u) : u.state = .busy := by
  obtain ⟨_, _, _, _, _, rfl⟩ := h.frame
  rfl

/-- With the host silent, a step of the whole is a step of the build (R22). -/
theorem BuildRunning.stepOn (h : BuildRunning c s u) (silent : s.host = []) : stepOn c u = .next (buildBody c u) := by
  obtain ⟨host, lastop⟩ : u.host = [] ∧ u.lastop = opcodeOf .build := by
    obtain ⟨_, _, _, _, _, rfl⟩ := h.frame
    exact ⟨silent, opcodeOf_build.symm⟩
  simp only [Machine.stepOn, turn, host]
  rw [engineMove_busy h.busy lastop, execOn_busy c .build u h.busy, bodyOn]

/-- An accepted BUILD is between its steps as soon as it has started (R132). -/
theorem BuildRunning.start (c : Config) (s : State) :
    BuildRunning c s (startCommand .build (noteAccepted (opcodeOf .build) s)) where
  frame := ⟨_, _, _, _, _, rfl⟩
  sound := startCommand_build_sound c _
  canonical := rfl
  written := fun _ tag => Bool.noConfusion tag

/-- A step of a build that leaves it in flight keeps it sound. -/
theorem BuildSound.of_busy (h : BuildSound c s) (canonical : Memory.wf s.cur = true)
    (busy : (buildBody c s).state = .busy) : BuildSound c (buildBody c s) := by
  rcases buildBody_table h canonical with ⟨sound, _⟩ | ⟨fatal, _⟩ | ⟨done, _⟩
  · exact sound
  · simp [fatal] at busy
  · simp [done] at busy

/-- A worker that finds its slot tagged has met a second input with that slot: those processed before are others
than its own (R135, R137). -/
theorem BuildSound.sharedSlot (h : BuildSound c s) {w : Nat} {p : BlockPos} (held : workerPos s w = some p)
    (taken : readTag s (c.H (blockInput p)) = true) : SharedSlot c (c.H (blockInput p)) := by
  obtain ⟨i, ⟨_, past⟩, hi⟩ := (h.tagged _).1 taken
  refine ⟨i, blockInput p, ?_, hi, rfl⟩
  rintro rfl
  have low := past w p held (blockInput_high p).symm
  rw [blockInput_low] at low
  exact Nat.lt_irrefl _ low

/-- At the join no worker holds a block, whatever its number. -/
theorem BuildSound.all_idle (h : BuildSound c s) (join : enabledWorkers c s = []) (w : Nat) : workerPos s w = none := by
  by_cases hw : w < c.nworkers
  · exact (enabledWorkers_eq_nil_iff.1 join).2 w hw
  · exact Option.eq_none_iff_forall_ne_some.2 fun p hp => hw (h.workerExists w p hp)

/-- A build reaches the join only if no two inputs share a slot. -/
theorem BuildSound.bijectiveH (h : BuildSound c s) (join : enabledWorkers c s = []) : c.BijectiveH :=
  bijectiveH_of_injective fun i j => h.noCollision i j (h.all_processed join i) (h.all_processed join j)

/-- A slot update writes the slot that it tags (R135). -/
theorem TaggedWritten.update (h : TaggedWritten s) {a v : Word} (hT : t.memT = s.memT.write a.toNat (some v))
    (hTag : t.memTag = s.memTag.write a.toNat true) : TaggedWritten t := by
  intro o tag
  rw [readTag, hTag, Memory.read_write _ _ _ _ (by decide)] at tag
  rw [hT, Memory.read_write _ _ _ _ (Option.some_ne_none v)]
  split at tag
  · next e => exact ⟨v, if_pos e⟩
  · next e =>
    rw [if_neg e]
    exact h o tag

/-- A step of a build in flight is the join, or one step of the work, or the fatal entry for a slot that two inputs
share (R133 to R137). -/
theorem BuildRunning.step (h : BuildRunning c s u) :
    enabledWorkers c u = [] ∨
      (BuildRunning c s (buildBody c u) ∧ buildWork c (buildBody c u) + 1 = buildWork c u) ∨
      ∃ o, SharedSlot c o ∧ buildBody c u = spendDraws (enterFatal (.invariant .slotCollision o) u) := by
  have sound := h.sound.of_busy h.canonical
  rcases buildBody_outcomes c u with ⟨join, _⟩ | ⟨w, hw, ⟨idle, hp, e⟩ | ⟨p, held, ⟨free, e⟩ | ⟨taken, e⟩⟩⟩
  · exact .inl join
  · rw [e] at sound ⊢
    have cur (v : Nat) := workerPos_write u w v (some ⟨u.pending.getD (claimedPlace c u) 0, 0⟩) h.canonical
    exact .inr (.inl ⟨⟨h.frame.update _ _ _ _ _, sound h.busy, Memory.wf_write _ _ _ h.canonical, h.written⟩,
      buildWork_claim hw idle (length_claimStep_pending hp w) cur⟩)
  · rw [e] at sound ⊢
    have cur (v : Nat) := workerPos_write u w v (nextBlockPos p) h.canonical
    exact .inr (.inl ⟨⟨h.frame.update _ _ _ _ _, sound h.busy, Memory.wf_write _ _ _ h.canonical,
      h.written.update rfl rfl⟩, buildWork_update hw held rfl cur⟩)
  · exact .inr (.inr ⟨_, h.sound.sharedSlot held taken, e⟩)

/-! ### The whole build -/

theorem runOn_succ {k : Nat} (h : stepOn c s = .next t) : runOn c (k + 1) s = runOn c k t := by
  simp only [runOn, h]

/-- A build in flight runs through its work to the join and completes, or meets a slot that two inputs share, under
every schedule: every other step leaves less work. -/
theorem BuildRunning.run {u : State} (h : BuildRunning c s u) (silent : s.host = []) :
    (∃ v, BuildRunning c s v ∧ enabledWorkers c v = [] ∧ runOn c (buildWork c u + 1) u = .next (joinStep v)) ∨
      ∃ v o, SharedSlot c o ∧ ReachesOn c u (spendDraws (enterFatal (.invariant .slotCollision o) v)) := by
  have step {k : Nat} := runOn_succ (k := k) (h.stepOn silent)
  rcases h.step with join | ⟨next, less⟩ | ⟨o, shared, e⟩
  · refine .inl ⟨u, h, join, ?_⟩
    rw [step, buildWork_join join, buildBody_join join, runOn]
  · rcases next.run silent with ⟨v, running, join, e⟩ | ⟨v, o, shared, k, e⟩
    · exact .inl ⟨v, running, join, by rw [step, ← less, e]⟩
    · exact .inr ⟨v, o, shared, k + 1, by rw [step, e]⟩
  · exact .inr ⟨u, o, shared, 1, by rw [step, e, runOn]⟩
termination_by buildWork c u

/-- An accepted BUILD makes 65536 claims, `2^32` slot updates and the join, or meets a slot that two inputs share. -/
theorem build_run (hm : c.tableMem = true) (hv : s.tableValid = false) (acc : acceptsWrites s = true)
    (silent : s.host = []) :
    (∃ v, BuildRunning c s v ∧ enabledWorkers c v = [] ∧
        runOn c (65536 + 2 ^ 32 + 1) (execOn c .build s) = .next (joinStep v)) ∨
      ∃ v o, SharedSlot c o ∧
        ReachesOn c (execOn c .build s) (spendDraws (enterFatal (.invariant .slotCollision o) v)) := by
  have accepted : issueCheck c .build s = none := by simp [issueCheck, hm, hv]
  rw [execOn_start acc rfl accepted, ← buildWork_start c (noteAccepted (opcodeOf .build) s)]
  exact (BuildRunning.start c s).run silent

/-- At the join the table of an injective `H` holds every input at its checksum, as a written slot. -/
theorem BuildRunning.holds_inputs (h : BuildRunning c s u) (join : enabledWorkers c u = [])
    (injective : Function.Injective c.H) (i : Word) : u.memT.read (c.H i).toNat = some i := by
  obtain ⟨tagged, correct⟩ := h.sound.tableWhole join
  obtain ⟨x, hx⟩ := h.written _ (tagged (c.H i))
  rw [hx, ← readT_of_read (c := c) hx, correct.readT_checksum injective]

/-- Settles O33: under a bijection no two inputs share a slot, so the build runs to the join, where the table is whole
and correct. -/
theorem buildEndsWithInverseTable : Obligations.BuildEndsWithInverseTable := by
  intro c s bijective hm hv acc silent
  rcases build_run hm hv acc silent with ⟨v, running, join, e⟩ | ⟨_, _, ⟨i, j, hne, hi, hj⟩, _⟩
  · refine ⟨joinStep v, e, ?_, (running.sound.tableWhole join).1, running.holds_inputs join bijective.1,
      running.sound.all_idle join⟩
    obtain ⟨pending, _⟩ := enabledWorkers_eq_nil_iff.1 join
    obtain ⟨_, _, _, _, _, rfl⟩ := running.frame
    obtain rfl : _ = [] := pending
    rfl
  · exact absurd (bijective.1 (hi.trans hj.symm)) hne

/-- Settles O34: a build that reached the join would show that `H` is a bijection, so it meets a shared slot. -/
theorem buildWithoutBijectionIsFatal : Obligations.BuildWithoutBijectionIsFatal := by
  intro c s notBijective hm hv acc silent
  rcases build_run hm hv acc silent with ⟨v, running, join, _⟩ | ⟨v, o, shared, reached⟩
  · exact absurd (running.sound.bijectiveH join) notBijective
  · exact ⟨_, o, reached, rfl, rfl, rfl, rfl, shared⟩

end Sys2Proof.Machine
end

section
/-! The iterated evaluators (`42_iterate.md`): the arms of a walk; the walk that FWD and INV share, from its acceptance
to its end, whatever function its values come from; and what that gives for a bijection and for its table. -/

namespace Sys2Proof.Machine

variable {c : Config} {s : State} {i : Instr} {k : Nat} {m : Memory (Option Word)} {next : Word → Word}

/-! ### One step of a walk -/

/-- With an empty list the value produced from the seed is recorded (R151). -/
theorem walkStep_first (empty : s.nrec = 0) : walkStep c next s = recordValue (next s.argWord) s := if_pos empty

section
variable {v a : Word} (last : s.memRec.read s.nrec = some v) (first : s.memRec.read 1 = some a)
include last first

/-- The value that repeats the first recorded one closes the walk (R151). -/
theorem walkStep_repeat (started : 1 ≤ s.nrec) (again : next v = a) : walkStep c next s = closeWalk c s := by
  have produced : next (readRec c s s.nrec) = readRec c s 1 := by
    rw [readRec_of_read last, readRec_of_read first, again]
  rw [walkStep, if_neg (by omega), if_pos produced]

/-- A value that does not is recorded, or is fatal after `2^32` of them (R151, R156). -/
theorem walkStep_new (started : 1 ≤ s.nrec) (other : next v ≠ a) :
    walkStep c next s =
      if s.nrec = domainSize then enterFatal (.invariant .stepLimit s.argWord) s else recordValue (next v) s := by
  have produced : next (readRec c s s.nrec) ≠ readRec c s 1 := by
    rwa [readRec_of_read last, readRec_of_read first]
  rw [walkStep, if_neg (by omega), if_neg produced, readRec_of_read last]
  rfl

theorem walkStep_record (started : 1 ≤ s.nrec) (room : s.nrec < domainSize) (other : next v ≠ a) :
    walkStep c next s = recordValue (next v) s := by
  rw [walkStep_new last first started other, if_neg (Nat.ne_of_lt room)]

theorem walkStep_limit (full : s.nrec = domainSize) (other : next v ≠ a) :
    walkStep c next s = enterFatal (.invariant .stepLimit s.argWord) s := by
  have started : 1 ≤ s.nrec := full ▸ by decide
  rw [walkStep_new last first started other, if_pos full]

end

/-- The result is the seed where the orbit length divides the round count (R152). -/
theorem closeWalk_seed (whole : s.argCount.toNat % s.nrec = 0) :
    closeWalk c s = { s with resWord := s.argWord, resLen := BitVec.ofNat 64 s.nrec, state := .done } := by
  rw [closeWalk, walkResult, countOperand, if_pos whole]
  rfl

/-- Elsewhere the result is the value recorded at the remainder (R152). -/
theorem closeWalk_recorded {x : Word} (part : s.argCount.toNat % s.nrec ≠ 0)
    (held : s.memRec.read (s.argCount.toNat % s.nrec) = some x) :
    closeWalk c s = { s with resWord := x, resLen := BitVec.ofNat 64 s.nrec, state := .done } := by
  rw [closeWalk, walkResult, countOperand, if_neg part, readRec_of_read held]
  rfl

/-- `ERRINFO` of a step limit: kind 2 above the seed (R202). -/
theorem errorInfo_stepLimit (w : Word) :
    errorInfo (.invariant .stepLimit w) = BitVec.ofNat 64 (2 * 2 ^ 32 + w.toNat) := by
  have layout : (errorInfo (.invariant .stepLimit w)).toNat = 2 * 2 ^ 32 + w.toNat :=
    field_over_word_toNat 2 2#2 w (by decide)
  rw [← layout, BitVec.ofNat_toNat, BitVec.setWidth_eq]

theorem exec_fwd_busy (busy : s.state = .busy) : exec .fwd s = .next (walkStep Config.here Config.here.H s) :=
  exec_busy busy

theorem exec_inv_busy (busy : s.state = .busy) : exec .inv s = .next (walkStep Config.here (readT Config.here s) s) :=
  exec_busy busy

/-- Settles O35: the arms of the walk, with `H` producing the values. -/
theorem forwardWalk : Obligations.ForwardWalk := by
  refine ⟨fun s busy empty => ?_, fun s v a busy started room last first other => ?_,
    fun s v busy started last first whole => ?_, fun s v x busy started last first part held => ?_⟩ <;>
    rw [exec_fwd_busy busy]
  · rw [walkStep_first empty, recordValue, empty]
  · rw [walkStep_record last first started room other, recordValue]
  · rw [walkStep_repeat last first started rfl, closeWalk_seed whole]
  · rw [walkStep_repeat last first started rfl, closeWalk_recorded part held]

/-- Settles O36: the arms of the walk, with the table producing the values. -/
theorem inverseWalk : Obligations.InverseWalk := by
  refine ⟨fun s v busy empty slot => ?_, fun s v a x busy started room last first slot other => ?_,
    fun s v a busy started last first slot whole => ?_, fun s v a x busy started last first slot part held => ?_⟩ <;>
    rw [exec_inv_busy busy] <;>
    have produced := readT_of_read (c := Config.here) slot
  · rw [walkStep_first empty, produced, recordValue, empty]
  · rw [walkStep_record last first started room (by rwa [produced]), produced, recordValue]
  · rw [walkStep_repeat last first started produced, closeWalk_seed whole]
  · rw [walkStep_repeat last first started produced, closeWalk_recorded part held]

/-- Settles O37: the arm of the walk at the step limit, with `H` and with the table producing the values. -/
theorem stepLimitIsFatal : Obligations.StepLimitIsFatal := by
  intro s v a busy full last first
  rw [← errorInfo_stepLimit, exec_fwd_busy busy, exec_inv_busy busy]
  refine ⟨fun other => ?_, fun x slot other => ?_⟩
  · rw [walkStep_limit last first full other]
    rfl
  · rw [walkStep_limit last first full (by rwa [readT_of_read slot])]
    rfl

/-! ### A walk in flight -/

/-- With the host silent, a step of the whole is a step of the command in flight (R22). -/
theorem stepOn_silent (silent : s.host = []) (busy : s.state = .busy) (lastop : s.lastop = opcodeOf i) :
    stepOn c s = .next (bodyOn c i s) := by
  simp only [stepOn, turn, silent]
  rw [engineMove_busy busy lastop, execOn_busy c i s busy]

/-- The commands that walk, from a state that passes their issue check, and the function that produces their values
(R151, R154). -/
inductive WalkOf (c : Config) (s : State) : Instr → (Word → Word) → Prop where
  | fwd : WalkOf c s .fwd c.H
  | inv (valid : s.tableValid = true) : WalkOf c s .inv (readT c s)

/-- The state of a walk that `s` accepted as command `i`, with `k` values in the recorded list `m`. -/
def walking (i : Instr) (s : State) (k : Nat) (m : Memory (Option Word)) : State :=
  { s with state := .busy, lastop := opcodeOf i, err := none, errinfo := 0, nrec := k, memRec := m }

/-- The recorded list holds the first `k` iterates of `next` from the seed, in order (R151). -/
def Recorded (next : Word → Word) (seed : Word) (k : Nat) (m : Memory (Option Word)) : Prop :=
  ∀ j, 1 ≤ j → j ≤ k → m.read j = some (next^[j] seed)

/-- No iterate that follows one of the first `k - 1` repeats the first one (R151). -/
def NoRepeatBelow (next : Word → Word) (seed : Word) (k : Nat) : Prop :=
  ∀ j, 1 ≤ j → j < k → next^[j + 1] seed ≠ next seed

theorem NoRepeatBelow.mono {seed : Word} {n : Nat} (h : NoRepeatBelow next seed n) (le : k ≤ n) :
    NoRepeatBelow next seed k :=
  fun j h1 hj => h j h1 (Nat.lt_of_lt_of_le hj le)

theorem Recorded.write {seed : Word} (h : Recorded next seed k m) :
    Recorded next seed (k + 1) (m.write (k + 1) (some (next^[k + 1] seed))) := by
  intro j h1 hj
  rw [Memory.read_write _ _ _ _ (Option.some_ne_none _)]
  split
  · next e => rw [e]
  · next ne => exact h j h1 (by omega)

/-- A value that does not repeat the first one is recorded, the first one itself included (R151). -/
theorem walkStep_walking (recorded : Recorded next s.argWord k m) (fresh : NoRepeatBelow next s.argWord (k + 1))
    (room : k < domainSize) :
    walkStep c next (walking i s k m) = walking i s (k + 1) (m.write (k + 1) (some (next^[k + 1] s.argWord))) := by
  rw [Function.iterate_succ_apply']
  rcases Nat.eq_zero_or_pos k with rfl | started
  · exact walkStep_first rfl
  · have other := fresh k started (Nat.lt_succ_self k)
    rw [Function.iterate_succ_apply'] at other
    exact walkStep_record (recorded k started le_rfl) (recorded 1 le_rfl started) started room other

/-- The state in which a walk that `s` accepted as command `i` has completed with orbit length `L` (R153, R155). -/
def walked (i : Instr) (s : State) (result : Word) (L : Nat) (m : Memory (Option Word)) : State :=
  { walking i s L m with resWord := result, resLen := BitVec.ofNat 64 L, state := .done }

/-- The closed walk answers the iterate numbered by the remainder of the round count (R152). -/
theorem closeWalk_walking (recorded : Recorded next s.argWord k m) (started : 1 ≤ k) :
    closeWalk c (walking i s k m) = walked i s (next^[s.argCount.toNat % k] s.argWord) k m := by
  by_cases whole : s.argCount.toNat % k = 0
  · rw [whole]
    exact closeWalk_seed whole
  · exact closeWalk_recorded whole (recorded _ (Nat.one_le_iff_ne_zero.2 whole) (Nat.mod_lt _ started).le)

section
variable (walk : WalkOf c s i next)
include walk

/-- A walk's command is accepted with an empty list (R47). -/
theorem WalkOf.start (acc : acceptsWrites s = true) : execOn c i s = walking i s 0 s.memRec := by
  cases walk with
  | fwd => exact execOn_start acc rfl rfl
  | inv valid => exact execOn_start acc rfl (if_pos valid)

/-- With the host silent, a step of the whole is a step of the walk. -/
theorem WalkOf.stepOn (silent : s.host = []) :
    stepOn c (walking i s k m) = .next (walkStep c next (walking i s k m)) := by
  rw [stepOn_silent (s := walking i s k m) silent rfl rfl]
  cases walk <;> rfl

/-- While nothing repeats, each step of a walk records one iterate: `k` steps lead to a list of `k` (R151, R161). -/
theorem WalkOf.records (acc : acceptsWrites s = true) (silent : s.host = []) (k : Nat) (bound : k ≤ domainSize)
    (fresh : NoRepeatBelow next s.argWord k) :
    ∃ m, Recorded next s.argWord k m ∧ ∀ n, runOn c (k + n) (execOn c i s) = runOn c n (walking i s k m) := by
  induction k with
  | zero => exact ⟨s.memRec, fun j h1 hj => by omega, fun n => by rw [walk.start acc, Nat.zero_add]⟩
  | succ k ih =>
    obtain ⟨m, recorded, run⟩ := ih (Nat.le_of_succ_le bound) (fresh.mono (Nat.le_succ k))
    refine ⟨_, recorded.write, fun n => ?_⟩
    rw [Nat.add_right_comm, Nat.add_assoc, run, runOn_succ (walk.stepOn silent), walkStep_walking recorded fresh bound]

/-- A walk closes at the first iterate that repeats the first one, whatever function it iterates (R151, R158). -/
theorem WalkOf.closes (acc : acceptsWrites s = true) (silent : s.host = []) {L : Nat} (pos : 1 ≤ L)
    (bound : L ≤ domainSize) (again : next^[L + 1] s.argWord = next s.argWord)
    (fresh : NoRepeatBelow next s.argWord L) :
    ∃ m, runOn c (L + 1) (execOn c i s) = .next (walked i s (next^[s.argCount.toNat % L] s.argWord) L m) := by
  obtain ⟨m, recorded, run⟩ := walk.records acc silent L bound fresh
  rw [Function.iterate_succ_apply'] at again
  have close : walkStep c next (walking i s L m) = closeWalk c (walking i s L m) :=
    walkStep_repeat (recorded L pos le_rfl) (recorded 1 le_rfl pos) pos again
  exact ⟨m, by rw [run, runOn_succ (walk.stepOn silent), close, closeWalk_walking recorded pos, runOn]⟩

/-- A walk in which no value repeats the first one ends at the step limit (R156, R158). -/
theorem WalkOf.reaches_limit (acc : acceptsWrites s = true) (silent : s.host = [])
    (fresh : NoRepeatBelow next s.argWord (domainSize + 1)) :
    ∃ m, runOn c (domainSize + 1) (execOn c i s) =
      .next (enterFatal (.invariant .stepLimit s.argWord) (walking i s domainSize m)) := by
  obtain ⟨m, recorded, run⟩ := walk.records acc silent domainSize le_rfl (fresh.mono (Nat.le_succ _))
  have other := fresh domainSize (by decide) (Nat.lt_succ_self _)
  rw [Function.iterate_succ_apply'] at other
  have limit : walkStep c next (walking i s domainSize m) =
      enterFatal (.invariant .stepLimit s.argWord) (walking i s domainSize m) :=
    walkStep_limit (recorded domainSize (by decide) le_rfl) (recorded 1 le_rfl (by decide)) rfl other
  exact ⟨m, by rw [run, runOn_succ (walk.stepOn silent), limit, runOn]⟩

end

/-- Settles O39: FWD is a walk of `H`. -/
theorem forwardClosesAtFirstRepeat : Obligations.ForwardClosesAtFirstRepeat := by
  intro c s L pos bound again fresh acc silent
  obtain ⟨m, run⟩ := WalkOf.fwd.closes acc silent pos bound again fresh
  exact ⟨_, run, rfl⟩

/-- Settles O40: FWD is a walk of `H`, and nothing in it repeats. -/
theorem forwardOffCycleIsFatal : Obligations.ForwardOffCycleIsFatal := by
  intro c s fresh acc silent
  obtain ⟨m, run⟩ := WalkOf.fwd.reaches_limit acc silent fun k h1 _ => fresh k h1
  exact ⟨_, run, rfl⟩

/-! ### A walk of a bijection -/

theorem minimalPeriod_pos_of_injective (injective : Function.Injective next) (w : Word) :
    0 < Function.minimalPeriod next w :=
  Function.minimalPeriod_pos_of_mem_periodicPts (injective.mem_periodicPts w)

theorem minimalPeriod_le_domainSize (next : Word → Word) (w : Word) : Function.minimalPeriod next w ≤ domainSize :=
  Function.minimalPeriod_le_card.trans_eq (FinEnum.card_eq_fintypeCard.symm.trans (FinEnum.card_bitVec 32))

/-- Under an injection the first one to recur is the seed itself, so nothing repeats before the least period. -/
theorem noRepeatBelow_minimalPeriod (injective : Function.Injective next) (w : Word) :
    NoRepeatBelow next w (Function.minimalPeriod next w) := by
  intro j h1 hj repeated
  rw [Function.iterate_succ_apply'] at repeated
  exact Function.not_isPeriodicPt_of_pos_of_lt_minimalPeriod (by omega) hj (injective repeated)

/-- A walk of an injection closes after its least period, with the iterate numbered by the round count (R150, R161). -/
theorem WalkOf.closes_of_injective (walk : WalkOf c s i next) (injective : Function.Injective next)
    (acc : acceptsWrites s = true) (silent : s.host = []) :
    ∃ m, runOn c (Function.minimalPeriod next s.argWord + 1) (execOn c i s) =
      .next (walked i s (next^[s.argCount.toNat] s.argWord) (Function.minimalPeriod next s.argWord) m) := by
  have again : next^[Function.minimalPeriod next s.argWord + 1] s.argWord = next s.argWord := by
    rw [Function.iterate_succ_apply', Function.iterate_minimalPeriod]
  rw [← Function.iterate_mod_minimalPeriod_eq]
  exact walk.closes acc silent (minimalPeriod_pos_of_injective injective _) (minimalPeriod_le_domainSize _ _) again
    (noRepeatBelow_minimalPeriod injective _)

/-- Settles O38: FWD is a walk of `H`, and a bijection is an injection. -/
theorem forwardContract : Obligations.ForwardContract := by
  intro c s bijective acc silent
  obtain ⟨m, run⟩ := WalkOf.fwd.closes_of_injective bijective.1 acc silent
  exact ⟨_, run, minimalPeriod_pos_of_injective bijective.1 _, minimalPeriod_le_domainSize _ _, rfl⟩

/-! ### The table and `H` are inverse to each other -/

theorem TableCorrect.bijectiveH (h : TableCorrect c s) : c.BijectiveH := bijectiveH_of_surjective fun o => ⟨_, h o⟩

theorem TableCorrect.rightInverse (h : TableCorrect c s) : Function.RightInverse (readT c s) c.H := h

theorem TableCorrect.leftInverse (h : TableCorrect c s) : Function.LeftInverse (readT c s) c.H :=
  h.readT_checksum h.bijectiveH.1

/-- The table goes backwards round the same cycle, so the walk over it finds FWD's orbit length (R155). -/
theorem TableCorrect.minimalPeriod_readT (h : TableCorrect c s) (w : Word) :
    Function.minimalPeriod (readT c s) w = Function.minimalPeriod c.H w := by
  refine Function.minimalPeriod_eq_minimalPeriod_iff.2 fun n => ⟨fun backwards => ?_, fun forwards => ?_⟩
  · exact (congrArg c.H^[n] backwards.symm).trans (h.rightInverse.iterate n w)
  · exact (congrArg (readT c s)^[n] forwards.symm).trans (h.leftInverse.iterate n w)

/-- Settles O41: INV is a walk of the table, which is the inverse of `H`. -/
theorem inverseContract : Obligations.InverseContract := by
  intro c s valid correct acc silent
  obtain ⟨m, run⟩ := (WalkOf.inv valid).closes_of_injective correct.rightInverse.injective acc silent
  rw [correct.minimalPeriod_readT] at run
  exact ⟨_, run, correct.rightInverse.iterate _ _, rfl⟩

/-- A walk of an inverse, started from the result of a walk with the same round count, gives back the seed (R157). -/
theorem WalkOf.undone {j : Instr} {back : Word → Word} (walk : WalkOf c s i next)
    (walkBack : ∀ result L m, WalkOf c { walked i s result L m with argWord := result } j back)
    (inverse : Function.LeftInverse back next) (injective : Function.Injective back)
    (acc : acceptsWrites s = true) (silent : s.host = []) :
    ∃ t u, ReachesOn c (execOn c i s) t ∧ t.state = .done ∧
      ReachesOn c (execOn c j { t with argWord := t.resWord }) u ∧ u.state = .done ∧ u.resWord = s.argWord := by
  obtain ⟨m, run⟩ := walk.closes_of_injective inverse.injective acc silent
  obtain ⟨m', runBack⟩ := (walkBack _ _ m).closes_of_injective injective rfl silent
  exact ⟨_, _, ⟨_, run⟩, rfl, ⟨_, runBack⟩, rfl, inverse.iterate _ _⟩

/-- Settles O42: FWD and INV walk functions that are inverse to each other, and FWD leaves the table alone. -/
theorem forwardAndInverseAgree : Obligations.ForwardAndInverseAgree := by
  intro c s valid correct acc silent
  have walkBack (result : Word) (L : Nat) (m : Memory (Option Word)) :
      WalkOf c { walked .fwd s result L m with argWord := result } .inv (readT c s) :=
    show WalkOf c _ .inv (readT c _) from .inv valid
  exact ⟨WalkOf.fwd.undone walkBack correct.leftInverse correct.rightInverse.injective acc silent,
    (WalkOf.inv valid).undone (fun _ _ _ => .fwd) correct.rightInverse correct.bijectiveH.1 acc silent⟩

end Sys2Proof.Machine
end

section
/-! The Functional-Graph Decomposer's steps and its queries (`43_decompose.md`): one arm of DECOMP at a time, ORBQ by
index arithmetic, ORBRD with its two tests. -/

namespace Sys2Proof.Machine

variable {c : Config} {s : State}

/-! ### Error information -/

/-- A value is written by its number. -/
theorem eq_ofNat_of_toNat_eq {v : Count} {n : Nat} (h : v.toNat = n) : v = BitVec.ofNat 64 n := by
  rw [← h, BitVec.ofNat_toNat, BitVec.setWidth_eq]

/-- `ERRINFO` of an `INVARIANT` is its kind above its Word (R202). -/
theorem errorInfo_invariant_toNat (k : InvariantKind) (w : Word) :
    (errorInfo (.invariant k w)).toNat = (kindBits k).toNat * 2 ^ 32 + w.toNat :=
  field_over_word_toNat 2 (kindBits k) w (by decide)

/-- `ERRINFO` of an index collision: kind 1 above the element (R202). -/
theorem errorInfo_indexCollision (w : Word) :
    errorInfo (.invariant .indexCollision w) = BitVec.ofNat 64 (2 ^ 32 + w.toNat) :=
  eq_ofNat_of_toNat_eq (errorInfo_invariant_toNat .indexCollision w)

/-- `ERRINFO` of a `BAD_INDEX` is `which` above the id (R202). -/
theorem errorInfo_badIndex_toNat (position : Bool) (id : Word) :
    (errorInfo (.badIndex position id)).toNat = (BitVec.ofBool position).toNat * 2 ^ 32 + id.toNat :=
  field_over_word_toNat 1 (BitVec.ofBool position) id (by decide)

theorem errorInfo_badIndex_id (id : Word) : errorInfo (.badIndex false id) = BitVec.ofNat 64 id.toNat :=
  eq_ofNat_of_toNat_eq ((errorInfo_badIndex_toNat false id).trans (by simp))

theorem errorInfo_badIndex_position (id : Word) :
    errorInfo (.badIndex true id) = BitVec.ofNat 64 (2 ^ 32 + id.toNat) :=
  eq_ofNat_of_toNat_eq (errorInfo_badIndex_toNat true id)

/-! ### The arms of DECOMP -/

theorem startWord_toNat (h : s.start < domainSize) : (startWord s).toNat = s.start :=
  (BitVec.toNat_ofNat _ _).trans (Nat.mod_eq_of_lt h)

theorem isIndexed_of_ne_none {w : Word} (h : s.memOidx.read w.toNat ≠ none) : isIndexed s w = true :=
  Option.isSome_iff_ne_none.2 h

theorem read_eq_none_of_not_isIndexed {w : Word} (h : isIndexed s w = false) : s.memOidx.read w.toNat = none :=
  Option.isNone_iff_eq_none.1 (Option.isSome_eq_false_iff.1 h)

theorem not_isIndexed_of_eq_none {w : Word} (h : s.memOidx.read w.toNat = none) : ¬ isIndexed s w = true := by
  simp only [isIndexed, h, Option.isSome_none, Bool.false_eq_true, not_false_iff]

theorem decompBody_of_scan (hp : s.phase = .scan) : decompBody c s = scanStep s := by simp only [decompBody, hp]

theorem decompBody_of_walk (hp : s.phase = .walk) : decompBody c s = orbitWalkStep c s := by simp only [decompBody, hp]

theorem decompBody_of_index {p : Nat} (hp : s.phase = .index p) : decompBody c s = indexStep c p s := by
  simp only [decompBody, hp]

/-- After the last candidate the command completes (R174). -/
theorem scanStep_last (last : s.start = domainSize) : scanStep s = finishDecomp s := if_pos last

section
variable (more : s.start < domainSize)
include more

/-- An indexed candidate is skipped (R171). -/
theorem scanStep_skip (indexed : s.memOidx.read s.start ≠ none) : scanStep s = nextStart s := by
  rw [← startWord_toNat more] at indexed
  rw [scanStep, if_neg (Nat.ne_of_lt more), if_pos (isIndexed_of_ne_none indexed)]

/-- A candidate that is not indexed starts a walk (R171). -/
theorem scanStep_walk (free : s.memOidx.read s.start = none) :
    scanStep s = { s with nrec := 1, memRec := s.memRec.write 1 (some (startWord s)), phase := .walk } := by
  rw [← startWord_toNat more] at free
  rw [scanStep, if_neg (Nat.ne_of_lt more), if_neg (not_isIndexed_of_eq_none free)]

end

section
variable {v : Word} (last : s.memRec.read s.nrec = some v)
include last

/-- The start Word ends the walk (R171). -/
theorem orbitWalkStep_close (closed : c.H v = startWord s) : orbitWalkStep c s = { s with phase := .index 0 } := by
  rw [orbitWalkStep, readRec_of_read last, if_pos closed]

/-- Another value is recorded while there is room (R171). -/
theorem orbitWalkStep_record (other : c.H v ≠ startWord s) (room : s.nrec ≠ domainSize) :
    orbitWalkStep c s = recordValue (c.H v) s := by
  rw [orbitWalkStep, readRec_of_read last, if_neg other, if_neg room]

/-- After `2^32` recorded values another one is fatal (R173). -/
theorem orbitWalkStep_limit (other : c.H v ≠ startWord s) (full : s.nrec = domainSize) :
    orbitWalkStep c s = enterFatal (.invariant .stepLimit (startWord s)) s := by
  rw [orbitWalkStep, readRec_of_read last, if_neg other, if_pos full, raise_invariant]

end

section
variable {p : Nat} {w : Word} (more : p < s.nrec) (held : s.memRec.read (p + 1) = some w)
include more held

/-- An element that is not indexed gets its pair and its place (R171). -/
theorem indexStep_element (free : s.memOidx.read w.toNat = none) :
    indexStep c p s = { s with memOidx := s.memOidx.write w.toNat (some ⟨s.norb, p⟩)
                               memOseq := s.memOseq.write (s.nbase + p) (some w), phase := .index (p + 1) } := by
  rw [indexStep, if_pos more, readRec_of_read held, indexElement, if_neg (not_isIndexed_of_eq_none free)]

/-- An element that is indexed already is fatal (R173). -/
theorem indexStep_collision (indexed : s.memOidx.read w.toNat ≠ none) :
    indexStep c p s = enterFatal (.invariant .indexCollision w) s := by
  rw [indexStep, if_pos more, readRec_of_read held, indexElement, if_pos (isIndexed_of_ne_none indexed),
    raise_invariant]

end

/-- After the last element the orbit is closed (R171). -/
theorem indexStep_last {p : Nat} (last : s.nrec ≤ p) : indexStep c p s = closeOrbit s := if_neg (Nat.not_lt_of_le last)

/-- Settles O43: the arms of a candidate's test, of the walk and of the indexing. -/
theorem decomposerSteps : Obligations.DecomposerSteps := by
  refine ⟨fun s busy hp last => ?_, fun s busy hp more indexed => ?_, fun s busy hp more free => ?_,
    fun s v busy hp more held => ?_, fun s p w busy hp more held => ?_, fun s p busy hp last => ?_⟩ <;>
    rw [exec_busy busy, bodyOn]
  · rw [decompBody_of_scan hp, scanStep_last last]
    rfl
  · rw [decompBody_of_scan hp, scanStep_skip more indexed, nextStart, ← hp]
  · rw [decompBody_of_scan hp, scanStep_walk more free]
    rfl
  · rw [decompBody_of_walk hp]
    refine ⟨fun closed => ?_, fun other room => ?_, fun other full => ?_⟩
    · rw [orbitWalkStep_close held closed]
    · rw [orbitWalkStep_record held other room, recordValue]
    · have info := errorInfo_stepLimit (startWord s)
      rw [startWord_toNat more] at info
      rw [orbitWalkStep_limit held other full, ← info]
      rfl
  · rw [decompBody_of_index hp]
    refine ⟨fun free => ?_, fun indexed => ?_⟩
    · rw [indexStep_element more held free]
    · rw [indexStep_collision more held indexed, ← errorInfo_indexCollision]
      rfl
  · rw [decompBody_of_index hp, indexStep_last last]
    rfl

/-! ### The place in an orbit -/

/-- The engine's place is that of the mathematical sum (R175). -/
theorem orbitPlace_eq (pos n len : Nat) : orbitPlace pos n len = (pos + n) % len := Nat.add_mod_mod pos n len

/-- Settles O47: both summands are below the length. -/
theorem orbitPlaceIsOverflowFree : Obligations.OrbitPlaceIsOverflowFree := by
  intro pos n len positive bound within
  have reduced : n % len < len := Nat.mod_lt n positive
  exact ⟨orbitPlace_eq pos n len, Nat.mod_lt _ positive, by omega⟩

/-! ### ORBQ -/

theorem readOidx_of_read {w : Word} {e : OrbitPos} (h : s.memOidx.read w.toNat = some e) : readOidx c s w = e := by
  simp only [readOidx, h, Option.getD_some]

/-- Settles O48: ORBQ's body is the completion, with the entries that stand written. -/
theorem orbitQueryCompletes : Obligations.OrbitQueryCompletes := by
  intro s id pos base len x busy entry dir element
  rw [← orbitPlace_eq] at element
  rw [exec_busy busy, bodyOn, orbqBody, wordOperand, readOidx_of_read entry, readOdir_of_read dir, orbitAnswer,
    countOperand, readOseq_of_read element]
  rfl

/-- In a correct index, `H` applied `n` times to a Word moves `n` places along the Word's orbit (R172, R175). -/
theorem IndexCorrect.iterate (h : IndexCorrect c s) (w : Word) (n : Nat) :
    c.H^[n] w = orbitElement c s (readOidx c s w).id
      (((readOidx c s w).pos + n) % (readOdir c s (readOidx c s w).id).len) := by
  obtain ⟨_, within, here, successor⟩ := h w
  induction n with
  | zero => rw [Nat.add_zero, Nat.mod_eq_of_lt within, orbitElement, here, Function.iterate_zero_apply]
  | succ n ih =>
    rw [Function.iterate_succ_apply', ih, orbitElement, ← successor _ (Nat.mod_lt _ (Nat.zero_lt_of_lt within)),
      Nat.mod_add_mod, Nat.add_assoc, orbitElement]

/-- ORBQ answers the iterate of its operand from a correct index (R176). -/
theorem orbqBody_resWord (h : IndexCorrect c s) : (orbqBody c s).resWord = c.H^[s.argCount.toNat] s.argWord := by
  rw [h.iterate, ← orbitPlace_eq]
  rfl

/-- In a whole index a Word recurs after `n` applications of `H` exactly where the length of its orbit divides `n`:
the places of an orbit hold distinct Words (R172). -/
theorem IndexWhole.isPeriodicPt_iff (h : IndexWhole c s) (w : Word) (n : Nat) :
    Function.IsPeriodicPt c.H n w ↔ (readOdir c s (readOidx c s w).id).len ∣ n := by
  obtain ⟨whole, sound, correct⟩ := h
  obtain ⟨e, he⟩ := read_of_isIndexed (whole w)
  have moved := correct.iterate w n
  obtain ⟨stored, within, here, _⟩ := correct w
  rw [readOidx_of_read he] at *
  have moved_mod : (e.pos + n) % (readOdir c s e.id).len = e.pos ↔ (readOdir c s e.id).len ∣ n := by
    conv_lhs => rhs; rw [← Nat.mod_eq_of_lt within]
    exact Nat.add_modEq_left_iff
  rw [← moved_mod, Function.IsPeriodicPt, Function.IsFixedPt, moved]
  refine ⟨fun again => ?_, fun again => by rw [again]; exact here⟩
  have place := sound.place e.id _ stored (Nat.mod_lt (e.pos + n) (Nat.zero_lt_of_lt within))
  rw [again, he] at place
  exact (congrArg OrbitPos.pos (Option.some.inj place)).symm

/-- In a whole index the length of a Word's orbit is its least period (R172). -/
theorem IndexWhole.minimalPeriod_eq (h : IndexWhole c s) (w : Word) :
    Function.minimalPeriod c.H w = (readOdir c s (readOidx c s w).id).len :=
  Nat.dvd_antisymm (Function.isPeriodicPt_iff_minimalPeriod_dvd.1 ((h.isPeriodicPt_iff w _).2 dvd_rfl))
    ((h.isPeriodicPt_iff w _).1 (Function.isPeriodicPt_minimalPeriod c.H w))

/-- In a whole index every Word recurs (R172). -/
theorem IndexWhole.minimalPeriod_pos (h : IndexWhole c s) (w : Word) : 0 < Function.minimalPeriod c.H w := by
  have ⟨_, _, correct⟩ := h
  obtain ⟨_, within, _⟩ := correct w
  exact h.minimalPeriod_eq w ▸ Nat.zero_lt_of_lt within

/-- Settles O49: a correct index moves along orbits as `H` does, and in a whole one the orbit length is the least
period. -/
theorem orbitQueryContract : Obligations.OrbitQueryContract := by
  refine ⟨fun c s correct busy => ?_, fun c s ⟨_, valid⟩ hv busy => ?_⟩ <;> rw [execOn_busy c .orbq s busy, bodyOn]
  · exact ⟨rfl, orbqBody_resWord correct⟩
  · have whole : IndexWhole c s := valid hv
    refine ⟨rfl, orbqBody_resWord whole.2.2, whole.minimalPeriod_pos _, ?_⟩
    rw [whole.minimalPeriod_eq]
    rfl

/-! ### ORBRD -/

/-- An id out of range is refused, whatever the position is (R177). -/
theorem orbrdBody_badId (h : s.norb ≤ s.argWord.toNat) : orbrdBody c s = enterError (.badIndex false s.argWord) s :=
  if_pos h

section
variable {d : OrbitDir} (known : s.argWord.toNat < s.norb) (dir : s.memOdir.read s.argWord.toNat = some d)
include known dir

/-- A position out of range is refused (R177). -/
theorem orbrdBody_badPosition (h : d.len ≤ s.argCount.toNat) :
    orbrdBody c s = enterError (.badIndex true s.argWord) s := by
  rw [orbrdBody, wordOperand, if_neg (Nat.not_le_of_lt known), readOdir_of_read dir]
  exact if_pos h

/-- In range, the element is the answer (R177). -/
theorem orbrdBody_element {x : Word} (h : s.argCount.toNat < d.len)
    (element : s.memOseq.read (d.base + s.argCount.toNat) = some x) :
    orbrdBody c s = { s with resWord := x, resOrbit := s.argWord, resPos := s.argCount.setWidth 32,
                             resLen := BitVec.ofNat 64 d.len, state := .done } := by
  rw [orbrdBody, wordOperand, if_neg (Nat.not_le_of_lt known), readOdir_of_read dir, readElement, countOperand,
    if_neg (Nat.not_le_of_lt h), readOseq_of_read element, low32_eq_setWidth]
  rfl

end

/-- Settles O50: the two tests in their order and the element; a sound directory holds no length above `2^32`, so a
position of `2^32` or more fails the second test. -/
theorem orbitReadCompletes : Obligations.OrbitReadCompletes := by
  refine ⟨fun s busy h => ?_, fun s base len busy known dir h => ?_, fun s base len x busy known dir h element => ?_,
    fun c s ⟨_, valid⟩ hv busy known => ?_⟩
  · rw [exec_busy busy, bodyOn, orbrdBody_badId h, ← errorInfo_badIndex_id]
    rfl
  · rw [exec_busy busy, bodyOn, orbrdBody_badPosition known dir h, ← errorInfo_badIndex_position]
    rfl
  · rw [exec_busy busy, bodyOn, orbrdBody_element known dir h element]
  · obtain ⟨_, sound, _⟩ := valid hv
    obtain ⟨d, dir⟩ := Option.ne_none_iff_exists'.1 (sound.listed _ known)
    have length := sound.length _ known
    rw [readOdir_of_read dir] at length
    refine ⟨⟨d.base, d.len, dir, length⟩, fun high => ?_⟩
    rw [execOn_busy c .orbrd s busy, bodyOn, orbrdBody_badPosition known dir (length.2.trans high),
      ← errorInfo_badIndex_position]
    rfl

end Sys2Proof.Machine
end

section
/-! DECOMP as a whole (`43_decompose.md`): no element is ever indexed twice, whatever `H` is; every decomposition ends,
with a whole index if `H` is a bijection and at the step limit if not. -/

namespace Sys2Proof.Machine

variable {c : Config} {s t : State}

/-! ### A walk from a fresh start Word -/

/-- The start Word being worked on stands in no stored orbit and has not recurred in its walk (R171, R173). -/
structure StartFresh (c : Config) (s : State) : Prop where
  notStored : ∀ e, s.memOidx.read (startWord s).toNat = some e → s.norb ≤ e.id
  notAgain : ∀ k, 1 < k → k ≤ s.nrec → readRec c s k ≠ startWord s

/-- Between the steps of a decomposition the start Word being worked on, if any, is fresh. -/
def DecompFresh (c : Config) (s : State) : Prop := s.phase ≠ .scan → StartFresh c s

/-- A step of a decomposition that leaves it in flight keeps the start Word fresh: a walk starts only at a Word that is
not indexed, and records no value that is the start Word (R171). -/
theorem decompBody_fresh (h : DecompFresh c s) (busy : (decompBody c s).state = .busy) :
    DecompFresh c (decompBody c s) := by
  rcases decompBody_cases c s with ⟨_, _, e⟩ | ⟨_, _, _, e⟩ | ⟨_, _, free, e⟩ | ⟨hp, _, e⟩ | ⟨_, _, _, e⟩ |
    ⟨hp, other, _, e⟩ | ⟨p, _, _, _, e⟩ | ⟨p, hp, _, _, e⟩ | ⟨p, _, _, e⟩ <;> rw [e] at busy ⊢
  · exact EngineState.noConfusion busy
  · exact fun hp => absurd rfl hp
  · refine fun _ => ⟨fun e he => ?_, fun k h1 hk => absurd hk (Nat.not_le_of_lt h1)⟩
    exact absurd ((read_eq_none_of_not_isIndexed free).symm.trans he) (Option.some_ne_none e).symm
  · obtain ⟨notStored, notAgain⟩ := h (by simp [hp])
    exact fun _ => ⟨notStored, notAgain⟩
  · exact EngineState.noConfusion busy
  · obtain ⟨notStored, notAgain⟩ := h (by simp [hp])
    refine fun _ => ⟨notStored, fun k h1 hk => ?_⟩
    have written := Memory.read_write s.memRec (s.nrec + 1) k (some (c.H (readRec c s s.nrec))) (Option.some_ne_none _)
    split at written
    · exact fun again => other ((readRec_of_read written).symm.trans again)
    · rw [recordValue_nrec] at hk
      exact fun again => notAgain k h1 (by omega) ((readRec_congr written).symm.trans again)
  · exact EngineState.noConfusion busy
  · obtain ⟨notStored, notAgain⟩ := h (by simp [hp])
    refine fun _ => ⟨fun e he => ?_, notAgain⟩
    have written := Memory.read_write s.memOidx (readRec c s (p + 1)).toNat (startWord s).toNat (some ⟨s.norb, p⟩)
      (Option.some_ne_none _)
    split at written
    · exact (congrArg OrbitPos.id (Option.some.inj (written.symm.trans he))).le
    · exact notStored e (written.symm.trans he)
  · exact fun hp => absurd rfl hp

/-- The recorded values are the iterates of the earlier ones (R171). -/
theorem OrbitWalkSound.iterate (h : OrbitWalkSound c s) {k n : Nat} (h1 : 1 ≤ k) (hk : k + n ≤ s.nrec) :
    readRec c s (k + n) = c.H^[n] (readRec c s k) := by
  induction n with
  | zero => rfl
  | succ n ih =>
    rw [Function.iterate_succ_apply', ← ih (Nat.le_of_succ_le hk)]
    exact h.image (k + n) (Nat.le_add_right_of_le h1) hk

/-- From any value of a closed walk, as many applications of `H` as values follow it, and one more, lead back to the
start Word (R171). -/
theorem OrbitWalkSound.returns (h : OrbitWalkSound c s) (closed : c.H (readRec c s s.nrec) = startWord s) {p : Nat}
    (hp : p < s.nrec) : c.H^[s.nrec - p] (readRec c s (p + 1)) = startWord s := by
  have last := h.iterate (k := p + 1) (n := s.nrec - (p + 1)) (Nat.le_add_left 1 p) (by omega)
  rw [show p + 1 + (s.nrec - (p + 1)) = s.nrec by omega] at last
  rw [show s.nrec - p = s.nrec - (p + 1) + 1 by omega, Function.iterate_succ_apply', ← last, closed]

/-- The element about to be indexed is not indexed: in a stored orbit it would lead to the start Word, which stands in
none, and earlier in this walk it would lead to the start Word before the walk closed (R173). -/
theorem DecompSound.next_not_indexed (h : DecompSound c s) (fresh : DecompFresh c s) {p : Nat}
    (hp : s.phase = .index p) (hlt : p < s.nrec) : isIndexed s (readRec c s (p + 1)) = false := by
  obtain ⟨notStored, notAgain⟩ := fresh (by simp [hp])
  have walk := h.walk (by simp [hp])
  have back := walk.returns (h.indexing p hp).closed hlt
  refine Bool.eq_false_iff.2 fun indexed => ?_
  obtain ⟨e, he⟩ := read_of_isIndexed indexed
  rcases h.placed _ e he with ⟨stored, within, element⟩ | ⟨_, q, hq, before, value⟩
  · rw [← element, h.orbits.iterate _ _ _ stored within] at back
    have place := h.orbits.place e.id _ stored (Nat.mod_lt (e.pos + (s.nrec - p)) (Nat.zero_lt_of_lt within))
    rw [back] at place
    exact Nat.not_le_of_lt stored (notStored _ place :)
  · cases hp.symm.trans hq
    rw [← value, ← walk.iterate (Nat.le_add_left 1 e.pos) (by omega)] at back
    exact notAgain _ (by omega) (by omega) back

/-- A walk of an injection closes within `2^32` values: the start Word recurs after its least period (R173). -/
theorem OrbitWalkSound.closes_of_injective (h : OrbitWalkSound c s) (fresh : StartFresh c s)
    (injective : Function.Injective c.H) (full : s.nrec = domainSize) : c.H (readRec c s s.nrec) = startWord s := by
  have first : readRec c s 1 = startWord s := readRec_of_read h.first
  have iterate {n : Nat} (hn : 1 + n ≤ s.nrec) : readRec c s (1 + n) = c.H^[n] (startWord s) := by
    rw [h.iterate le_rfl hn, first]
  have positive := minimalPeriod_pos_of_injective injective (startWord s)
  have again := Function.iterate_minimalPeriod (f := c.H) (x := startWord s)
  rcases (minimalPeriod_le_domainSize c.H (startWord s)).lt_or_eq with short | whole
  · have inWalk : 1 + Function.minimalPeriod c.H (startWord s) ≤ s.nrec := by omega
    exact absurd ((iterate inWalk).trans again) (fresh.notAgain _ (by omega) inWalk)
  · rw [whole, ← full] at again
    have last := iterate (n := s.nrec - 1) (by omega)
    rw [show 1 + (s.nrec - 1) = s.nrec by omega] at last
    rw [last, ← Function.iterate_succ_apply' c.H, show (s.nrec - 1).succ = s.nrec by omega, again]

/-! ### The steps a decomposition has left -/

/-- A bound on the steps left for the start Word being worked on: those of its test, of its walk and of its indexing
(R171). -/
def startWork (s : State) : Nat :=
  match s.phase with
  | .scan => 2 * domainSize + 2
  | .walk => 2 * domainSize + 1 - s.nrec
  | .index p => s.nrec - p

/-- A bound on the steps a decomposition has left (R180). -/
def decompWork (s : State) : Nat := (domainSize - s.start) * (2 * domainSize + 3) + startWork s

/-- Every step that leaves a decomposition in flight leaves less of it, whatever `H` is. -/
theorem decompWork_decreases (h : WalkCountersInRange s) (busy : (decompBody c s).state = .busy) :
    decompWork (decompBody c s) < decompWork s := by
  obtain ⟨nrec, start, working⟩ := h
  have passed {u : State} (more : s.start < domainSize) (hu : u.start = s.start) :
      decompWork (nextStart u) < decompWork s := by
    simp only [decompWork, startWork, nextStart_start, nextStart_phase, hu]
    rw [show domainSize - s.start = domainSize - (s.start + 1) + 1 by omega, Nat.add_mul]
    omega
  rcases decompBody_cases c s with ⟨_, _, e⟩ | ⟨_, more, _, e⟩ | ⟨hp, _, _, e⟩ | ⟨hp, _, e⟩ | ⟨_, _, _, e⟩ |
    ⟨hp, _, room, e⟩ | ⟨p, _, _, _, e⟩ | ⟨p, hp, hlt, _, e⟩ | ⟨p, hp, _, e⟩ <;> rw [e] at busy ⊢
  · exact EngineState.noConfusion busy
  · exact passed (Nat.lt_of_le_of_ne start more) rfl
  · simp only [decompWork, startWork, hp]
    omega
  · simp only [decompWork, startWork, hp]
    omega
  · exact EngineState.noConfusion busy
  · simp only [decompWork, startWork, recordValue_start, recordValue_phase, recordValue_nrec, hp]
    omega
  · exact EngineState.noConfusion busy
  · simp only [decompWork, startWork, hp]
    omega
  · exact passed (working (by simp [hp])) rfl

/-! ### A decomposition in flight -/

/-- `s` is a state between the steps of a decomposition, with the host silent. -/
structure DecompRunning (c : Config) (s : State) : Prop where
  busy : s.state = .busy
  lastop : s.lastop = opcodeOf .decomp
  silent : s.host = []
  sound : DecompSound c s
  fresh : DecompFresh c s
  counters : WalkCountersInRange s
  orbits : s.norb ≤ s.start

/-- The last candidate has been passed (R174). -/
def Exhausted (s : State) : Prop := s.phase = .scan ∧ s.start = domainSize

/-- The walk has recorded `2^32` values and produces another one than the start Word (R173). -/
def AtStepLimit (c : Config) (s : State) : Prop :=
  s.phase = .walk ∧ c.H (readRec c s s.nrec) ≠ startWord s ∧ s.nrec = domainSize

/-- With the host silent, a step of the whole is a step of the decomposition (R22). -/
theorem DecompRunning.stepOn (h : DecompRunning c s) : stepOn c s = .next (decompBody c s) :=
  stepOn_silent h.silent h.busy h.lastop

/-- A step of a decomposition in flight is the last one, or is at the step limit, or leaves it in flight: the fatal
entry for an element indexed twice is dead (R171 to R174). -/
theorem DecompSound.step (h : DecompSound c s) (fresh : DecompFresh c s) :
    (Exhausted s ∧ decompBody c s = finishDecomp s) ∨
      (AtStepLimit c s ∧ decompBody c s = enterFatal (.invariant .stepLimit (startWord s)) s) ∨
      (decompBody c s).state = s.state := by
  rcases decompBody_cases c s with ⟨hp, last, e⟩ | ⟨_, _, _, e⟩ | ⟨_, _, _, e⟩ | ⟨_, _, e⟩ | ⟨hp, other, full, e⟩ |
    ⟨_, _, _, e⟩ | ⟨p, hp, hlt, indexed, _⟩ | ⟨p, _, _, _, e⟩ | ⟨p, _, _, e⟩
  · exact .inl ⟨⟨hp, last⟩, e⟩
  · exact .inr (.inr (by rw [e]; rfl))
  · exact .inr (.inr (by rw [e]))
  · exact .inr (.inr (by rw [e]))
  · exact .inr (.inl ⟨⟨hp, other, full⟩, e⟩)
  · exact .inr (.inr (by rw [e]; rfl))
  · exact absurd indexed (Bool.eq_false_iff.1 (h.next_not_indexed fresh hp hlt))
  · exact .inr (.inr (by rw [e]))
  · exact .inr (.inr (by rw [e]; rfl))

/-- A step that leaves the engine `BUSY` leaves the decomposition in flight. -/
theorem DecompRunning.next (h : DecompRunning c s) (busy : (decompBody c s).state = .busy) :
    DecompRunning c (decompBody c s) := by
  obtain ⟨_, _, _, _, _, _, lastop, host, _⟩ := bodyOn_frame c .decomp s
  obtain ⟨counters, orbits⟩ := decompBody_counters (c := c) h.counters h.orbits
  refine ⟨busy, lastop.trans h.lastop, host.trans h.silent, ?_, decompBody_fresh h.fresh busy, counters, orbits⟩
  rcases decompBody_index h.sound h.counters.1 with ⟨sound, _⟩ | ⟨fatal, _⟩ | ⟨done, _⟩
  · exact sound
  · simp [fatal] at busy
  · simp [done] at busy

/-- What is reached from the next state is reached. -/
theorem ReachesOn.of_step {u : State} (h : stepOn c s = .next t) (reached : ReachesOn c t u) : ReachesOn c s u := by
  obtain ⟨k, e⟩ := reached
  exact ⟨k + 1, (runOn_succ h).trans e⟩

/-- How a decomposition ends that passes through `s`: after the last candidate, or at the step limit (R173, R174). -/
def DecompEnds (c : Config) (s : State) : Prop :=
  ∃ u, DecompRunning c u ∧
    ((Exhausted u ∧ ReachesOn c s (finishDecomp u)) ∨
      (AtStepLimit c u ∧ ReachesOn c s (enterFatal (.invariant .stepLimit (startWord u)) u)))

theorem DecompEnds.of_step (h : stepOn c s = .next t) (ends : DecompEnds c t) : DecompEnds c s := by
  obtain ⟨u, running, ends⟩ := ends
  exact ⟨u, running, ends.imp (.imp_right (.of_step h)) (.imp_right (.of_step h))⟩

/-- A decomposition in flight ends: every step that does not end it leaves less of it. -/
theorem DecompRunning.ends {s : State} (h : DecompRunning c s) : DecompEnds c s := by
  rcases h.sound.step h.fresh with ⟨last, e⟩ | ⟨limit, e⟩ | kept
  · exact ⟨s, h, .inl ⟨last, .of_step h.stepOn (e ▸ ⟨0, rfl⟩)⟩⟩
  · exact ⟨s, h, .inr ⟨limit, .of_step h.stepOn (e ▸ ⟨0, rfl⟩)⟩⟩
  · have busy := kept.trans h.busy
    have less := decompWork_decreases h.counters busy
    exact .of_step h.stepOn (h.next busy).ends
termination_by decompWork s

/-- The state in which `s` has accepted DECOMP. -/
def decompAccepted (s : State) : State := startCommand .decomp (noteAccepted (opcodeOf .decomp) s)

/-- The first step of a decomposition starts the walk at Word 0 (R171). -/
theorem decompBody_accepted (c : Config) (s : State) :
    decompBody c (decompAccepted s) =
      { decompAccepted s with nrec := 1, memRec := s.memRec.write 1 (some (startWord (decompAccepted s))),
                              phase := .walk } :=
  (decompBody_of_scan rfl).trans (scanStep_walk (show 0 < domainSize by decide) rfl)

/-- An accepted DECOMP is between its steps as soon as it has started its first walk. -/
theorem DecompRunning.first (silent : s.host = []) : DecompRunning c (decompBody c (decompAccepted s)) := by
  have sound := (startCommand_decomp_sound c (noteAccepted (opcodeOf .decomp) s)).startWalk rfl
  have fresh := decompBody_fresh (c := c) (s := decompAccepted s) fun hp => absurd rfl hp
  rw [decompBody_accepted] at fresh ⊢
  exact ⟨rfl, rfl, silent, sound, fresh rfl,
    ⟨show 1 ≤ domainSize by decide, Nat.zero_le _, fun _ => show 0 < domainSize by decide⟩, le_rfl⟩

/-- An accepted DECOMP ends. -/
theorem decomp_ends (hf : c.hasFgd = true) (hi : s.indexValid = false) (acc : acceptsWrites s = true)
    (silent : s.host = []) : DecompEnds c (execOn c .decomp s) := by
  rw [execOn_start (i := .decomp) acc hf (by simp [issueCheck, hi])]
  exact .of_step (stepOn_silent (s := decompAccepted s) silent rfl rfl) (DecompRunning.first silent).ends

/-! ### The end of a decomposition -/

/-- A whole index shows that `H` is a bijection: every Word recurs, so it is an image (R174). -/
theorem IndexWhole.bijectiveH (h : IndexWhole c s) : c.BijectiveH := by
  refine bijectiveH_of_surjective fun w => ⟨c.H^[Function.minimalPeriod c.H w - 1] w, ?_⟩
  rw [← Function.iterate_succ_apply' c.H, Nat.succ_eq_add_one, Nat.sub_add_cancel (h.minimalPeriod_pos w),
    Function.iterate_minimalPeriod]

/-- Under an injection no decomposition meets the step limit (R173). -/
theorem DecompRunning.not_atStepLimit (h : DecompRunning c s) (injective : Function.Injective c.H) :
    ¬ AtStepLimit c s := by
  intro ⟨hp, other, full⟩
  have walking : s.phase ≠ .scan := by simp [hp]
  exact other ((h.sound.walk walking).closes_of_injective (h.fresh walking) injective full)

/-- The places of the stored orbits: an orbit's number and a position in it. -/
def orbitPlaces (c : Config) (s : State) : Finset (Σ _ : Nat, Nat) :=
  (Finset.range s.norb).sigma fun id => Finset.range (readOdir c s id).len

theorem mem_orbitPlaces {q : Σ _ : Nat, Nat} :
    q ∈ orbitPlaces c s ↔ q.1 < s.norb ∧ q.2 < (readOdir c s q.1).len := by
  simp only [orbitPlaces, Finset.mem_sigma, Finset.mem_range]

theorem card_orbitPlaces (c : Config) (s : State) : (orbitPlaces c s).card = orbitLengthSum c s := by
  rw [orbitPlaces, Finset.card_sigma]
  simp only [Finset.card_range]
  rfl

/-- A whole index has as many places as there are Words: each Word stands at one, and each holds one (R174). -/
theorem IndexWhole.orbitLengthSum_eq (h : IndexWhole c s) : orbitLengthSum c s = 2 ^ 32 := by
  obtain ⟨_, sound, correct⟩ := h
  have words : (Finset.univ : Finset Word).card = 2 ^ 32 :=
    FinEnum.card_eq_fintypeCard.symm.trans (FinEnum.card_bitVec 32)
  rw [← card_orbitPlaces, ← words]
  refine Finset.card_bij' (fun q _ => orbitElement c s q.1 q.2)
    (fun w _ => ⟨(readOidx c s w).id, (readOidx c s w).pos⟩) (fun _ _ => Finset.mem_univ _) (fun w _ => ?_)
    (fun q hq => ?_) fun w _ => ?_
  · obtain ⟨stored, within, _⟩ := correct w
    exact mem_orbitPlaces.2 ⟨stored, within⟩
  · obtain ⟨stored, within⟩ := mem_orbitPlaces.1 hq
    rw [readOidx_of_read (sound.place q.1 q.2 stored within)]
  · obtain ⟨_, _, here, _⟩ := correct w
    exact here

/-- Settles O44: under a bijection the step limit is not met, and after the last candidate the index is whole. -/
theorem decomposerContract : Obligations.DecomposerContract := by
  intro c s bijective hf hi acc silent
  obtain ⟨u, running, ⟨⟨hp, last⟩, reached⟩ | ⟨limit, _⟩⟩ := decomp_ends hf hi acc silent
  · have whole : IndexWhole c (finishDecomp u) :=
      OrbitsKept.indexWhole (s := u) {} (running.sound.indexWhole hp last)
    exact ⟨_, reached, rfl, rfl, whole.1, whole.2.2, running.orbits.trans last.le, rfl, whole.orbitLengthSum_eq⟩
  · exact absurd limit (running.not_atStepLimit bijective.1)

/-- Settles O45: a decomposition that passed the last candidate would show that `H` is a bijection, so it meets the step
limit. -/
theorem decomposerWithoutBijectionIsFatal : Obligations.DecomposerWithoutBijectionIsFatal := by
  intro c s notBijective hf hi acc silent
  obtain ⟨u, running, ⟨⟨hp, last⟩, _⟩ | ⟨_, reached⟩⟩ := decomp_ends hf hi acc silent
  · exact absurd (running.sound.indexWhole hp last).bijectiveH notBijective
  · exact ⟨_, startWord u, reached, rfl, rfl, rfl, rfl⟩

end Sys2Proof.Machine
end

section
/-! An `INVARIANT` of kind 1 is never reported, whatever `H` is and whatever the host does (rules R173, R202, R206). -/

namespace Sys2Proof.Machine

variable {c : Config} {s t : State} {i : Instr}

/-- `ERR` and `ERRINFO` report an index collision (R202). -/
def CollisionReported (s : State) : Prop :=
  ∃ w, s.err = some .invariant ∧ s.errinfo = errorInfo (.invariant .indexCollision w)

theorem kindBits_injective : Function.Injective kindBits := by
  intro k l
  cases k <;> cases l <;> decide

/-- `ERRINFO` tells the kind of an `INVARIANT` (R202). -/
theorem invariantKind_of_errorInfo {k l : InvariantKind} {v w : Word}
    (h : errorInfo (.invariant k v) = errorInfo (.invariant l w)) : k = l := by
  have number := congrArg BitVec.toNat h
  rw [errorInfo_invariant_toNat, errorInfo_invariant_toNat] at number
  have := v.isLt
  have := w.isLt
  exact kindBits_injective (BitVec.eq_of_toNat_eq (by omega))

/-- The fatal entry of another kind reports no index collision. -/
theorem enterFatal_not_collision {k : InvariantKind} (w : Word) (s : State) (hk : k ≠ .indexCollision) :
    ¬ CollisionReported (enterFatal (.invariant k w) s) :=
  fun ⟨_, _, info⟩ => hk (invariantKind_of_errorInfo info)

/-- With consistent status registers only `FATAL` reports an index collision. -/
theorem StatusConsistent.not_collision (h : StatusConsistent c s) (hf : s.state ≠ .fatal) : ¬ CollisionReported s := by
  intro ⟨w, err, _⟩
  obtain ⟨meaning, _⟩ := h
  unfold StateMeaning at meaning
  split at meaning
  · obtain ⟨⟨noErr, _⟩, _⟩ := meaning
    simp [noErr] at err
  · obtain ⟨⟨noErr, _⟩, _⟩ := meaning
    simp [noErr] at err
  · obtain ⟨noErr, _⟩ := meaning
    simp [noErr] at err
  · obtain ⟨e, nonfatal, reported, _⟩ := meaning
    rw [Option.some.inj (reported.symm.trans err)] at nonfatal
    exact absurd nonfatal (by decide)
  · next fatal => exact hf fatal

/-! ### The engine's own step -/

/-- The fatal entry of a walk is the step limit (R156). -/
theorem walkStep_not_collision {next : Word → Word} (busy : s.state = .busy)
    (fatal : (walkStep c next s).state = .fatal) : ¬ CollisionReported (walkStep c next s) := by
  rcases walkStep_cases c next s with ⟨_, e⟩ | ⟨_, _, e⟩ | ⟨_, _, e⟩ | ⟨_, _, _, e⟩ <;> rw [e] at fatal ⊢
  · simp [busy] at fatal
  · simp [closeWalk] at fatal
  · exact enterFatal_not_collision _ s (by decide)
  · simp [busy] at fatal

/-- The fatal entry of a build is a slot collision (R137). -/
theorem buildBody_not_collision (busy : s.state = .busy) (fatal : (buildBody c s).state = .fatal) :
    ¬ CollisionReported (buildBody c s) := by
  rcases buildBody_outcomes c s with ⟨_, e⟩ | ⟨w, _, ⟨_, _, e⟩ | ⟨p, _, ⟨_, e⟩ | ⟨_, e⟩⟩⟩ <;> rw [e] at fatal ⊢
  · exact EngineState.noConfusion fatal
  · exact EngineState.noConfusion (busy.symm.trans fatal)
  · exact EngineState.noConfusion (busy.symm.trans fatal)
  · exact enterFatal_not_collision _ s (by decide)

/-- The fatal entry of a sound decomposition is the step limit (R173). -/
theorem decompBody_not_collision (sound : DecompSound c s) (fresh : DecompFresh c s) (busy : s.state = .busy)
    (fatal : (decompBody c s).state = .fatal) : ¬ CollisionReported (decompBody c s) := by
  rcases sound.step fresh with ⟨_, e⟩ | ⟨_, e⟩ | kept
  · rw [e] at fatal
    exact EngineState.noConfusion fatal
  · rw [e]
    exact enterFatal_not_collision _ s (by decide)
  · exact EngineState.noConfusion (busy.symm.trans (kept.symm.trans fatal))

/-- ORBRD has no fatal error (R177). -/
theorem orbrdBody_not_fatal (c : Config) (s : State) : (orbrdBody c s).state ≠ .fatal := by
  unfold orbrdBody readElement
  split_ifs <;> exact EngineState.noConfusion

/-- BRUTE has no fatal error (R191). -/
theorem bruteBody_not_fatal (busy : s.state = .busy) : (bruteBody c s).state ≠ .fatal := by
  rcases bruteBody_cases c s with ⟨_, e⟩ | ⟨_, _, _, _, e⟩ | ⟨_, _, _, _, e⟩ <;> rw [e]
  · exact EngineState.noConfusion
  · exact EngineState.noConfusion
  · exact fun fatal => EngineState.noConfusion (busy.symm.trans fatal)

/-- No command in flight reports an index collision, a sound decomposition included. -/
theorem bodyOn_not_collision (busy : s.state = .busy) (decomp : i = .decomp → DecompSound c s ∧ DecompFresh c s)
    (fatal : (bodyOn c i s).state = .fatal) : ¬ CollisionReported (bodyOn c i s) := by
  cases i with
  | build => exact buildBody_not_collision busy fatal
  | fwd => exact walkStep_not_collision busy fatal
  | inv => exact walkStep_not_collision busy fatal
  | decomp =>
    obtain ⟨sound, fresh⟩ := decomp rfl
    exact decompBody_not_collision sound fresh busy fatal
  | orbrd => exact absurd fatal (orbrdBody_not_fatal c s)
  | brute => exact absurd fatal (bruteBody_not_fatal busy)
  | hash | encode | decode | lookup | orbq => exact EngineState.noConfusion fatal

/-! ### Every step -/

/-- How a step can end in `FATAL`: it was there, and the report stays; a BUILD is refused for want of memory; or the
engine's own step is fatal. -/
theorem stepOn_fatal_cases (h : stepOn c s = .next t) (fatal : t.state = .fatal) :
    (s.state = .fatal ∧ t.err = s.err ∧ t.errinfo = s.errinfo) ∨ t.err = some .resource ∨
      ∃ i rest, s.state = .busy ∧ s.lastop = opcodeOf i ∧ t = bodyOn c i { s with host := rest } := by
  rcases stepOn_cases c s t h with ⟨rest, _, rfl⟩ | ⟨_, _, _, rfl⟩ | ⟨idx, v, rest, _, hw⟩ | ⟨_, _, _, rfl⟩ |
    ⟨rest, i, _, hb, hl, rfl⟩
  · exact EngineState.noConfusion fatal
  · exact .inl ⟨fatal, rfl, rfl⟩
  · rcases hostWrite_cases c idx v _ t hw with rfl | ⟨_, r, _, _, _, rfl⟩ | ⟨_, _, _, _, rfl⟩ | ⟨_, _, j, _, rfl⟩
    · exact .inl ⟨fatal, rfl, rfl⟩
    · obtain ⟨_, _, _, _, _, _, e⟩ := storeReg_shape r v { s with host := rest }
      rw [e] at fatal ⊢
      exact .inl ⟨fatal, rfl, rfl⟩
    · exact EngineState.noConfusion fatal
    · rcases issue_outcomes c j { s with host := rest } with ⟨_, e, _⟩ | ⟨e, _, _⟩ | ⟨_, _, e⟩ <;> rw [e] at fatal ⊢
      · exact EngineState.noConfusion fatal
      · exact .inr (.inl rfl)
      · simp at fatal
  · exact .inl ⟨fatal, rfl, rfl⟩
  · exact .inr (.inr ⟨i, rest, hb, hl, rfl⟩)

/-- What is said of the start Word depends on the hidden state only. -/
theorem DecompFresh.congr (k : HiddenKept s t) (h : DecompFresh c s) : DecompFresh c t := by
  have recorded (n : Nat) : readRec c t n = readRec c s n := readRec_congr (by rw [k.memRec])
  have begins : startWord t = startWord s := by rw [startWord, startWord, k.start]
  intro hp
  obtain ⟨notStored, notAgain⟩ := h (k.phase ▸ hp)
  constructor <;> simpa only [k.memOidx, k.norb, k.nrec, begins, recorded]

/-- A decomposition in flight works on a fresh start Word. -/
def FreshInFlight (c : Config) (s : State) : Prop :=
  s.state = .busy → s.lastop = opcodeOf .decomp → DecompFresh c s

/-- Every step keeps the start Word of a decomposition in flight fresh. -/
theorem stepOn_fresh (h : FreshInFlight c s) (hst : stepOn c s = .next t) : FreshInFlight c t := by
  intro busy lastop
  rcases stepOn_hidden_cases hst with ⟨u, rfl⟩ | ⟨k, inFlight⟩ | ⟨e, u, rfl, _⟩ | ⟨i, u, rfl, _, hl, _⟩ |
    ⟨i, rest, hb, hl, rfl⟩
  · exact EngineState.noConfusion busy
  · obtain ⟨hb, e⟩ := inFlight busy
    exact (h hb (e ▸ lastop)).congr k
  · exact EngineState.noConfusion busy
  · rw [startCommand_lastop, hl] at lastop
    rw [opcodeOf_inj _ _ lastop]
    exact fun hp => absurd rfl hp
  · obtain ⟨_, _, _, _, _, _, kept, _⟩ := bodyOn_frame c i { s with host := rest }
    rw [kept] at lastop
    rw [opcodeOf_inj _ _ (hl.symm.trans lastop)] at busy ⊢
    exact decompBody_fresh ((h hb lastop).congr {}) busy

/-- What holds along every run and makes the index collision dead. -/
structure CollisionDead (c : Config) (s : State) : Prop where
  status : StatusConsistent c s
  hidden : HiddenInRange s
  index : IndexInvariant c s
  fresh : FreshInFlight c s
  unreported : ¬ CollisionReported s

theorem CollisionDead.step (h : CollisionDead c s) (hst : stepOn c s = .next t) : CollisionDead c t := by
  have status := stepOn_consistent h.status hst
  refine ⟨status, stepOn_hidden h.hidden hst, stepOn_indexInvariant h.status h.hidden.walk h.index hst,
    stepOn_fresh h.fresh hst, ?_⟩
  by_cases fatal : t.state = .fatal
  · rcases stepOn_fatal_cases hst fatal with ⟨_, err, info⟩ | err | ⟨i, rest, busy, lastop, rfl⟩
    · intro reported
      rw [CollisionReported, err, info] at reported
      exact h.unreported reported
    · exact fun ⟨_, reported, _⟩ => by simp [err] at reported
    · refine bodyOn_not_collision busy (fun hi => ?_) fatal
      subst hi
      obtain ⟨sound, _⟩ := h.index
      exact ⟨(sound busy lastop).congr {}, (h.fresh busy lastop).congr {}⟩
  · exact status.not_collision fatal

/-- It holds after a reset, whatever the host is about to do (R48). -/
theorem collisionDead_resetEngine (c : Config) (s : State) : CollisionDead c (resetEngine s) where
  status := resetEngine_consistent c s
  hidden := resetEngine_hidden s
  index := ⟨fun busy => EngineState.noConfusion busy, fun valid => Bool.noConfusion valid⟩
  fresh busy := EngineState.noConfusion busy
  unreported := fun ⟨_, err, _⟩ => nomatch err

/-- What every step keeps, every run keeps. -/
theorem runOn_keeps {P : State → Prop} (step : ∀ u v, P u → stepOn c u = .next v → P v) (k : Nat) (h : P s)
    (run : runOn c k s = .next t) : P t := by
  induction k generalizing s with
  | zero =>
    cases run
    exact h
  | succ k ih =>
    unfold runOn at run
    split at run
    · next u hu => exact ih (step s u h hu) run
    · cases run
    · cases run

/-- Settles O46: every step keeps what makes the index collision dead, and it holds after the reset. -/
theorem indexCollisionNeverReported : Obligations.IndexCollisionNeverReported := by
  intro c script k t w run reported
  have dead : CollisionDead c t :=
    runOn_keeps (fun _ _ => CollisionDead.step) k (collisionDead_resetEngine c { State.reset with host := script }) run
  exact dead.unreported ⟨w, reported⟩

end Sys2Proof.Machine
end

section
/-! The brute-force fallback (`44_brute.md`): the digits of a candidate's number, the arms of one step, and the whole
search, whose position the invariant of its tested count gives. -/

namespace Sys2Proof.Machine

variable {c : Config} {s : State} {k : BruteIdx} {place : Option BruteIdx} {n : Nat}

/-! ### The candidates by number -/

/-- The last digit of a number and the digits before it. -/
theorem digits_split {size a b : Nat} (hb : b < size) : (a * size + b) / size = a ∧ (a * size + b) % size = b :=
  (Nat.div_mod_unique (Nat.zero_lt_of_lt hb)).2 ⟨by ring, hb⟩

theorem alphabetAt_val (s : State) (j : Fin 256) : alphabetAt s j.val = alphabetByte s j := dif_pos j.isLt

/-- The candidate of an index tuple is the one that the tuple's rank numbers: the indices are the digits (R193). -/
theorem candidateNumber_tupleRank (hk : InAlphabet (alphabetSize s) k) :
    candidateNumber s (tupleRank (alphabetSize s) k) = candidate s k := by
  obtain ⟨_, h1, h2, h3⟩ := hk
  simp only [candidateNumber, candidate, tupleRank, Nat.pow_succ, Nat.pow_zero, Nat.one_mul,
    ← Nat.div_div_eq_div_mul, digits_split h1, digits_split h2, digits_split h3, alphabetAt_val]

/-- Every byte of a candidate stands in the alphabet (R190). -/
theorem candidate_overAlphabet (hk : InAlphabet (alphabetSize s) k) : OverAlphabet s (candidate s k) := by
  obtain ⟨h0, h1, h2, h3⟩ := hk
  intro j
  match j with
  | 0 => exact ⟨k.i0, h0, rfl⟩
  | 1 => exact ⟨k.i1, h1, rfl⟩
  | 2 => exact ⟨k.i2, h2, rfl⟩
  | 3 => exact ⟨k.i3, h3, rfl⟩

/-- A buffer over the alphabet is the candidate of some index tuple (R190). -/
theorem OverAlphabet.exists_tuple {b : Buffer} (h : OverAlphabet s b) :
    ∃ k, InAlphabet (alphabetSize s) k ∧ candidate s k = b := by
  obtain ⟨i0, h0, e0⟩ := h 0
  obtain ⟨i1, h1, e1⟩ := h 1
  obtain ⟨i2, h2, e2⟩ := h 2
  obtain ⟨i3, h3, e3⟩ := h 3
  refine ⟨⟨i0, i1, i2, i3⟩, ⟨h0, h1, h2, h3⟩, ?_⟩
  rw [candidate, e0, e1, e2, e3]
  rfl

/-- Every number below `ALEN^4` is the rank of an index tuple: its digits are indices of alphabet bytes (R193). -/
theorem exists_tupleRank_eq {size : Nat} (le : size ≤ 256) (h : n < size ^ 4) :
    ∃ k, InAlphabet size k ∧ tupleRank size k = n := by
  have pos : 0 < size := Nat.pos_of_ne_zero (by rintro rfl; simp at h)
  have digit (a : Nat) : a % size < size := Nat.mod_lt a pos
  have top : n / size / size / size < size := by
    simp only [Nat.div_lt_iff_lt_mul pos]
    simpa only [Nat.pow_succ, Nat.pow_zero, Nat.one_mul] using h
  refine ⟨⟨⟨n / size / size / size, top.trans_le le⟩, ⟨n / size / size % size, (digit _).trans_le le⟩,
    ⟨n / size % size, (digit _).trans_le le⟩, ⟨n % size, (digit _).trans_le le⟩⟩, ⟨top, digit _, digit _, digit _⟩, ?_⟩
  simp only [tupleRank, Nat.div_add_mod']

/-- Settles O53: the numbers below `ALEN^4` are the ranks of the index tuples over the alphabet, and the buffers over
the alphabet are the candidates of those tuples. -/
theorem candidatesAreTheSearchSpace : Obligations.CandidatesAreTheSearchSpace := by
  intro s b
  constructor
  · rintro ⟨n, hn, rfl⟩
    obtain ⟨k, hk, rfl⟩ := exists_tupleRank_eq (alphabetSize_le s) hn
    exact (candidateNumber_tupleRank hk).symm ▸ candidate_overAlphabet hk
  · intro h
    obtain ⟨k, hk, rfl⟩ := h.exists_tuple
    exact ⟨_, tupleRank_lt hk, candidateNumber_tupleRank hk⟩

/-! ### One step of a search -/

/-- With no candidate to test the search fails with the number tested (R191). -/
theorem bruteBody_fail (exhausted : alphabetSize s = 0 ∨ s.bruteAt = none) :
    bruteBody c s = enterError (.lookupFail s.tested) s := by
  rcases bruteBody_cases c s with ⟨_, e⟩ | ⟨k, stands, size, _⟩ | ⟨k, stands, size, _⟩
  · exact e
  all_goals simp [stands, size] at exhausted

section
variable (size : alphabetSize s ≠ 0) (stands : s.bruteAt = some k)
include size stands

theorem bruteBody_test : bruteBody c s = testCandidate c k s := by
  simp only [bruteBody, stands, if_neg size]

/-- A candidate with the target's checksum ends the search (R191). -/
theorem bruteBody_match (found : c.H (decodeBuffer (candidate s k)) = s.argWord) :
    bruteBody c s = acceptCandidate (candidate s k) s :=
  (bruteBody_test size stands).trans (if_pos found)

/-- Any other candidate is counted, and the next one is to be tested (R191). -/
theorem bruteBody_next (other : c.H (decodeBuffer (candidate s k)) ≠ s.argWord) :
    bruteBody c s = { s with tested := s.tested + 1, bruteAt := nextTuple (alphabetSize s) k } :=
  (bruteBody_test size stands).trans (if_neg other)

end

/-- Settles O51: BRUTE's body in each arm of one step of the search. -/
theorem bruteForceSteps : Obligations.BruteForceSteps := by
  refine ⟨fun s k busy size stands found => ?_, fun s k busy size stands other => ?_, fun s busy exhausted => ?_⟩ <;>
    rw [exec_busy busy, bodyOn]
  · rw [bruteBody_match size.ne' stands found]
    rfl
  · rw [bruteBody_next size.ne' stands other]
    rfl
  · rw [bruteBody_fail exhausted]
    rfl

/-! ### The whole search -/

/-- The state of a search that `s` accepted, standing at a place in its loops with `n` candidates tested. -/
def searching (s : State) (place : Option BruteIdx) (n : Nat) : State :=
  { s with state := .busy, lastop := opcodeOf .brute, err := none, errinfo := 0, bruteAt := place, tested := n }

/-- BRUTE is accepted at the first index tuple with nothing tested (R47). -/
theorem execOn_brute_start (unit : c.hasBf = true) (acc : acceptsWrites s = true) :
    execOn c .brute s = searching s (some ⟨0, 0, 0, 0⟩) 0 :=
  execOn_start acc unit rfl

theorem searching_start_counts (s : State) : TestedCountsCandidates (searching s (some ⟨0, 0, 0, 0⟩) 0) :=
  ⟨by simp [tupleRank, searching], .inl rfl⟩

/-- With the host silent, a step of the whole is a step of the search. -/
theorem stepOn_searching (silent : s.host = []) :
    stepOn c (searching s place n) = .next (bruteBody c (searching s place n)) :=
  stepOn_silent (i := .brute) silent rfl rfl

/-- While fewer than `ALEN^4` candidates are tested, the search stands at the one that the tested count numbers. -/
theorem searching_stands (counts : TestedCountsCandidates (searching s place n)) (more : n < alphabetSize s ^ 4) :
    ∃ k, place = some k ∧ alphabetSize s ≠ 0 ∧ candidate s k = candidateNumber s n := by
  have size : alphabetSize s ≠ 0 := by rintro e; simp [e] at more
  cases place with
  | none => exact absurd counts more.ne
  | some k =>
    obtain ⟨rank, inside⟩ := counts
    obtain rfl : n = tupleRank (alphabetSize s) k := rank
    exact ⟨k, rfl, size, (candidateNumber_tupleRank (inAlphabet_of_first size inside)).symm⟩

/-- When `ALEN^4` candidates are tested, none is left. -/
theorem searching_exhausted (counts : TestedCountsCandidates (searching s place (alphabetSize s ^ 4))) :
    alphabetSize s = 0 ∨ place = none := by
  rcases Nat.eq_zero_or_pos (alphabetSize s) with size | size
  · exact .inl size
  cases place with
  | none => exact .inr rfl
  | some k =>
    obtain ⟨rank, inside⟩ := counts
    exact absurd rank (tupleRank_lt (inAlphabet_of_first size.ne' inside)).ne'

/-- A candidate without the target's checksum is passed by one step. -/
theorem searching_passes (counts : TestedCountsCandidates (searching s place n)) (more : n < alphabetSize s ^ 4)
    (other : c.H (decodeBuffer (candidateNumber s n)) ≠ s.argWord) :
    ∃ place', TestedCountsCandidates (searching s place' (n + 1)) ∧
      bruteBody c (searching s place n) = searching s place' (n + 1) := by
  obtain ⟨k, rfl, size, numbered⟩ := searching_stands counts more
  rw [← numbered] at other
  have step : bruteBody c (searching s (some k) n) = searching s (nextTuple (alphabetSize s) k) (n + 1) :=
    bruteBody_next (s := searching s (some k) n) size rfl other
  have counts' := (bruteBody_search (c := c) (more.le.trans (alphabetSize_pow_le s)) counts).2
  rw [step] at counts'
  exact ⟨_, counts' rfl, step⟩

section
variable (unit : c.hasBf = true) (acc : acceptsWrites s = true) (silent : s.host = [])
include unit acc silent

/-- While no candidate has the target's checksum, each step tests one: `n` steps lead to a count of `n` (R191, R194). -/
theorem search_tests (n : Nat) (bound : n ≤ alphabetSize s ^ 4)
    (others : ∀ m, m < n → c.H (decodeBuffer (candidateNumber s m)) ≠ s.argWord) :
    ∃ place, TestedCountsCandidates (searching s place n) ∧
      ∀ j, runOn c (n + j) (execOn c .brute s) = runOn c j (searching s place n) := by
  induction n with
  | zero => exact ⟨_, searching_start_counts s, fun j => by rw [execOn_brute_start unit acc, Nat.zero_add]⟩
  | succ n ih =>
    obtain ⟨place, counts, run⟩ := ih (Nat.le_of_succ_le bound) fun m hm => others m (Nat.lt_succ_of_lt hm)
    obtain ⟨place', counts', step⟩ := searching_passes counts bound (others n (Nat.lt_succ_self n))
    refine ⟨place', counts', fun j => ?_⟩
    rw [Nat.add_right_comm, Nat.add_assoc, run, runOn_succ (stepOn_searching silent), step]

/-- The first candidate with the target's checksum ends the search (R191, R193). -/
theorem search_finds (more : n < alphabetSize s ^ 4) (found : c.H (decodeBuffer (candidateNumber s n)) = s.argWord)
    (others : ∀ m, m < n → c.H (decodeBuffer (candidateNumber s m)) ≠ s.argWord) :
    ∃ place, runOn c (n + 1) (execOn c .brute s) =
      .next (acceptCandidate (candidateNumber s n) (searching s place n)) := by
  obtain ⟨place, counts, run⟩ := search_tests unit acc silent n more.le others
  obtain ⟨k, rfl, size, numbered⟩ := searching_stands counts more
  rw [← numbered] at found ⊢
  have accept : bruteBody c (searching s (some k) n) = acceptCandidate (candidate s k) (searching s (some k) n) :=
    bruteBody_match (s := searching s (some k) n) size rfl found
  exact ⟨some k, by rw [run, runOn_succ (stepOn_searching silent), accept, runOn]⟩

/-- A search in which no candidate has the target's checksum fails with `ALEN^4` tested (R191, R192). -/
theorem search_fails (others : ∀ m, m < alphabetSize s ^ 4 → c.H (decodeBuffer (candidateNumber s m)) ≠ s.argWord) :
    ∃ place, runOn c (alphabetSize s ^ 4 + 1) (execOn c .brute s) =
      .next (enterError (.lookupFail (alphabetSize s ^ 4)) (searching s place (alphabetSize s ^ 4))) := by
  obtain ⟨place, counts, run⟩ := search_tests unit acc silent _ le_rfl others
  have fail := bruteBody_fail (c := c) (s := searching s place (alphabetSize s ^ 4)) (searching_exhausted counts)
  exact ⟨place, by rw [run, runOn_succ (stepOn_searching silent), fail, runOn]; rfl⟩

end

/-- Settles O52: with the host silent the search in flight tests the candidates by number up to the first match, or
to the end of the search space. -/
theorem bruteForceContract : Obligations.BruteForceContract := by
  intro c s unit acc silent
  refine ⟨fun n more found others => ?_, fun others => ?_⟩
  · obtain ⟨place, run⟩ := search_finds unit acc silent more found others
    exact ⟨_, run, rfl⟩
  · obtain ⟨place, run⟩ := search_fails unit acc silent others
    exact ⟨_, run, rfl⟩

end Sys2Proof.Machine
end

section
/-! Errors (`60_exceptions.md`): the codes and the information of each error, the refusal of a command by its issue
check, and the two error entries. -/

namespace Sys2Proof.Machine

variable {c : Config} {i : Instr} {s : State} {e : EngineError}

/-! ### Codes and error information -/

/-- Bit 7 of a code says whether the error is fatal (R201). -/
theorem errorCodeBits_bit7 (e : ErrCode) : (errorCodeBits e).getLsbD 7 = isFatalCode e := by
  cases e <;> rfl

/-- `ERRINFO` of an `ILLEGAL_CMD` is the command word (R202). -/
theorem errorInfo_illegalCmd_toNat (w : Word) : (errorInfo (.illegalCmd w)).toNat = w.toNat :=
  BitVec.toNat_setWidth_of_le (by decide)

/-- `ERRINFO` of a `LOOKUP_FAIL` is the tested count (R202), which at its bound of `2^32` (R47) still fits. -/
theorem errorInfo_lookupFail_toNat {n : Nat} (bound : n ≤ 2 ^ 32) : (errorInfo (.lookupFail n)).toNat = n :=
  (BitVec.toNat_ofNat _ _).trans (Nat.mod_eq_of_lt (bound.trans_lt (by decide)))

/-- Settles O13: the fields of `ERRINFO` are the operands written out, and the upper field of a `BAD_INDEX` or an
`INVARIANT` counts in units of `2^32`. -/
theorem errorCodesAndInformation : Obligations.ErrorCodesAndInformation := by
  refine ⟨⟨rfl, rfl, rfl, rfl, rfl, rfl, rfl, rfl⟩, errorCodeBits_bit7, errorInfo_illegalCmd_toNat,
    ⟨rfl, rfl, rfl, rfl⟩, fun _ => errorInfo_lookupFail_toNat, fun id => ⟨?_, ?_⟩, fun w => ⟨?_, ?_, ?_⟩⟩
  · simpa using errorInfo_badIndex_toNat false id
  · simpa using errorInfo_badIndex_toNat true id
  · simpa [kindBits] using errorInfo_invariant_toNat .slotCollision w
  · simpa [kindBits] using errorInfo_invariant_toNat .indexCollision w
  · simpa [kindBits] using errorInfo_invariant_toNat .stepLimit w

/-! ### Refusal by the issue check -/

/-- A command that its issue check refuses ends at once with the error of the check (R39 step 4). -/
theorem execOn_refused (acc : acceptsWrites s = true) (hu : unitPresent c i = true) (hc : issueCheck c i s = some e) :
    execOn c i s = raise e (noteAccepted (opcodeOf i) s) := by
  rw [execOn_accepting c i s acc, issue, if_pos hu, hc]

/-- The five commands without an issue check (R205). -/
theorem issueCheck_none_of_mem (h : i ∈ [Instr.hash, .encode, .decode, .fwd, .brute]) : issueCheck c i s = none := by
  fin_cases h <;> rfl

/-- Settles O17: each failed check is the error that ends its command, and a command without a check is started. -/
theorem issueChecksRefuse : Obligations.IssueChecksRefuse := by
  intro c s acc
  have refused (i : Instr) (e : EngineError) (hu : unitPresent c i = true) (hc : issueCheck c i s = some e) :=
    execOn_refused acc hu hc
  refine ⟨fun noMem => ?_, fun mem valid => ?_, fun invalid => ⟨?_, ?_⟩, fun unit valid => ?_,
    fun unit invalid => ⟨?_, ?_⟩, fun i member unit => ?_⟩
  · exact refused .build .resource rfl (by simp [issueCheck, noMem])
  · exact refused .build .alreadyBuilt rfl (by simp [issueCheck, mem, valid])
  · exact refused .lookup .noTable rfl (by simp [issueCheck, invalid])
  · exact refused .inv .noTable rfl (by simp [issueCheck, invalid])
  · exact refused .decomp .alreadyBuilt unit (by simp [issueCheck, valid])
  · exact refused .orbq .noIndex unit (by simp [issueCheck, invalid])
  · exact refused .orbrd .noIndex unit (by simp [issueCheck, invalid])
  · rw [execOn_start acc unit (issueCheck_none_of_mem member), startCommand_state]

/-! ### Error entry -/

/-- A fatal error leaves no tag set (R204). -/
@[simp] theorem readTag_enterFatal (e : EngineError) (s : State) (o : Word) : readTag (enterFatal e s) o = false := rfl

/-- A fatal error leaves no Word indexed (R204). -/
@[simp] theorem isIndexed_enterFatal (e : EngineError) (s : State) (w : Word) :
    isIndexed (enterFatal e s) w = false := rfl

/-- A fatal error leaves no worker busy (R204). -/
@[simp] theorem workerPos_enterFatal (e : EngineError) (s : State) (w : Nat) :
    workerPos (enterFatal e s) w = none := rfl

/-- Settles O19: `raise` is the error entry of the error's class. -/
theorem errorEntry : Obligations.ErrorEntry := by
  refine ⟨raise_nonfatal, fun e s fatal => ?_⟩
  rw [raise_fatal e s fatal]
  exact ⟨rfl, fun o => ⟨readTag_enterFatal e s o, isIndexed_enterFatal e s o⟩, workerPos_enterFatal e s⟩

end Sys2Proof.Machine
end

section
/-! Every command in flight ends, whatever `H`, the operands and the schedule are (rule R247): each command has a
measure of the work it has left, and every step that leaves the engine `BUSY` lowers it. -/

namespace Sys2Proof.Machine

variable {c : Config} {s t : State} {i : Instr}

/-! ### Work that every step lowers runs out -/

/-- The engine has left `BUSY` with the command's outcome (R40). -/
def Ended (s : State) : Prop := s.state = .done ∨ s.state = .error ∨ s.state = .fatal

/-- The engine's own step leaves the command in flight or ends it (R40). -/
theorem bodyOn_busy_or_ended (busy : s.state = .busy) : (bodyOn c i s).state = .busy ∨ Ended (bodyOn c i s) := by
  rcases bodyOn_outcomes c i s busy with ⟨still, _⟩ | ⟨done, _⟩ | ⟨_, error, _⟩ | ⟨_, _, _, fatal⟩
  · exact .inl still
  · exact .inr (.inl done)
  · exact .inr (.inr (.inl (by rw [error]; rfl)))
  · exact .inr (.inr (.inr (by rw [fatal]; rfl)))

/-- With the host silent a command in flight ends, if every step that does not end it keeps an invariant and lowers the
work left. -/
theorem ends_of_work (c : Config) (i : Instr) {Inv : State → Prop} {work : State → Nat}
    (lowers : ∀ u, Inv u → (bodyOn c i u).state = .busy → Inv (bodyOn c i u) ∧ work (bodyOn c i u) < work u)
    {s : State} (inv : Inv s) (busy : s.state = .busy) (lastop : s.lastop = opcodeOf i) (silent : s.host = []) :
    ∃ t, ReachesOn c s t ∧ Ended t := by
  have step : stepOn c s = .next (bodyOn c i s) := stepOn_silent silent busy lastop
  rcases bodyOn_busy_or_ended busy with still | ended
  · obtain ⟨inv', less⟩ := lowers s inv still
    obtain ⟨_, _, _, _, _, _, sameOp, sameHost, _⟩ := bodyOn_frame c i s
    obtain ⟨t, reached, ended⟩ := ends_of_work c i lowers inv' still (sameOp.trans lastop) (sameHost.trans silent)
    exact ⟨t, .of_step step reached, ended⟩
  · exact ⟨_, .of_step step ⟨0, rfl⟩, ended⟩
termination_by work s

/-! ### The commands of one step -/

theorem bodyOn_ends_at_once (c : Config) (s : State) (h : i ∉ [Instr.build, .fwd, .inv, .decomp, .brute]) :
    (bodyOn c i s).state ≠ .busy := by
  cases i with
  | hash | encode | decode | lookup | orbq => exact EngineState.noConfusion
  | orbrd =>
    simp only [bodyOn, orbrdBody, readElement]
    split_ifs <;> exact EngineState.noConfusion
  | build | fwd | inv | decomp | brute => simp at h

/-! ### BUILD: a claim takes a pending block, a slot update tags a slot -/

/-- The slots that no input of the build has taken yet (R63). -/
def untagged (s : State) : Finset Word := Finset.univ.filter fun o => readTag s o = false

theorem mem_untagged {o : Word} : o ∈ untagged s ↔ readTag s o = false := Finset.mem_filter_univ o

/-- A bound on the claims and slot updates that a build can still make (R133, R135). Unlike `buildWork` it does not need
the worker list in canonical form, of which R247 says nothing. -/
def buildBound (s : State) : Nat := s.pending.length + (untagged s).card

theorem card_untagged_lt {a : Word} (free : readTag s a = false)
    (tags : ∀ o, readTag t o = if o = a then true else readTag s o) : (untagged t).card < (untagged s).card := by
  have erased : untagged t = (untagged s).erase a := by
    ext o
    rw [Finset.mem_erase, mem_untagged, mem_untagged, tags]
    split <;> simp [*]
  rw [erased]
  exact Finset.card_erase_lt_of_mem (mem_untagged.2 free)

theorem buildBound_decreases (busy : (buildBody c s).state = .busy) : buildBound (buildBody c s) < buildBound s := by
  rcases buildBody_outcomes c s with ⟨_, e⟩ | ⟨w, _, ⟨_, hp, e⟩ | ⟨p, _, ⟨free, e⟩ | ⟨_, e⟩⟩⟩ <;> rw [e] at busy ⊢
  · exact EngineState.noConfusion busy
  · have claimed := length_claimStep_pending (c := c) hp w
    have same : untagged (spendDraws (claimStep c w s)) = untagged s := rfl
    simp only [buildBound, same, spendDraws_pending]
    omega
  · exact Nat.add_lt_add_left (card_untagged_lt free (readTag_write s _)) _
  · exact EngineState.noConfusion busy

/-! ### FWD and INV: a walk records at most `2^32` values -/

theorem walkStep_nrec_lt {next : Word → Word} (busy : (walkStep c next s).state = .busy) :
    s.nrec < (walkStep c next s).nrec := by
  rcases walkStep_cases c next s with ⟨_, e⟩ | ⟨_, _, e⟩ | ⟨_, _, e⟩ | ⟨_, _, _, e⟩ <;> rw [e] at busy ⊢
  · exact Nat.lt_succ_self _
  · exact EngineState.noConfusion busy
  · exact EngineState.noConfusion busy
  · exact Nat.lt_succ_self _

/-- The values that a walk can still record (R156). -/
def walkBound (s : State) : Nat := domainSize - s.nrec

theorem walkBound_decreases {next : Word → Word} (bound : s.nrec ≤ domainSize)
    (busy : (walkStep c next s).state = .busy) : walkBound (walkStep c next s) < walkBound s := by
  have bound' := walkStep_nrec_le (c := c) (next := next) bound
  have more := walkStep_nrec_lt busy
  simp only [walkBound]
  omega

/-! ### DECOMP: its counters stay in range, wherever `NORB` stands -/

theorem decompBody_walkCounters (h : WalkCountersInRange s) : WalkCountersInRange (decompBody c s) := by
  obtain ⟨nrec, start, working⟩ := h
  have passed {u : State} (more : s.start < domainSize) (hn : u.nrec = s.nrec) (hu : u.start = s.start) :
      WalkCountersInRange (nextStart u) :=
    ⟨hn.trans_le nrec, by rw [nextStart_start, hu]; exact more, fun scanning => absurd rfl scanning⟩
  rcases decompBody_cases c s with ⟨_, _, e⟩ | ⟨_, more, _, e⟩ | ⟨_, more, _, e⟩ | ⟨hp, _, e⟩ | ⟨_, _, _, e⟩ |
    ⟨_, _, room, e⟩ | ⟨_, _, _, _, e⟩ | ⟨_, hp, _, _, e⟩ | ⟨_, hp, _, e⟩ <;> rw [e]
  · exact ⟨nrec, start, working⟩
  · exact passed (Nat.lt_of_le_of_ne start more) rfl rfl
  · exact ⟨Nat.succ_le_of_lt (Nat.two_pow_pos 32), start, fun _ => Nat.lt_of_le_of_ne start more⟩
  · exact ⟨nrec, start, fun _ => working (by simp [hp])⟩
  · exact ⟨nrec, start, working⟩
  · exact ⟨Nat.lt_of_le_of_ne nrec room, start, working⟩
  · exact ⟨nrec, start, working⟩
  · exact ⟨nrec, start, fun _ => working (by simp [hp])⟩
  · exact passed (working (by simp [hp])) rfl rfl

/-! ### BRUTE: the index tuple rises, wherever the search stands -/

theorem bumpIndex_val {size : Nat} {a b : Fin 256} (h : bumpIndex size a = some b) : b.val = a.val + 1 := by
  unfold bumpIndex at h
  split_ifs at h
  cases h
  rfl

/-- The tuples of all byte indices come in lexicographic order, whether or not the alphabet is as large (R193). -/
theorem tupleRank_lt_of_nextTuple {size : Nat} {k l : BruteIdx} (h : nextTuple size k = some l) :
    tupleRank 256 k < tupleRank 256 l := by
  have := k.i1.isLt
  have := k.i2.isLt
  have := k.i3.isLt
  unfold nextTuple at h
  repeat' split at h
  all_goals cases h
  all_goals
    have := bumpIndex_val ‹bumpIndex size _ = some _›
    simp only [tupleRank]
    omega

/-- A bound on the candidates a search has left, whatever its alphabet (R193). -/
def searchBound (s : State) : Nat := (s.bruteAt.map fun k => 256 ^ 4 - tupleRank 256 k).getD 0

theorem searchBound_decreases (busy : (bruteBody c s).state = .busy) : searchBound (bruteBody c s) < searchBound s := by
  rcases bruteBody_cases c s with ⟨_, e⟩ | ⟨_, _, _, _, e⟩ | ⟨k, hk, _, _, e⟩ <;> rw [e] at busy ⊢
  · exact EngineState.noConfusion busy
  · exact EngineState.noConfusion busy
  · have here : tupleRank 256 k < 256 ^ 4 := tupleRank_lt ⟨k.i0.isLt, k.i1.isLt, k.i2.isLt, k.i3.isLt⟩
    simp only [searchBound, hk, Option.map_some, Option.getD_some]
    cases hl : nextTuple (alphabetSize s) k with
    | none => exact Nat.sub_pos_of_lt here
    | some l =>
      have := tupleRank_lt_of_nextTuple hl
      simp only [Option.map_some, Option.getD_some]
      omega

/-! ### Every command -/

/-- Settles O59, by the work that each command has left: none after one step, or what its steps lower. -/
theorem everyCommandEnds : Obligations.EveryCommandEnds := by
  intro c s busy silent ⟨meaning, _⟩ counters
  obtain ⟨_, i, lastop, _⟩ : NoError s ∧ InFlightAccepted c s := by simpa only [StateMeaning, busy] using meaning
  by_cases steps : i ∈ [Instr.build, .fwd, .inv, .decomp, .brute]
  · have nrec : s.nrec ≤ domainSize := counters.1
    simp only [List.mem_cons, List.not_mem_nil, or_false] at steps
    rcases steps with rfl | rfl | rfl | rfl | rfl
    · exact ends_of_work c .build (Inv := fun _ => True) (fun _ _ still => ⟨trivial, buildBound_decreases still⟩) trivial
        busy lastop silent
    · exact ends_of_work c .fwd (Inv := fun u => u.nrec ≤ domainSize)
        (fun _ h still => ⟨walkStep_nrec_le h, walkBound_decreases h still⟩) nrec busy lastop silent
    · exact ends_of_work c .inv (Inv := fun u => u.nrec ≤ domainSize)
        (fun _ h still => ⟨walkStep_nrec_le h, walkBound_decreases h still⟩) nrec busy lastop silent
    · exact ends_of_work c .decomp (fun _ h still => ⟨decompBody_walkCounters h, decompWork_decreases h still⟩) counters
        busy lastop silent
    · exact ends_of_work c .brute (Inv := fun _ => True) (fun _ _ still => ⟨trivial, searchBound_decreases still⟩) trivial
        busy lastop silent
  · have ended := (bodyOn_busy_or_ended (c := c) busy).resolve_left (bodyOn_ends_at_once c s steps)
    exact ⟨_, .of_step (stepOn_silent silent busy lastop) ⟨0, rfl⟩, ended⟩

end Sys2Proof.Machine
end
